-- ==== Sys2Proof/Word.lean ====
section
/-! DEFINITION. The word of the hardware and its reduction from the integers (spec/00_scope.md R6, R8). -/

namespace Sys2Proof

/-- A word: a signed 64-bit integer (R6), in its 64-bit two's-complement representation (20_memory R67,
93_implementation_defined G4). `BitVec.toInt` is its signed value. -/
abbrev Word := BitVec 64

/-- `wrap64(x)`: the unique word congruent to `x` modulo `2^64` (R8). -/
def wrap64 (x : Int) : Word := BitVec.ofInt 64 x

end Sys2Proof
end

