-- ==== Sys2Proof/Syntax.lean ====
section
/-! DEFINITION. The instructions as the fetch/decode unit delivers them: an opcode and three addressing modes
(spec/30_encoding.md R80 to R84, R86, R96). The parameter words are not part of the decoded instruction: they are
read while it executes (R88, R93, R98). -/

namespace Sys2Proof

/-- The three addressing modes (R89). -/
inductive Mode where
  | position
  | immediate
  | relative
  deriving DecidableEq, Repr

/-- The mode digit of an addressing mode (R89). -/
def Mode.toDigit : Mode → Int
  | .position => 0
  | .immediate => 1
  | .relative => 2

/-- The ten opcodes by their mnemonics (R84, R96). -/
inductive Op where
  | add | mul | inp | out | jt | jf | lt | eq | arb | hlt
  deriving DecidableEq, Repr

/-- The opcode number (R84). -/
def Op.code : Op → Int
  | .add => 1
  | .mul => 2
  | .inp => 3
  | .out => 4
  | .jt => 5
  | .jf => 6
  | .lt => 7
  | .eq => 8
  | .arb => 9
  | .hlt => 99

/-- `NPARAM(op)`, the number of parameter words (R84). -/
def Op.nparam : Op → Nat
  | .add | .mul | .lt | .eq => 3
  | .jt | .jf => 2
  | .inp | .out | .arb => 1
  | .hlt => 0

/-- `wt(op)`, the index of the write-target parameter (R84). -/
def Op.writeTarget : Op → Option Nat
  | .add | .mul | .lt | .eq => some 2
  | .inp => some 0
  | .out | .jt | .jf | .arb | .hlt => none

/-- The five instruction formats (R82). -/
inductive Format where
  | rrw | rr | r | w | n
  deriving DecidableEq, Repr

/-- The format of each opcode (R82). -/
def Op.format : Op → Format
  | .add | .mul | .lt | .eq => .rrw
  | .jt | .jf => .rr
  | .out | .arb => .r
  | .inp => .w
  | .hlt => .n

/-- A decoded instruction (R86): the opcode and the modes `m0`, `m1`, `m2`, those of absent parameters included
(R97: legal and ignored). One constructor per row of spec/opcode_table.json. -/
inductive Instr where
  | add (m0 m1 m2 : Mode)
  | mul (m0 m1 m2 : Mode)
  | inp (m0 m1 m2 : Mode)
  | out (m0 m1 m2 : Mode)
  | jt (m0 m1 m2 : Mode)
  | jf (m0 m1 m2 : Mode)
  | lt (m0 m1 m2 : Mode)
  | eq (m0 m1 m2 : Mode)
  | arb (m0 m1 m2 : Mode)
  | hlt (m0 m1 m2 : Mode)
  deriving DecidableEq, Repr

/-- The opcode of an instruction. -/
def Instr.op : Instr → Op
  | .add _ _ _ => .add
  | .mul _ _ _ => .mul
  | .inp _ _ _ => .inp
  | .out _ _ _ => .out
  | .jt _ _ _ => .jt
  | .jf _ _ _ => .jf
  | .lt _ _ _ => .lt
  | .eq _ _ _ => .eq
  | .arb _ _ _ => .arb
  | .hlt _ _ _ => .hlt

/-- The mode of parameter 0. -/
def Instr.m0 : Instr → Mode
  | .add m _ _ | .mul m _ _ | .inp m _ _ | .out m _ _ | .jt m _ _ => m
  | .jf m _ _ | .lt m _ _ | .eq m _ _ | .arb m _ _ | .hlt m _ _ => m

/-- The mode of parameter 1. -/
def Instr.m1 : Instr → Mode
  | .add _ m _ | .mul _ m _ | .inp _ m _ | .out _ m _ | .jt _ m _ => m
  | .jf _ m _ | .lt _ m _ | .eq _ m _ | .arb _ m _ | .hlt _ m _ => m

/-- The mode of parameter 2. -/
def Instr.m2 : Instr → Mode
  | .add _ _ m | .mul _ _ m | .inp _ _ m | .out _ _ m | .jt _ _ m => m
  | .jf _ _ m | .lt _ _ m | .eq _ _ m | .arb _ _ m | .hlt _ _ m => m

/-- The instruction of an opcode and three modes. -/
def Op.toInstr (op : Op) (m0 m1 m2 : Mode) : Instr :=
  match op with
  | .add => .add m0 m1 m2
  | .mul => .mul m0 m1 m2
  | .inp => .inp m0 m1 m2
  | .out => .out m0 m1 m2
  | .jt => .jt m0 m1 m2
  | .jf => .jf m0 m1 m2
  | .lt => .lt m0 m1 m2
  | .eq => .eq m0 m1 m2
  | .arb => .arb m0 m1 m2
  | .hlt => .hlt m0 m1 m2

/-- Whether the write-target parameter of `op`, if it has one, would be in immediate mode. -/
def Op.immediateTarget (op : Op) (m0 m1 m2 : Mode) : Bool :=
  match op.writeTarget with
  | some 0 => m0 == .immediate
  | some 1 => m1 == .immediate
  | some _ => m2 == .immediate
  | none => false

/-- The length of an instruction in words (R80). -/
def Instr.length (i : Instr) : Nat := 1 + i.op.nparam

end Sys2Proof
end

