-- ==== Sys2Proof/WellFormed.lean ====
section
/-! DEFINITION. The instructions the decoder can deliver: a write-target parameter is never in immediate mode
(spec/30_encoding.md R86, R95). Every other combination of opcode and modes is legal (R97). -/

namespace Sys2Proof

/-- The one check on a decoded instruction: its write target, if any, is not in immediate mode. -/
def Instr.wellFormed (i : Instr) : Bool := !(i.op.immediateTarget i.m0 i.m1 i.m2)

end Sys2Proof
end

