-- ==== Sys2Proof/Decode.lean ====
section
/-! DEFINITION. The decoder of the fetch/decode unit, in decimal digits of the signed instruction word
(spec/00_scope.md R9; 30_encoding R81, R86, R95, R97), and the encoder (30_encoding R100). -/

namespace Sys2Proof

/-- The power of ten `10^k`. -/
def pow10 : Nat → Int
  | 0 => 1
  | k + 1 => 10 * pow10 k

/-- Division rounded toward zero (R9). -/
def tdiv (x y : Int) : Int := Int.tdiv x y

/-- The remainder of `tdiv`, with the sign of `x` (R9). -/
def trem (x y : Int) : Int := x - y * tdiv x y

/-- The decimal digit of weight `10^k` of a word (R9). -/
def digit (w : Word) (k : Nat) : Int := trem (tdiv w.toInt (pow10 k)) 10

/-- The two faults of decode, with the values of the fault table (60_exceptions R241). -/
inductive DecodeFault where
  /-- The value is `trem(w, 100)`. -/
  | unknownOpcode (value : Word)
  /-- The value is the instruction word; `param` is the index of the bad digit. -/
  | invalidAddressingMode (value : Word) (param : Nat)
  deriving DecidableEq, Repr

/-- The opcode a number stands for (R84). -/
def opOfCode (n : Int) : Option Op :=
  if n = 1 then some .add
  else if n = 2 then some .mul
  else if n = 3 then some .inp
  else if n = 4 then some .out
  else if n = 5 then some .jt
  else if n = 6 then some .jf
  else if n = 7 then some .lt
  else if n = 8 then some .eq
  else if n = 9 then some .arb
  else if n = 99 then some .hlt
  else none

/-- The mode a digit stands for (R89). -/
def modeOfDigit (d : Int) : Option Mode :=
  if d = 0 then some .position
  else if d = 1 then some .immediate
  else if d = 2 then some .relative
  else none

/-- The decoder (R86): the opcode first, then the three mode digits in order, used or not, then the write
target's immediate mode. -/
def decode (w : Word) : Except DecodeFault Instr :=
  match opOfCode (trem w.toInt 100) with
  | none => .error (.unknownOpcode (wrap64 (trem w.toInt 100)))
  | some op =>
    match modeOfDigit (digit w 2), modeOfDigit (digit w 3), modeOfDigit (digit w 4) with
    | none, _, _ => .error (.invalidAddressingMode w 0)
    | some _, none, _ => .error (.invalidAddressingMode w 1)
    | some _, some _, none => .error (.invalidAddressingMode w 2)
    | some m0, some m1, some m2 =>
      if op.immediateTarget m0 m1 m2 then .error (.invalidAddressingMode w (op.writeTarget.getD 0))
      else .ok (op.toInstr m0 m1 m2)

/-- The number `op + 100*m0 + 1000*m1 + 10000*m2` (R100). -/
def instrNumber (i : Instr) : Int :=
  i.op.code + 100 * i.m0.toDigit + 1000 * i.m1.toDigit + 10000 * i.m2.toDigit

/-- The encoder: the instruction word of an instruction (R81, R100). -/
def encode (i : Instr) : Word := wrap64 (instrNumber i)

/-- What the decoder reads from an instruction whose words are numbered as spec/opcode_table.json numbers them:
the first 64 bits are the instruction word; the parameter words that follow it are not examined (R98). -/
def decodeTableWord (nbits w : Nat) : Option Instr :=
  match decode (BitVec.ofNat 64 (w % 2 ^ nbits)) with
  | .ok i => some i
  | .error _ => none

end Sys2Proof
end

