-- ==== Sys2Proof/Config.lean ====
section
/-! DEFINITION. What is fixed for the machine, and the one free value of the model. -/

namespace Sys2Proof.Config

/-- `ADDR_MAX = 2^63 - 1`, the largest memory address (spec/00_scope.md R7, 20_memory R61). -/
def addrMax : Nat := 9223372036854775807

/-- The scheduler's choice at a given tick, where `State.sched` names no enabled agent: which of the enabled
agents steps next is a parameter (60_exceptions R286, 93_implementation_defined U20). It has no body, so that
nothing can be proved of its values (log 3, DESIGN CHOICE, safe). -/
opaque schedule : Nat → Nat

end Sys2Proof.Config
end

