-- ==== Sys2Proof/Machine/State.lean ====
section
/-! DEFINITION. The state of the system: instances, ports, the arbiter and the host (spec/10_state.md), with the
scheduler's and the host's coming choices as plain data, and the state right after reset (70_reset_and_hazards
R300 to R304). -/

namespace Sys2Proof.Machine

/-- The memory of an instance (20_memory R60 to R65): the words that differ from `0`, by rising address. -/
abbrev Memory := List (Nat × Word)

/-- The fault codes of an instance (60_exceptions R241). -/
inductive FaultKind where
  | malformedProgram
  | unknownOpcode
  | invalidAddressingMode
  | negativeAddress
  | inputEndOfStream
  deriving DecidableEq, Repr

/-- What raises a fault, with what R241 records of it. -/
inductive Cause where
  | malformedProgram (token : Nat)
  | unknownOpcode (value : Word)
  | invalidAddressingMode (value : Word) (param : Nat)
  | negativeAddress (addr : Word) (param : Option Nat)
  | inputEndOfStream (port : Nat)
  deriving DecidableEq, Repr

/-- The fault record `frec` (60_exceptions R244). -/
structure FaultRecord where
  kind : FaultKind
  pc : Option Word
  value : Word
  param : Option Nat
  port : Option Nat
  inst : Nat
  deriving DecidableEq, Repr

/-- The run status of an instance (10_state R24). -/
inductive Status where
  | idle
  | running
  | halted
  | faulted
  deriving DecidableEq, Repr

/-- One instance (10_state R20 to R27). Its identifier is its position in `State.insts`. -/
structure Inst where
  /-- Program counter (R21). -/
  pc : Word
  /-- Relative base (R22). -/
  rb : Word
  /-- Memory (R23). -/
  mem : Memory
  /-- The launch parameter `IMAGE(k)` (00_scope R7). -/
  image : List Word
  /-- Run status (R24). -/
  status : Status
  /-- Fault record, `none` for empty (R25). -/
  frec : Option FaultRecord
  /-- `IN_PORT(k)` (R26). -/
  inPort : Nat
  /-- `OUT_PORT(k)` (R26). -/
  outPort : Nat
  deriving DecidableEq, Repr

/-- An endpoint of a port: an instance or the host (10_state R31). -/
inductive Endpoint where
  | inst (k : Nat)
  | host
  deriving DecidableEq, Repr

/-- One port (10_state R31). Its identifier is its position in `State.ports`. -/
structure Port where
  /-- Values written and not yet read, oldest first. -/
  q : List Word
  closed : Bool
  /-- `CAP(p)`; `0` is unbuffered. -/
  cap : Nat
  /-- The launch parameter `SEED(p)` (00_scope R7). -/
  seed : List Word
  prod : Endpoint
  cons : Endpoint
  deriving DecidableEq, Repr

/-- The topology kinds (10_state R34, 60_exceptions R260). -/
inductive Topo where
  | single
  | pipeline
  | ring
  deriving DecidableEq, Repr

/-- The reasons of a configuration error, in the order they are checked (60_exceptions R261). -/
inductive ConfigReason where
  | loadFailed
  | noInstances
  | badWiring
  | seedExceedsCapacity
  deriving DecidableEq, Repr

/-- The host's mode (10_state R35). -/
inductive HostMode where
  | active
  | waitPush (p : Nat) (v : Word)
  | waitPop (p : Nat)
  | join
  deriving DecidableEq, Repr

/-- The host's moves (60_exceptions R280). PUSH, POP and JOIN stand for their issue; their completion is a step
of its own. A program text is a list of characters; `CAP` and `SEED` are listed by port (log 8). -/
inductive HostMove where
  | load (k : Nat) (text : List Char)
  | config (topo : Topo) (n : Nat) (caps : List Nat) (seeds : List (List Word))
  | start
  | push (p : Nat) (v : Word)
  | pop (p : Nat)
  | close (p : Nat)
  | join
  | memRead (k : Nat) (a : Word)
  deriving DecidableEq, Repr

/-- What the host receives from a completed move (60_exceptions R266, R270, R280, R284). -/
inductive HostResult where
  | value (p : Nat) (v : Word)
  | endOfStream (p : Nat)
  | joined (ends : List (Status × Option FaultRecord))
  | word (k : Nat) (a : Word) (v : Word)
  | deadlock (held : List Nat)
  deriving DecidableEq, Repr

/-- The agents that take steps (00_scope R11): an instance (alone or with its partner in a rendezvous), the host
making its next move, the host's pending wait completing, and the arbiter declaring a deadlock. -/
inductive Agent where
  | inst (k : Nat)
  | hostMove
  | hostWait
  | arbiter
  deriving DecidableEq, Repr

/-- The ends of a run (70_reset_and_hazards R308). -/
inductive RunOutcome where
  | configError
  | success
  | fault
  | deadlock (held : List Nat)
  deriving DecidableEq, Repr

/-- The whole system. -/
structure State where
  /-- `topo` (10_state R34). -/
  topo : Topo
  /-- `N_INST` (00_scope R7). -/
  nInst : Nat
  /-- `started` (10_state R34). -/
  started : Bool
  /-- `unseeded_cycle` (10_state R34). -/
  unseededCycle : Bool
  /-- `config_error` (10_state R34). -/
  configError : Option ConfigReason
  /-- `deadlock` (10_state R34); the set of identifiers as a rising list. -/
  deadlock : Option (List Nat)
  /-- The instances, by identifier (60_exceptions R285). -/
  insts : List Inst
  /-- The ports, by identifier (10_state R31). -/
  ports : List Port
  /-- The host's mode (10_state R35). -/
  hmode : HostMode
  /-- The model's own: the host's coming moves (log 4). -/
  moves : List HostMove
  /-- The model's own: what the host has received, oldest first (log 4). -/
  results : List HostResult
  /-- The model's own: the instance whose instruction is executed (log 3). -/
  cur : Nat
  /-- The model's own: the agents the scheduler names for the coming steps (log 3). -/
  sched : List Agent
  /-- The model's own: the counter the free scheduler value is applied to (log 3). -/
  tick : Nat
  deriving DecidableEq, Repr

/-- Why the machine stops: no agent has an enabled step. All are raised by `step` alone and are safe, since the
spec gives no agent a step there (log 12). -/
inductive Fault where
  /-- The run is over with this outcome (70_reset_and_hazards R308) and no agent has a step. Safe. -/
  | runOver (o : RunOutcome)
  /-- No agent has a step and the run is not over: the host stays ACTIVE and makes no further move
  (60_exceptions R272, 93_implementation_defined U16), or it waits on a port of a run that is not started. Safe. -/
  | stuck
  deriving DecidableEq, Repr

/-- Why the machine gives a step no meaning. -/
inductive Refusal where
  /-- An instruction that has no meaning yet; raised by `exec` in the arms that are not written. Safe. -/
  | notModelled (mnemonic : String)
  /-- No agent has a step and the ACTIVE host's next move is one that 60_exceptions R280 gives it no step for
  (93_implementation_defined U19: refuse); raised by `step`. Safe. -/
  | hostMoveRefused (m : HostMove)
  deriving DecidableEq, Repr

/-- The result of a step or of an instruction. -/
abbrev Result := Host.Outcome State Fault Refusal

/-- An instance as it is created, with the empty image (R300; log 5 for the image and the ports it is bound to
before a configuration). -/
def Inst.fresh : Inst :=
  { pc := 0, rb := 0, mem := [], image := [], status := .idle, frec := none, inPort := 0, outPort := 1 }

/-- The machine right after reset (R300, R302, R303): the arbiter and the host as R303 says; before any LOAD or
CONFIG the open parameters are one instance with the empty image, in SINGLE, with unbuffered, unseeded ports
(log 5, DESIGN CHOICE, unsafe). -/
def State.reset : State :=
  { topo := .single, nInst := 1, started := false, unseededCycle := false, configError := none, deadlock := none
    insts := [Inst.fresh]
    ports := [{ q := [], closed := false, cap := 0, seed := [], prod := .host, cons := .inst 0 },
              { q := [], closed := false, cap := 0, seed := [], prod := .inst 0, cons := .host }]
    hmode := .active, moves := [], results := [], cur := 0, sched := [], tick := 0 }

end Sys2Proof.Machine
end

