-- ==== Sys2Proof/Machine/Ops.lean ====
section
/-! DEFINITION. The operations every meaning is written over: memory, the access to instances and ports, taking a
fault (spec/60_exceptions.md R243), and the ports' queues (41_port_io.md R142, R143, R147). -/

namespace Sys2Proof.Machine

/-! ### Memory -/

/-- The word at address `a`; `0` if none is listed (20_memory R62, R64). -/
def Memory.read (m : Memory) (a : Nat) : Word :=
  match m with
  | [] => 0
  | (k, v) :: t => if k = a then v else Memory.read t a

/-- Lists `v` at `a`, before the first larger address. -/
def Memory.insert (m : Memory) (a : Nat) (v : Word) : Memory :=
  match m with
  | [] => [(a, v)]
  | (k, w) :: t => if a < k then (a, v) :: (k, w) :: t else (k, w) :: Memory.insert t a v

/-- Drops what is listed at `a`. -/
def Memory.erase (m : Memory) (a : Nat) : Memory := m.filter (fun c => c.1 != a)

/-- Sets the word at address `a` (20_memory R63); `0` is what an unlisted address reads as, so it is not listed
(R65: an address never written and one written with `0` cannot be told apart). -/
def Memory.write (m : Memory) (a : Nat) (v : Word) : Memory :=
  if v = 0 then Memory.erase m a else Memory.insert (Memory.erase m a) a v

/-- The image laid out from address `a` on (20_memory R64); a word beyond the address space has no place
(log 17). -/
def Memory.ofImage (a : Nat) (ws : List Word) : Memory :=
  match ws with
  | [] => []
  | w :: t => if w = 0 ∨ Config.addrMax < a then Memory.ofImage (a + 1) t else (a, w) :: Memory.ofImage (a + 1) t

/-- Whether every listed address lies above `lo`, in rising order and in the address space, with a word that is
not `0`. -/
def Memory.wfFrom (lo : Nat) (m : Memory) : Bool :=
  match m with
  | [] => true
  | (k, v) :: t => decide (lo ≤ k) && decide (k ≤ Config.addrMax) && (v != 0) && Memory.wfFrom (k + 1) t

/-- The canonical form of memory: addresses strictly rising and in the address space, no `0` listed. -/
def Memory.wf (m : Memory) : Bool := Memory.wfFrom 0 m

/-! ### Access to instances and ports -/

/-- Instance `k`; one never created reads as a fresh instance (log 16). -/
def State.inst (s : State) (k : Nat) : Inst := s.insts.getD k Inst.fresh

/-- The instance whose instruction is executed. -/
def State.self (s : State) : Inst := s.inst s.cur

/-- Replaces instance `k`. -/
def State.setInst (s : State) (k : Nat) (I : Inst) : State := { s with insts := s.insts.set k I }

/-- Port `p`, if it exists. -/
def State.port (s : State) (p : Nat) : Option Port := s.ports[p]?

/-- Replaces port `p`. -/
def State.setPort (s : State) (p : Nat) (P : Port) : State := { s with ports := s.ports.set p P }

/-- Whether an instance is terminated: HALTED or FAULTED (00_scope R12). -/
def Inst.terminated (I : Inst) : Bool := I.status == .halted || I.status == .faulted

/-- The address of the instruction after one with `n` parameters (30_encoding R92). -/
def Inst.nextPc (I : Inst) (n : Nat) : Word := wrap64 (I.pc.toInt + 1 + n)

/-- Moves an instance past an instruction with `n` parameters (30_encoding R92). -/
def Inst.advance (I : Inst) (n : Nat) : Inst := { I with pc := I.nextPc n }

/-! ### Taking a fault -/

/-- The number of a fault code (60_exceptions R241). -/
def FaultKind.code : FaultKind → Nat
  | .malformedProgram => 1
  | .unknownOpcode => 2
  | .invalidAddressingMode => 3
  | .negativeAddress => 4
  | .inputEndOfStream => 5

/-- The number of a status (10_state R24). -/
def Status.code : Status → Nat
  | .idle => 0
  | .running => 1
  | .halted => 2
  | .faulted => 3

/-- The fault record of a cause, in instance `k` with program counter `pc` (60_exceptions R241, R243, R244). -/
def Cause.toRecord (c : Cause) (pc : Word) (k : Nat) : FaultRecord :=
  match c with
  | .malformedProgram token =>
    { kind := .malformedProgram, pc := none, value := wrap64 token, param := none, port := none, inst := k }
  | .unknownOpcode v =>
    { kind := .unknownOpcode, pc := some pc, value := v, param := none, port := none, inst := k }
  | .invalidAddressingMode w i =>
    { kind := .invalidAddressingMode, pc := some pc, value := w, param := some i, port := none, inst := k }
  | .negativeAddress a i =>
    { kind := .negativeAddress, pc := some pc, value := a, param := i, port := none, inst := k }
  | .inputEndOfStream p =>
    { kind := .inputEndOfStream, pc := some pc, value := 0, param := none, port := some p, inst := k }

/-- A decode fault as a cause (60_exceptions R241). -/
def causeOfDecode : DecodeFault → Cause
  | .unknownOpcode v => .unknownOpcode v
  | .invalidAddressingMode w i => .invalidAddressingMode w i

/-- The instance after a fault: its record written, FAULTED, nothing else changed (60_exceptions R243). -/
def Inst.fail (I : Inst) (k : Nat) (c : Cause) : Inst :=
  { I with frec := some (c.toRecord I.pc k), status := .faulted }

/-- `raise`: instance `k` takes a fault (60_exceptions R243). There is no return from it (R247). -/
def State.raise (s : State) (k : Nat) (c : Cause) : State := s.setInst k ((s.inst k).fail k c)

/-- Ends an instruction of the executing instance that uses no port: it becomes `I`, or it takes the fault. -/
def State.complete (s : State) (r : Except Cause Inst) : State :=
  match r with
  | .ok I => s.setInst s.cur I
  | .error c => s.raise s.cur c

/-! ### The ports' queues -/

/-- Appends a value to the queue of port `p` (41_port_io R143). -/
def State.enqueue (s : State) (p : Nat) (v : Word) : State :=
  match s.port p with
  | some P => s.setPort p { P with q := P.q ++ [v] }
  | none => s

/-- Drops the oldest value of the queue of port `p` (41_port_io R142). -/
def State.dequeue (s : State) (p : Nat) : State :=
  match s.port p with
  | some P => s.setPort p { P with q := P.q.tail }
  | none => s

/-- `PortClose(p)`: the queue is left as it is (41_port_io R147). -/
def State.closePort (s : State) (p : Nat) : State :=
  match s.port p with
  | some P => s.setPort p { P with closed := true }
  | none => s

end Sys2Proof.Machine
end

