-- ==== Sys2Proof/Machine/Operands.lean ====
section
/-! DEFINITION. The parameters of an instruction: raw words, values and destination addresses under the three
addressing modes (spec/30_encoding.md R83, R88 to R91, R93), and the fetch of the instruction word (R85). -/

namespace Sys2Proof.Machine

/-- The memory cell of an address, or the one fault of a memory access (20_memory R61 to R63, R66). `param` is the
index of the parameter the access is for, none for the fetch. -/
def checkAddress (param : Option Nat) (a : Word) : Except Cause Nat :=
  if a.toInt < 0 then .error (.negativeAddress a param) else .ok a.toNat

/-- `MemRead(a, 1)` (20_memory R62). -/
def Inst.memRead (I : Inst) (param : Option Nat) (a : Word) : Except Cause Word := do
  let cell ← checkAddress param a
  pure (Memory.read I.mem cell)

/-- The address of parameter word `i` (30_encoding R83). -/
def Inst.paramAddr (I : Inst) (i : Nat) : Word := wrap64 (I.pc.toInt + 1 + i)

/-- `P(i)`, the raw parameter word (R88). -/
def Inst.rawParam (I : Inst) (i : Nat) : Except Cause Word := I.memRead (some i) (I.paramAddr i)

/-- The effective address of a relative-mode parameter (R89). -/
def Inst.relAddr (I : Inst) (raw : Word) : Word := wrap64 (I.rb.toInt + raw.toInt)

/-- `ReadParam(i)` under mode `m` (R90). -/
def Inst.readParam (I : Inst) (i : Nat) (m : Mode) : Except Cause Word := do
  let raw ← I.rawParam i
  match m with
  | .position => I.memRead (some i) raw
  | .immediate => pure raw
  | .relative => I.memRead (some i) (I.relAddr raw)

/-- `WriteAddr(i)` under mode `m` (R91). The decoder delivers no immediate-mode write target (R86); such a term
takes the fault the decoder raises for it (log 14). -/
def Inst.writeAddr (I : Inst) (i : Nat) (m : Mode) : Except Cause Nat := do
  let raw ← I.rawParam i
  match m with
  | .position => checkAddress (some i) raw
  | .immediate => .error (.invalidAddressingMode (Memory.read I.mem I.pc.toNat) i)
  | .relative => checkAddress (some i) (I.relAddr raw)

/-- The fetch of the instruction word (R85). -/
def Inst.fetch (I : Inst) : Except Cause Word := I.memRead none I.pc

/-- Fetch and decode (R85, R86, R94). -/
def Inst.fetchInstr (I : Inst) : Except Cause Instr := do
  let w ← I.fetch
  match decode w with
  | .ok i => pure i
  | .error d => .error (causeOfDecode d)

end Sys2Proof.Machine
end

