-- ==== Sys2Proof/Machine/Ports.lean ====
section
/-! DEFINITION. The port IPC controller: which endpoint is ready (spec/41_port_io.md R140), how a pop or a push can
complete (R142 to R146), what each side of a transfer does, and being held (R148). -/

namespace Sys2Proof.Machine

/-- A ready consumer: an instance at IN with its destination, or the host (R140). -/
inductive Consumer where
  | inst (k : Nat) (ea : Nat)
  | host
  deriving DecidableEq, Repr

/-- A ready producer: an instance at OUT, or the host (R140). -/
inductive Producer where
  | inst (k : Nat)
  | host
  deriving DecidableEq, Repr

/-- How a pop can complete (R142). -/
inductive PopHow where
  /-- With the oldest value of the queue. -/
  | queued (v : Word)
  /-- With end of stream. -/
  | endOfStream
  /-- In a rendezvous with a ready producer (R146). -/
  | rendezvous (src : Producer) (v : Word)
  /-- Not now: the consumer is held (R148). -/
  | notReady
  deriving DecidableEq, Repr

/-- How a push can complete (R143, R144). -/
inductive PushHow where
  /-- Into the buffer. -/
  | buffered
  /-- In a rendezvous with a ready consumer (R146). -/
  | rendezvous (dst : Consumer)
  /-- Not now: the producer is held (R148). -/
  | notReady
  deriving DecidableEq, Repr

/-- The mode of IN's write target, for an IN instruction. -/
def inMode : Instr → Option Mode
  | .inp m0 _ _ => some m0
  | .add _ _ _ | .mul _ _ _ | .out _ _ _ | .jt _ _ _ | .jf _ _ _ => none
  | .lt _ _ _ | .eq _ _ _ | .arb _ _ _ | .hlt _ _ _ => none

/-- The mode of OUT's parameter, for an OUT instruction. -/
def outMode : Instr → Option Mode
  | .out m0 _ _ => some m0
  | .add _ _ _ | .mul _ _ _ | .inp _ _ _ | .jt _ _ _ | .jf _ _ _ => none
  | .lt _ _ _ | .eq _ _ _ | .arb _ _ _ | .hlt _ _ _ => none

/-- The destination of an instance at IN whose fetch, decode and `WriteAddr(0)` succeed (R140). -/
def Inst.inTarget (I : Inst) : Option Nat :=
  match I.fetchInstr with
  | .error _ => none
  | .ok i =>
    match inMode i with
    | none => none
    | some m =>
      match I.writeAddr 0 m with
      | .ok ea => some ea
      | .error _ => none

/-- The value of an instance at OUT whose fetch, decode and `ReadParam(0)` succeed (R140). -/
def Inst.outValue (I : Inst) : Option Word :=
  match I.fetchInstr with
  | .error _ => none
  | .ok i =>
    match outMode i with
    | none => none
    | some m =>
      match I.readParam 0 m with
      | .ok v => some v
      | .error _ => none

/-- Whether the host may pop port `p`: it is the consumer, or the consumer instance is terminated and the pop is a
drain (60_exceptions R280, R283). -/
def State.hostPops (s : State) (P : Port) : Bool :=
  match P.cons with
  | .host => true
  | .inst k => (s.inst k).terminated

/-- Whether the host produces a port. -/
def hostPushes (P : Port) : Bool := P.prod == .host

/-- The ready consumer of port `p`, which is `P` (R140). -/
def State.readyConsumer (s : State) (p : Nat) (P : Port) : Option Consumer :=
  if s.hmode = .waitPop p ∧ s.hostPops P = true then some .host
  else
    match P.cons with
    | .host => none
    | .inst k =>
      if (s.inst k).status = .running ∧ (s.inst k).inPort = p then (s.inst k).inTarget.map (Consumer.inst k)
      else none

/-- The value the host offers to port `p` while it waits to push there. -/
def HostMode.offer (h : HostMode) (p : Nat) : Option Word :=
  match h with
  | .waitPush p' v => if p' = p then some v else none
  | .active | .waitPop _ | .join => none

/-- The ready producer of port `p`, which is `P`, and its value (R140). -/
def State.readyProducer (s : State) (p : Nat) (P : Port) : Option (Producer × Word) :=
  match P.prod with
  | .host => (s.hmode.offer p).map (fun v => (Producer.host, v))
  | .inst k =>
    if (s.inst k).status = .running ∧ (s.inst k).outPort = p then
      (s.inst k).outValue.map (fun v => (Producer.inst k, v))
    else none

/-- `PortPop(p)`, as a decision (R142). -/
def State.popHow (s : State) (p : Nat) : PopHow :=
  match s.port p with
  | none => .notReady
  | some P =>
    match P.q with
    | v :: _ => .queued v
    | [] =>
      if P.closed then .endOfStream
      else if P.cap = 0 then
        match s.readyProducer p P with
        | some (src, v) => .rendezvous src v
        | none => .notReady
      else .notReady

/-- `PortPush(p, v)`, as a decision: a buffered port takes a value while there is room (R143); an unbuffered port
hands it to a ready consumer (R144, R146). -/
def State.pushHow (s : State) (p : Nat) : PushHow :=
  match s.port p with
  | none => .notReady
  | some P =>
    if 0 < P.cap then (if P.q.length < P.cap then .buffered else .notReady)
    else if P.closed then .notReady
    else
      match s.readyConsumer p P with
      | some dst => .rendezvous dst
      | none => .notReady

/-- The producer's side of a transfer: an instance finishes its OUT, the host its wait (R146, R151;
60_exceptions R280). -/
def State.release (s : State) (src : Producer) : State :=
  match src with
  | .inst k => s.setInst k ((s.inst k).advance 1)
  | .host => { s with hmode := .active }

/-- The consumer's side of a transfer of `v` on port `p`: an instance writes it and finishes its IN, the host
receives it (R141, R146; 60_exceptions R280). -/
def State.deliver (s : State) (p : Nat) (dst : Consumer) (v : Word) : State :=
  match dst with
  | .inst k ea => s.setInst k { (s.inst k).advance 1 with mem := Memory.write (s.inst k).mem ea v }
  | .host => { s with hmode := .active, results := s.results ++ [.value p v] }

/-- Whether an instance is held: ready at IN or OUT with no way to complete (R148). -/
def State.held (s : State) (k : Nat) : Bool :=
  (s.inst k).status == .running &&
    (((s.inst k).inTarget.isSome && s.popHow (s.inst k).inPort == .notReady) ||
     ((s.inst k).outValue.isSome && s.pushHow (s.inst k).outPort == .notReady))

/-- Whether an instance has an enabled step: it is RUNNING and not held (10_state R24, 41_port_io R148, R149). -/
def State.canStep (s : State) (k : Nat) : Bool := (s.inst k).status == .running && !s.held k

end Sys2Proof.Machine
end

