-- ==== Sys2Proof/Machine/PortIO.lean ====
section
/-! DEFINITION. IN and OUT (spec/41_port_io.md R141, R151). A held instruction leaves the state as it is (R148). -/

namespace Sys2Proof.Machine

/-- A pop of port `p` by a consumer, completed as `how` says; `none` when it cannot complete with a value. -/
def State.takeValue (s : State) (p : Nat) (dst : Consumer) (how : PopHow) : Option State :=
  match how with
  | .queued v => some ((s.dequeue p).deliver p dst v)
  | .rendezvous src v => some ((s.release src).deliver p dst v)
  | .endOfStream | .notReady => none

/-- A push of `v` to port `p` by a producer, completed as `how` says; `none` when it cannot complete. -/
def State.giveValue (s : State) (p : Nat) (src : Producer) (v : Word) (how : PushHow) : Option State :=
  match how with
  | .buffered => some ((s.release src).enqueue p v)
  | .rendezvous dst => some ((s.release src).deliver p dst v)
  | .notReady => none

/-- IN (R141): the destination is checked before the port is touched. -/
def execIn (m0 : Mode) (s : State) : Result :=
  match s.self.writeAddr 0 m0 with
  | .error c => .next (s.raise s.cur c)
  | .ok ea =>
    match s.popHow s.self.inPort with
    | .endOfStream => .next (s.raise s.cur (.inputEndOfStream s.self.inPort))
    | how => .next ((s.takeValue s.self.inPort (.inst s.cur ea) how).getD s)

/-- OUT (R151). -/
def execOut (m0 : Mode) (s : State) : Result :=
  match s.self.readParam 0 m0 with
  | .error c => .next (s.raise s.cur c)
  | .ok a => .next ((s.giveValue s.self.outPort (.inst s.cur) a (s.pushHow s.self.outPort)).getD s)

end Sys2Proof.Machine
end

