-- ==== Sys2Proof/Machine/Loader.lean ====
section
/-! DEFINITION. The program text and its load (spec/70_reset_and_hazards.md R305). -/

namespace Sys2Proof.Machine

/-- `ws`: space, tab, CR or LF (R305). -/
def isSpace (c : Char) : Bool := c == ' ' || c == '\t' || c == '\r' || c == '\n'

/-- `digit` (R305). -/
def isDigit (c : Char) : Bool := decide (48 ≤ c.toNat) && decide (c.toNat ≤ 57)

/-- The text after its leading white space. -/
def dropSpaces (t : List Char) : List Char :=
  match t with
  | [] => []
  | c :: r => if isSpace c then dropSpaces r else c :: r

/-- The number of the leading digits of a text, on top of `acc`, and the text after them. -/
def readDigits (acc : Nat) (t : List Char) : Nat × List Char :=
  match t with
  | [] => (acc, [])
  | c :: r => if isDigit c then readDigits (10 * acc + (c.toNat - 48)) r else (acc, c :: r)

/-- Whether a text begins with a minus sign, and the text after an optional sign. -/
def readSign (t : List Char) : Bool × List Char :=
  match t with
  | [] => (false, [])
  | c :: r => if c = '-' then (true, r) else if c = '+' then (false, r) else (false, c :: r)

/-- Whether a text begins with a digit. -/
def startsWithDigit (t : List Char) : Bool :=
  match t with
  | [] => false
  | c :: _ => isDigit c

/-- An integer as a word, if it is in the range of a word (R305, 00_scope R6). -/
def wordOfInt (x : Int) : Option Word :=
  if -9223372036854775808 ≤ x ∧ x ≤ 9223372036854775807 then some (wrap64 x) else none

/-- `token`: white space, an optional sign, at least one digit, white space; its value must be a word (R305). -/
def parseToken (t : List Char) : Option Word :=
  let (negative, body) := readSign (dropSpaces t)
  let (n, rest) := readDigits 0 body
  if startsWithDigit body && (dropSpaces rest).isEmpty then
    wordOfInt (if negative then -(n : Int) else n)
  else none

/-- The tokens of a text: what stands between its commas (R305). -/
def splitCommas (t : List Char) : List (List Char) :=
  match t with
  | [] => [[]]
  | c :: r =>
    if c = ',' then [] :: splitCommas r
    else
      match splitCommas r with
      | [] => [[c]]
      | h :: rest => (c :: h) :: rest

/-- The words of the tokens from token `i` on, or the index of the first bad one. -/
def parseTokens (i : Nat) (tokens : List (List Char)) : Except Nat (List Word) :=
  match tokens with
  | [] => .ok []
  | t :: rest =>
    match parseToken t with
    | none => .error i
    | some w =>
      match parseTokens (i + 1) rest with
      | .error j => .error j
      | .ok ws => .ok (w :: ws)

/-- The image of a program text, or the index of its first bad token (R305). -/
def parseText (t : List Char) : Except Nat (List Word) := parseTokens 0 (splitCommas t)

end Sys2Proof.Machine
end

