-- ==== Sys2Proof/Machine/Topology.lean ====
section
/-! DEFINITION. The three topologies and the host's LOAD and CONFIG (spec/60_exceptions.md R260, R280;
70_reset_and_hazards R300, R302, R305). Port names are numbers: `pin` is 0, `pout` is 1, `pj` is `j` (log 7). -/

namespace Sys2Proof.Machine

/-- How many ports a topology of `n` instances has (R260). -/
def Topo.portCount (topo : Topo) (n : Nat) : Nat :=
  match topo with
  | .single => 2
  | .pipeline => n + 1
  | .ring => n

/-- The producer of port `p` (R260). -/
def Topo.producer (topo : Topo) (n p : Nat) : Endpoint :=
  match topo with
  | .single | .pipeline => if p = 0 then .host else .inst (p - 1)
  | .ring => if p = 0 then .inst (n - 1) else .inst (p - 1)

/-- The consumer of port `p` (R260). -/
def Topo.consumer (topo : Topo) (n p : Nat) : Endpoint :=
  match topo with
  | .single => if p = 1 then .host else .inst p
  | .pipeline => if p = n then .host else .inst p
  | .ring => .inst p

/-- `IN_PORT(j)` (R260). -/
def Topo.inPort (topo : Topo) (j : Nat) : Nat :=
  match topo with
  | .single => 0
  | .pipeline | .ring => j

/-- `OUT_PORT(j)` (R260). -/
def Topo.outPort (topo : Topo) (n j : Nat) : Nat :=
  match topo with
  | .single => 1
  | .pipeline => j + 1
  | .ring => (j + 1) % n

/-- Binds instance `j` to its ports (R260, 10_state R26). -/
def Inst.bind (topo : Topo) (n j : Nat) (I : Inst) : Inst :=
  { I with inPort := topo.inPort j, outPort := topo.outPort n j }

/-- Port `p` as CONFIG makes it: its seeds in the queue, not closed (70_reset R302; log 24 for a port closed before). The
queue never exceeds the capacity (10_state R32): of seeds that do, which START refuses (60_exceptions R261), it holds the
first `CAP(p)` (log 15). A capacity that is not listed is `0`, a seed that is not listed is empty (log 8). -/
def makePort (topo : Topo) (n : Nat) (caps : List Nat) (seeds : List (List Word)) (p : Nat) : Port :=
  { q := (seeds.getD p []).take (caps.getD p 0), closed := false, cap := caps.getD p 0, seed := seeds.getD p []
    prod := topo.producer n p, cons := topo.consumer n p }

/-- Creates fresh instances until there are `n` (70_reset R300; log 9). -/
def State.padded (s : State) (n : Nat) : State :=
  { s with
    insts := s.insts ++ (List.range (n - s.insts.length)).map
      (fun j => Inst.fresh.bind s.topo s.nInst (s.insts.length + j)) }

/-- The instance LOAD leaves: reset with the image (R280, 70_reset R300), or, when it has already left IDLE and can
no longer be reset (10_state R24, 70_reset R301), only `IMAGE(k)` set (log 9). -/
def Inst.load (I : Inst) (ws : List Word) : Inst :=
  if I.status = .idle then
    { Inst.fresh with mem := Memory.ofImage 0 ws, image := ws, inPort := I.inPort, outPort := I.outPort }
  else { I with image := ws }

/-- `LOAD(k, image)` (R280): a malformed text faults the instance before start (70_reset R305). -/
def State.load (s : State) (k : Nat) (text : List Char) : State :=
  let s' := s.padded (k + 1)
  match parseText text with
  | .ok ws => s'.setInst k ((s'.inst k).load ws)
  | .error i => if (s'.inst k).status = .idle then s'.raise k (.malformedProgram i) else s'

/-- `CONFIG(topo, N, CAP, SEED)` (R280): the topology, its ports (70_reset R302) and the bindings (10_state R26). -/
def State.config (s : State) (topo : Topo) (n : Nat) (caps : List Nat) (seeds : List (List Word)) : State :=
  let s' := s.padded n
  { s' with
    topo := topo, nInst := n
    insts := s'.insts.mapIdx (fun j I => I.bind topo n j)
    ports := (List.range (topo.portCount n)).map (makePort topo n caps seeds) }

end Sys2Proof.Machine
end

