-- ==== Sys2Proof/Machine/Arbiter.lean ====
section
/-! DEFINITION. The topology composition and deadlock arbiter: the configuration check, the start, the check for an
unseeded cycle, deadlock detection and the ends of a run (spec/60_exceptions.md R261 to R272;
70_reset_and_hazards R308). -/

namespace Sys2Proof.Machine

/-! ### The configuration check -/

/-- Whether the image of an instance failed to load (R261, reason 1). -/
def Inst.loadFailed (I : Inst) : Bool :=
  match I.frec with
  | some r => r.kind == .malformedProgram
  | none => false

/-- How many ports satisfy `f`. -/
def State.countPorts (s : State) (f : Port → Bool) : Nat := (s.ports.filter f).length

/-- Whether instance `k` has exactly one input port and one output port, the ones it is bound to (R261, reason 3). -/
def State.instWired (s : State) (k : Nat) : Bool :=
  s.countPorts (fun P => P.cons == .inst k) == 1 && s.countPorts (fun P => P.prod == .inst k) == 1 &&
  (match s.port (s.inst k).inPort with | some P => P.cons == .inst k | none => false) &&
  (match s.port (s.inst k).outPort with | some P => P.prod == .inst k | none => false)

/-- Whether an endpoint exists: the host, or one of the `n` instances. -/
def Endpoint.exists (e : Endpoint) (n : Nat) : Bool :=
  match e with
  | .host => true
  | .inst k => decide (k < n)

/-- The identifiers of the system's instances. -/
def State.ids (s : State) : List Nat := List.range s.nInst

/-- The wiring part of the check (R261, reason 3). -/
def State.wiringOk (s : State) : Bool :=
  s.ids.all s.instWired && s.ports.all (fun P => P.prod.exists s.nInst && P.cons.exists s.nInst)

/-- The configuration check: the first failing reason, in order (R261). -/
def State.checkConfig (s : State) : Option ConfigReason :=
  if s.ids.any (fun k => (s.inst k).loadFailed) then some .loadFailed
  else if s.nInst < 1 then some .noInstances
  else if !s.wiringOk then some .badWiring
  else if s.ports.any (fun P => decide (P.cap < P.seed.length)) then some .seedExceedsCapacity
  else none

/-! ### The start -/

/-- The instance an unseeded output of instance `k` leads to: the edge of the wiring graph (R264). -/
def State.unseededEdge (s : State) (k : Nat) : Option Nat :=
  match s.ports.find? (fun P => P.prod == .inst k) with
  | some P =>
    match P.cons with
    | .inst j => if P.seed.isEmpty then some j else none
    | .host => none
  | none => none

/-- Whether there is a walk of `fuel` unseeded edges from instance `k`. -/
def State.unseededWalk (s : State) (fuel : Nat) (k : Nat) : Bool :=
  match fuel with
  | 0 => true
  | n + 1 =>
    match s.unseededEdge k with
    | some j => State.unseededWalk s n j
    | none => false

/-- Whether a wiring cycle has no seeded port (R264). Each instance has one output port, so a cycle exists exactly
when some walk is as long as there are instances (log 19). -/
def State.hasUnseededCycle (s : State) : Bool := s.ids.any (s.unseededWalk s.nInst)

/-- IDLE becomes RUNNING (R262). -/
def Inst.start (I : Inst) : Inst := if I.status = .idle then { I with status := .running } else I

/-- The start of every instance of the system (R262), with the check of R264. -/
def State.startAll (s : State) : State :=
  { s with
    started := true
    unseededCycle := s.hasUnseededCycle
    insts := s.insts.mapIdx (fun k I => if k < s.nInst then I.start else I) }

/-- The effect of the host's START (R261, R262, R280). -/
def State.start (s : State) : State :=
  match s.checkConfig with
  | some r => { s with configError := some r }
  | none => s.startAll

/-! ### The host's pending wait -/

/-- Whether every instance is terminated (R266). -/
def State.allTerminated (s : State) : Bool := s.ids.all (fun k => (s.inst k).terminated)

/-- Whether the host's pending wait can complete (R280). -/
def State.waitReady (s : State) : Bool :=
  match s.hmode with
  | .active => false
  | .waitPush p _ =>
    (match s.port p with | some P => hostPushes P | none => false) && s.pushHow p != .notReady
  | .waitPop p =>
    (match s.port p with | some P => s.hostPops P | none => false) && s.popHow p != .notReady
  | .join => s.allTerminated

/-- The statuses and fault records JOIN returns (R266). -/
def State.joinResult (s : State) : List (Status × Option FaultRecord) :=
  s.ids.map (fun k => ((s.inst k).status, (s.inst k).frec))

/-- The completion of the host's pending wait (R280). End of stream is a normal result for the host. -/
def State.completeWait (s : State) : State :=
  match s.hmode with
  | .active => s
  | .waitPush p v => (s.giveValue p .host v (s.pushHow p)).getD s
  | .waitPop p =>
    match s.popHow p with
    | .endOfStream => { s with hmode := .active, results := s.results ++ [.endOfStream p] }
    | how => (s.takeValue p .host how).getD s
  | .join => { s with hmode := .active, results := s.results ++ [.joined s.joinResult] }

/-! ### Deadlock -/

/-- The instances that are RUNNING. -/
def State.runningIds (s : State) : List Nat := s.ids.filter (fun k => (s.inst k).status == .running)

/-- Whether some instance has an enabled step. -/
def State.someCanStep (s : State) : Bool := s.ids.any s.canStep

/-- Whether the host waits for something that cannot complete (R270). -/
def State.hostBlocked (s : State) : Bool :=
  match s.hmode with
  | .active => false
  | .join => !s.runningIds.isEmpty
  | .waitPush _ _ | .waitPop _ => !s.waitReady

/-- The system is quiescent (R270). -/
def State.quiescent (s : State) : Bool := s.started && !s.someCanStep && s.hostBlocked

/-- The arbiter's one step: the deadlock is declared and ends the host's wait (R270; log 11 for the host's mode). -/
def State.declareDeadlock (s : State) : State :=
  { s with
    deadlock := some s.runningIds
    hmode := .active
    results := s.results ++ [.deadlock s.runningIds] }

/-! ### The ends of a run -/

/-- Whether every instance is HALTED. -/
def State.allHalted (s : State) : Bool := s.ids.all (fun k => (s.inst k).status == .halted)

/-- The outcome of the run, if it is over (70_reset R308; log 13 for the order). -/
def State.outcome (s : State) : Option RunOutcome :=
  if s.configError.isSome then some .configError
  else
    match s.deadlock with
    | some held => some (.deadlock held)
    | none =>
      if s.started && s.allHalted then some .success
      else if s.started && s.allTerminated then some .fault
      else none

/-- The number of a system outcome (60_exceptions R241). -/
def RunOutcome.code : RunOutcome → Option Nat
  | .deadlock _ => some 6
  | .configError => some 7
  | .success | .fault => none

end Sys2Proof.Machine
end

