-- ==== Sys2Proof/Machine/HostMoves.lean ====
section
/-! DEFINITION. The host's moves: when each is enabled and what it does (spec/60_exceptions.md R280 to R284). -/

namespace Sys2Proof.Machine

/-- Before the start and with no configuration error: LOAD, CONFIG and START are possible (R280). -/
def State.configurable (s : State) : Bool := !s.started && s.configError.isNone

/-- Whether a move is enabled: the second column of the table of R280 (R283 for the drain, R284 for MEMREAD).
The table names no `started` for PUSH, POP and CLOSE, and none is asked for: the host may make them before START (log 23). -/
def State.moveEnabled (s : State) (m : HostMove) : Bool :=
  match m with
  | .load _ _ => s.configurable
  | .config _ _ _ _ => s.configurable
  | .start => s.configurable && s.hmode == .active
  | .push p _ => s.hmode == .active && (match s.port p with | some P => hostPushes P && !P.closed | none => false)
  | .pop p => s.hmode == .active && (match s.port p with | some P => s.hostPops P | none => false)
  | .close p => s.hmode == .active && (match s.port p with | some P => hostPushes P | none => false)
  | .join => s.hmode == .active && s.started
  | .memRead k a => decide (k < s.nInst) && (s.inst k).terminated && decide (0 ≤ a.toInt)

/-- The effect of a move: the third column of the table of R280. -/
def State.makeMove (s : State) (m : HostMove) : State :=
  match m with
  | .load k text => s.load k text
  | .config topo n caps seeds => s.config topo n caps seeds
  | .start => s.start
  | .push p v => { s with hmode := .waitPush p v }
  | .pop p => { s with hmode := .waitPop p }
  | .close p => s.closePort p
  | .join => { s with hmode := .join }
  | .memRead k a => { s with results := s.results ++ [.word k a (Memory.read (s.inst k).mem a.toNat)] }

/-- Whether the host's next move is enabled. -/
def State.nextMoveEnabled (s : State) : Bool :=
  match s.moves with
  | [] => false
  | m :: _ => s.moveEnabled m

/-- The host makes its next move. -/
def State.nextMove (s : State) : State :=
  match s.moves with
  | [] => s
  | m :: rest => State.makeMove { s with moves := rest } m

end Sys2Proof.Machine
end

