-- ==== Sys2Proof/Machine/Scheduler.lean ====
section
/-! DEFINITION. Which agents have an enabled step, and which of them steps (spec/00_scope.md R11; 60_exceptions R286).
Any enabled agent may be next: `State.sched` names the choice, and where it does not, the choice is free (log 3). -/

namespace Sys2Proof.Machine

/-- Whether an agent has an enabled step: a RUNNING instance that is not held (41_port_io R148, R149), an enabled
host move or completion (60_exceptions R280), or the arbiter in a quiescent state without a deadlock (R270). -/
def State.agentEnabled (s : State) (a : Agent) : Bool :=
  match a with
  | .inst k => decide (k < s.nInst) && s.canStep k
  | .hostMove => s.nextMoveEnabled
  | .hostWait => s.waitReady
  | .arbiter => s.quiescent && s.deadlock.isNone

/-- The agents that have an enabled step. -/
def State.enabledAgents (s : State) : List Agent :=
  (s.ids.map Agent.inst ++ [Agent.hostMove, Agent.hostWait, Agent.arbiter]).filter s.agentEnabled

/-- The free choice among the enabled agents (93_implementation_defined U20). -/
def freeChoice (tick : Nat) (agents : List Agent) : Option Agent :=
  match agents with
  | [] => none
  | [a] => some a
  | a :: b :: rest => some ((a :: b :: rest).getD (Config.schedule tick % (rest.length + 2)) a)

/-- The agent that steps: the one the scheduler names, if it is enabled, and else a free choice. -/
def State.pick (s : State) : Option Agent :=
  match s.sched with
  | [] => freeChoice s.tick s.enabledAgents
  | a :: _ => if a ∈ s.enabledAgents then some a else freeChoice s.tick s.enabledAgents

/-- The state in which the picked agent steps: one scheduler choice is used up, and an instance that is picked is
the executing one. -/
def State.begin (s : State) (a : Agent) : State :=
  { s with
    sched := s.sched.tail
    tick := s.tick + 1
    cur := match a with | .inst k => k | .hostMove | .hostWait | .arbiter => s.cur }

/-- The move an ACTIVE host is at, which 60_exceptions R280 gives it no step for. -/
def State.refusedMove (s : State) : Option HostMove := if s.hmode = .active then s.moves.head? else none

/-- What `step` answers when no agent has an enabled step (log 12). -/
def State.stop (s : State) : Result :=
  match s.refusedMove with
  | some m => .refused (.hostMoveRefused m)
  | none =>
    match s.outcome with
    | some o => .fault (.runOver o)
    | none => .fault .stuck

end Sys2Proof.Machine
end

