-- ==== Sys2Proof/Machine/Boot.lean ====
section
/-! DEFINITION. How `State.withFetchWord` places one instruction so that the next step runs it (log 6). It stands for
a LOAD, a CONFIG and a START of the host. -/

namespace Sys2Proof.Machine

/-- Stores words from the cell of an address on; an address that is negative has no cell. -/
def storeWords (m : Memory) (a : Int) (ws : List Word) : Memory :=
  match ws with
  | [] => m
  | w :: t =>
    let here := (wrap64 a)
    storeWords (if here.toInt < 0 then m else Memory.write m here.toNat w) (a + 1) t

/-- Four words, the longest instruction (30_encoding R80), of a number whose bits count on from word to word. -/
def wordsOf (n : Nat) : List Word :=
  [BitVec.ofNat 64 n, BitVec.ofNat 64 (n >>> 64), BitVec.ofNat 64 (n >>> 128), BitVec.ofNat 64 (n >>> 192)]

/-- The executing instance RUNNING with the words at its program counter, and named by the scheduler. -/
def State.placeWords (s : State) (ws : List Word) : State :=
  let s' := s.padded (s.cur + 1)
  { s'.setInst s.cur
      { s'.self with mem := storeWords s'.self.mem s'.self.pc.toInt ws, status := .running } with
    nInst := max s.nInst (s.cur + 1), started := true, sched := [.inst s.cur] }

/-- Gives a port room for a value, or a value to read. -/
def Port.ready (P : Port) (q : List Word) : Port := { P with q := q, cap := max P.cap 1, closed := false }

/-- Replaces port `p` by its image under `f`, if it exists. -/
def State.mapPort (s : State) (p : Nat) (f : Port → Port) : State :=
  match s.port p with
  | some P => s.setPort p (f P)
  | none => s

/-- An instance that would be held has no step (41_port_io R148): where the placed instruction is an IN or OUT
that would be held, its port gets a word `0` to read, or room. -/
def State.unhold (s : State) : State :=
  if s.held s.cur then
    if s.self.inTarget.isSome then s.mapPort s.self.inPort (fun P => P.ready [0])
    else s.mapPort s.self.outPort (fun P => P.ready [])
  else s

end Sys2Proof.Machine
end

