-- ==== Sys2Proof/Machine/Arith.lean ====
section
/-! DEFINITION. ADD and MUL (spec/40_arithmetic.md), over the shared shape of the RRW format. -/

namespace Sys2Proof.Machine

/-- The instance after an RRW instruction that computes `f`: both values, then the destination, then the one write
and the advance (30_encoding R82, R92, R93; 20_memory R72). -/
def Inst.runRRW (I : Inst) (f : Word → Word → Word) (m0 m1 m2 : Mode) : Except Cause Inst := do
  let a ← I.readParam 0 m0
  let b ← I.readParam 1 m1
  let ea ← I.writeAddr 2 m2
  pure { I.advance 3 with mem := Memory.write I.mem ea (f a b) }

/-- The sum of two words, reduced (40_arithmetic R120, R121). -/
def addWord (a b : Word) : Word := wrap64 (a.toInt + b.toInt)

/-- The product of two words, reduced (40_arithmetic R120, R124). -/
def mulWord (a b : Word) : Word := wrap64 (a.toInt * b.toInt)

/-- ADD (40_arithmetic R121). -/
def execAdd (m0 m1 m2 : Mode) (s : State) : Result := .next (s.complete (s.self.runRRW addWord m0 m1 m2))

/-- MUL (40_arithmetic R124). -/
def execMul (m0 m1 m2 : Mode) (s : State) : Result := .next (s.complete (s.self.runRRW mulWord m0 m1 m2))

end Sys2Proof.Machine
end

