-- ==== Sys2Proof/Machine/Flags.lean ====
section
/-! DEFINITION. The hardware has no flags, condition codes or predicate registers (spec/10_state.md R29): a comparison
writes the word `1` or `0` to memory (43_compare R200) and a jump tests a parameter's value (42_jumps). This file holds
those comparisons. -/

namespace Sys2Proof.Machine

/-- The word a comparison writes (43_compare R200). -/
def boolWord (b : Bool) : Word := if b then 1 else 0

/-- `a < b` on signed values (43_compare R201, 00_scope R8). -/
def lessThan (a b : Word) : Bool := decide (a.toInt < b.toInt)

/-- `a == b` on signed values (43_compare R204, 00_scope R8). -/
def equalTo (a b : Word) : Bool := decide (a.toInt = b.toInt)

/-- Whether a jump condition is zero (42_jumps R181, R184). -/
def isZero (a : Word) : Bool := decide (a.toInt = 0)

end Sys2Proof.Machine
end

