-- ==== Sys2Proof/Machine/Compare.lean ====
section
/-! DEFINITION. LT and EQ (spec/43_compare.md). -/

namespace Sys2Proof.Machine

/-- LT (R201). -/
def execLt (m0 m1 m2 : Mode) (s : State) : Result :=
  .next (s.complete (s.self.runRRW (fun a b => boolWord (lessThan a b)) m0 m1 m2))

/-- EQ (R204). -/
def execEq (m0 m1 m2 : Mode) (s : State) : Result :=
  .next (s.complete (s.self.runRRW (fun a b => boolWord (equalTo a b)) m0 m1 m2))

end Sys2Proof.Machine
end

