-- ==== Sys2Proof/Machine/Halt.lean ====
section
/-! DEFINITION. HLT (spec/45_halt.md). -/

namespace Sys2Proof.Machine

/-- HLT (R231): the output port is closed, the instance is HALTED, and its `pc` stays at the HLT. -/
def execHlt (s : State) : Result :=
  .next ((s.closePort s.self.outPort).setInst s.cur { s.self with status := .halted })

end Sys2Proof.Machine
end

