-- ==== Sys2Proof/Machine/Jumps.lean ====
section
/-! DEFINITION. JT and JF (spec/42_jumps.md). -/

namespace Sys2Proof.Machine

/-- The instance after a conditional jump: both parameters are evaluated, taken or not (R180); a taken jump writes
its target, whatever its sign (R186). -/
def Inst.runJump (I : Inst) (taken : Word → Bool) (m0 m1 : Mode) : Except Cause Inst := do
  let a ← I.readParam 0 m0
  let b ← I.readParam 1 m1
  pure (if taken a then { I with pc := b } else I.advance 2)

/-- JT (R181). -/
def execJt (m0 m1 : Mode) (s : State) : Result := .next (s.complete (s.self.runJump (fun a => !isZero a) m0 m1))

/-- JF (R184). -/
def execJf (m0 m1 : Mode) (s : State) : Result := .next (s.complete (s.self.runJump isZero m0 m1))

end Sys2Proof.Machine
end

