-- ==== Sys2Proof/Machine/RelBase.lean ====
section
/-! DEFINITION. ARB (spec/44_relative_base.md). -/

namespace Sys2Proof.Machine

/-- The instance after ARB: the operand is read through the old relative base (R221). -/
def Inst.runArb (I : Inst) (m0 : Mode) : Except Cause Inst := do
  let a ← I.readParam 0 m0
  pure { I.advance 1 with rb := wrap64 (I.rb.toInt + a.toInt) }

/-- ARB (R221). -/
def execArb (m0 : Mode) (s : State) : Result := .next (s.complete (s.self.runArb m0))

end Sys2Proof.Machine
end

