-- ==== Sys2Proof/Machine/Dispatch.lean ====
section
/-! DEFINITION. One arm per instruction, executed by the instance `State.cur` (spec/30_encoding.md R94, R96). -/

namespace Sys2Proof.Machine

def exec (i : Instr) (s : State) : Host.Outcome State Fault Refusal :=
  match i with
  | .add m0 m1 m2 => Sys2Proof.Machine.execAdd m0 m1 m2 s
  | .mul m0 m1 m2 => Sys2Proof.Machine.execMul m0 m1 m2 s
  | .inp m0 _ _ => Sys2Proof.Machine.execIn m0 s
  | .out m0 _ _ => Sys2Proof.Machine.execOut m0 s
  | .jt m0 m1 _ => Sys2Proof.Machine.execJt m0 m1 s
  | .jf m0 m1 _ => Sys2Proof.Machine.execJf m0 m1 s
  | .lt m0 m1 m2 => Sys2Proof.Machine.execLt m0 m1 m2 s
  | .eq m0 m1 m2 => Sys2Proof.Machine.execEq m0 m1 m2 s
  | .arb m0 _ _ => Sys2Proof.Machine.execArb m0 s
  | .hlt _ _ _ => Sys2Proof.Machine.execHlt s

end Sys2Proof.Machine
end

