-- ==== Sys2Proof/Machine/Step.lean ====
section
/-! DEFINITION. One step of the system: one agent that has an enabled step takes it (spec/00_scope.md R11;
30_encoding R94). -/

namespace Sys2Proof.Machine

/-- The step of an agent, in the state `State.begin` makes for it. -/
def stepAgent (a : Agent) (s : State) : Result :=
  match a with
  | .inst k =>
    match (s.inst k).fetchInstr with
    | .error c => .next (s.raise k c)
    | .ok i => exec i s
  | .hostMove => .next s.nextMove
  | .hostWait => .next s.completeWait
  | .arbiter => .next s.declareDeadlock

/-- One step: `pick` chooses an enabled agent; with none, the machine stops by name. -/
def step (s : State) : Host.Outcome State Fault Refusal :=
  match s.pick with
  | none => s.stop
  | some a => stepAgent a (s.begin a)

/-- `s` with the instruction of the number `w % 2^nbits` stored where the executing instance fetches next, that
instance RUNNING and named by the scheduler, and its port made ready if it would be held (log 6). -/
def State.withFetchWord (s : State) (nbits w : Nat) : State := (s.placeWords (wordsOf (w % 2 ^ nbits))).unhold

end Sys2Proof.Machine
end

