-- ==== Sys2Proof/Machine/Assembler.lean ====
section
/-! DEFINITION. The spec's own notation for programs and its pseudo-instructions, as a function from syntax to words
(spec/30_encoding.md R100, R101). -/

namespace Sys2Proof.Machine

/-- `n`: a signed number or a label (R100). -/
inductive AsmNumber where
  | number (n : Word)
  | label (name : List Char)
  deriving DecidableEq, Repr

/-- An operand: `[n]`, `#n`, `[rb+n]` or `[rb-n]` (R100). -/
inductive AsmOperand where
  | position (n : AsmNumber)
  | immediate (n : AsmNumber)
  | relPlus (n : AsmNumber)
  | relMinus (n : AsmNumber)
  deriving DecidableEq, Repr

/-- A line: a label, an instruction, `DATA`, or one of the pseudo-instructions `JMP t`, `MOV s, d`, `NOP`
(R100, R101). -/
inductive AsmLine where
  | label (name : List Char)
  | instr (op : Op) (operands : List AsmOperand)
  | data (ws : List Word)
  | jmp (t : AsmOperand)
  | mov (src dst : AsmOperand)
  | nop
  deriving DecidableEq, Repr

/-- The immediate operand of a number. -/
def AsmOperand.ofWord (n : Word) : AsmOperand := .immediate (.number n)

/-- The expansion of a pseudo-instruction (R101). -/
def AsmLine.expand (l : AsmLine) : AsmLine :=
  match l with
  | .jmp t => .instr .jt [.ofWord 1, t]
  | .mov src dst => .instr .add [src, .ofWord 0, dst]
  | .nop => .instr .jf [.ofWord 1, .ofWord 0]
  | .label name => .label name
  | .instr op operands => .instr op operands
  | .data ws => .data ws

/-- The mode of an operand (R100). -/
def AsmOperand.mode : AsmOperand → Mode
  | .position _ => .position
  | .immediate _ => .immediate
  | .relPlus _ | .relMinus _ => .relative

/-- The word of a number, with the labels' addresses; an undefined label has none (log 18). -/
def AsmNumber.word (labels : List (List Char × Word)) (n : AsmNumber) : Option Word :=
  match n with
  | .number v => some v
  | .label name => labels.lookup name

/-- The parameter word of an operand (R100). -/
def AsmOperand.word (labels : List (List Char × Word)) (o : AsmOperand) : Option Word :=
  match o with
  | .position n | .immediate n | .relPlus n => n.word labels
  | .relMinus n => (n.word labels).map (fun v => wrap64 (-v.toInt))

/-- The mode of operand `i`, position (digit 0) where there is none (R100). -/
def operandMode (operands : List AsmOperand) (i : Nat) : Mode :=
  match operands[i]? with
  | some o => o.mode
  | none => .position

/-- The words of a line (R100): an instruction takes exactly `NPARAM` operands (log 18). -/
def AsmLine.words (labels : List (List Char × Word)) (l : AsmLine) : Option (List Word) :=
  match l.expand with
  | .instr op operands =>
    if operands.length = op.nparam then
      (operands.mapM (AsmOperand.word labels)).map (fun ps =>
        encode (op.toInstr (operandMode operands 0) (operandMode operands 1) (operandMode operands 2)) :: ps)
    else none
  | .data ws => some ws
  | .label _ | .jmp _ | .mov _ _ | .nop => some []

/-- How many words a line takes (R80, R100). -/
def AsmLine.size (l : AsmLine) : Nat :=
  match l.expand with
  | .instr op _ => 1 + op.nparam
  | .data ws => ws.length
  | .label _ | .jmp _ | .mov _ _ | .nop => 0

/-- The address each label stands for: that of the next word (R100), from address `a` on. -/
def labelTable (a : Nat) (ls : List AsmLine) : List (List Char × Word) :=
  match ls with
  | [] => []
  | .label name :: t => (name, wrap64 a) :: labelTable a t
  | .instr op operands :: t => labelTable (a + (AsmLine.instr op operands).size) t
  | .data ws :: t => labelTable (a + (AsmLine.data ws).size) t
  | .jmp o :: t => labelTable (a + (AsmLine.jmp o).size) t
  | .mov src dst :: t => labelTable (a + (AsmLine.mov src dst).size) t
  | .nop :: t => labelTable (a + AsmLine.nop.size) t

/-- The image of a program in the spec's notation (R100). -/
def assemble (ls : List AsmLine) : Option (List Word) :=
  (ls.mapM (AsmLine.words (labelTable 0 ls))).map List.flatten

end Sys2Proof.Machine
end

