-- ==== Sys2Proof/Safety.lean ====
section
/-! DEFINITION. What claims about the machine are stated in: runs and weak fairness, the invariants of the spec, and
the relations that say what a step leaves unchanged. -/

namespace Sys2Proof.Machine

/-- The next state of a result, if it has one. -/
def nextState? (r : Result) : Option State :=
  match r with
  | .next t => some t
  | .fault _ => none
  | .refused _ => none

/-! ### Runs -/

/-- An infinite run of the machine. -/
def IsRun (r : Nat → State) : Prop := ∀ n, step (r n) = .next (r (n + 1))

/-- Weak fairness (60_exceptions R286): an agent whose step stays enabled eventually takes it. -/
def WeaklyFair (r : Nat → State) : Prop :=
  ∀ a n, (∀ m, n ≤ m → (r m).agentEnabled a = true) → ∃ m, n ≤ m ∧ (r m).pick = some a

/-- The step is the host's CONFIG, which makes the ports anew (70_reset R306, step 2; log 24). -/
def ConfigStep (s : State) : Prop :=
  s.pick = some .hostMove ∧ ∃ topo n caps seeds, s.moves.head? = some (.config topo n caps seeds)

/-! ### Invariants -/

/-- Every instance's memory is in canonical form (20_memory R61, R65). -/
def MemoryCanonical (s : State) : Prop := ∀ I ∈ s.insts, Memory.wf I.mem = true

/-- No queue is longer than its port's capacity (10_state R32). -/
def QueuesBounded (s : State) : Prop := ∀ P ∈ s.ports, P.q.length ≤ P.cap

/-- An instance has a fault record exactly when it is FAULTED, and the record names the instance (10_state R25,
60_exceptions R243, R244). -/
def FaultsRecorded (s : State) : Prop :=
  ∀ (k : Nat) (I : Inst), s.insts[k]? = some I →
    (I.frec.isSome = true ↔ I.status = .faulted) ∧ ∀ r : FaultRecord, I.frec = some r → r.inst = k

/-- The ports and the bindings are those of the topology (60_exceptions R260). -/
def Wired (s : State) : Prop :=
  s.ports.length = s.topo.portCount s.nInst ∧ s.nInst ≤ s.insts.length ∧
  (∀ (p : Nat) (P : Port), s.ports[p]? = some P → P.prod = s.topo.producer s.nInst p ∧ P.cons = s.topo.consumer s.nInst p) ∧
  (∀ (k : Nat) (I : Inst), s.insts[k]? = some I → I.inPort = s.topo.inPort k ∧ I.outPort = s.topo.outPort s.nInst k)

/-- Each instance has exactly one input port and one output port, the ones it is bound to, and the endpoints of every port
exist (60_exceptions R261, reason 3). -/
def EachInstanceWired (s : State) : Prop :=
  (∀ k, k < s.nInst →
    (∃ P, s.port (s.inst k).inPort = some P ∧ P.cons = .inst k) ∧
    (∃ P, s.port (s.inst k).outPort = some P ∧ P.prod = .inst k) ∧
    (∀ p P, s.port p = some P → P.cons = .inst k → p = (s.inst k).inPort) ∧
    (∀ p P, s.port p = some P → P.prod = .inst k → p = (s.inst k).outPort)) ∧
  ∀ p P, s.port p = some P → ∀ k, P.prod = .inst k ∨ P.cons = .inst k → k < s.nInst

/-- What holds of the statuses around the start (10_state R24; 60_exceptions R261, R262): after it the topology fits
the number of instances and none is IDLE; only a started system's instance is RUNNING or HALTED. -/
def StartConsistent (s : State) : Prop :=
  (s.started = true →
    1 ≤ s.nInst ∧ (s.topo = .single → s.nInst = 1) ∧ ∀ k, k < s.nInst → (s.inst k).status ≠ .idle) ∧
  (∀ (k : Nat) (I : Inst), s.insts[k]? = some I → I.status = .running ∨ I.status = .halted → s.started = true ∧ k < s.nInst)

/-- The producer of a closed port pushes no more: an instance is HALTED, the host does not wait to push
(10_state R32, 41_port_io R143). -/
def ClosedPortsQuiet (s : State) : Prop :=
  ∀ (p : Nat) (P : Port), s.ports[p]? = some P → P.closed = true →
    (∀ k, P.prod = .inst k → (s.inst k).status = .halted) ∧ (P.prod = .host → ∀ v, s.hmode ≠ .waitPush p v)

/-- The invariants of the wiring, the start and the closed ports together. -/
def SystemInv (s : State) : Prop := Wired s ∧ StartConsistent s ∧ ClosedPortsQuiet s

/-! ### What is left unchanged -/

/-- The state of the arbiter, the inputs and the scheduler is the same. -/
structure SameSystem (s t : State) : Prop where
  topo : t.topo = s.topo
  nInst : t.nInst = s.nInst
  started : t.started = s.started
  unseededCycle : t.unseededCycle = s.unseededCycle
  configError : t.configError = s.configError
  deadlock : t.deadlock = s.deadlock
  moves : t.moves = s.moves
  cur : t.cur = s.cur
  sched : t.sched = s.sched
  tick : t.tick = s.tick

/-- The host is the same. -/
structure SameHost (s t : State) : Prop where
  hmode : t.hmode = s.hmode
  results : t.results = s.results

/-- An instance's constants are the same: its image and its bindings (10_state R26). -/
structure SameBindings (I J : Inst) : Prop where
  image : J.image = I.image
  inPort : J.inPort = I.inPort
  outPort : J.outPort = I.outPort

/-- A port's constants are the same (10_state R31). -/
structure SamePortParams (P Q : Port) : Prop where
  cap : Q.cap = P.cap
  seed : Q.seed = P.seed
  prod : Q.prod = P.prod
  cons : Q.cons = P.cons

/-- The encoding of an instruction, as its rule gives it: the format, the length in words, the instruction word, and
the condition under which its modes are legal. -/
def EncodedAs (i : Instr) (format : Format) (words : Nat) (code : Int) (legal : Prop) : Prop :=
  i.op.format = format ∧ i.length = words ∧
    (encode i).toInt = code + 100 * i.m0.toDigit + 1000 * i.m1.toDigit + 10000 * i.m2.toDigit ∧
    (i.wellFormed = true ↔ legal)

/-- The rule of an RRW instruction (40_arithmetic R121, the template of 40 to 45): the faults of parameters 0, 1 and 2 in
that order, and otherwise `result a b` written to the destination and `pc` moved past four words. -/
def RuleRRW (i : Instr) (m0 m1 m2 : Mode) (result : Word → Word → Word) : Prop :=
  ∀ s : State,
    (∀ c, s.self.readParam 0 m0 = .error c → exec i s = .next (s.raise s.cur c)) ∧
    (∀ a c, s.self.readParam 0 m0 = .ok a → s.self.readParam 1 m1 = .error c →
      exec i s = .next (s.raise s.cur c)) ∧
    (∀ a b c, s.self.readParam 0 m0 = .ok a → s.self.readParam 1 m1 = .ok b → s.self.writeAddr 2 m2 = .error c →
      exec i s = .next (s.raise s.cur c)) ∧
    (∀ a b ea, s.self.readParam 0 m0 = .ok a → s.self.readParam 1 m1 = .ok b → s.self.writeAddr 2 m2 = .ok ea →
      exec i s = .next (s.setInst s.cur
        { s.self with mem := Memory.write s.self.mem ea (result a b), pc := wrap64 (s.self.pc.toInt + 4) }))

/-- The rule of a conditional jump (42_jumps R181, R184): the faults of parameters 0 and 1 in that order, and otherwise
`pc` at the target when `taken a`, past three words when not. -/
def RuleJump (i : Instr) (m0 m1 : Mode) (taken : Word → Prop) : Prop :=
  ∀ s : State,
    (∀ c, s.self.readParam 0 m0 = .error c → exec i s = .next (s.raise s.cur c)) ∧
    (∀ a c, s.self.readParam 0 m0 = .ok a → s.self.readParam 1 m1 = .error c →
      exec i s = .next (s.raise s.cur c)) ∧
    (∀ a b, s.self.readParam 0 m0 = .ok a → s.self.readParam 1 m1 = .ok b →
      (taken a → exec i s = .next (s.setInst s.cur { s.self with pc := b })) ∧
      (¬ taken a → exec i s = .next (s.setInst s.cur { s.self with pc := wrap64 (s.self.pc.toInt + 3) })))

/-- The instance is at an IN instruction whose destination is `ea` (41_port_io R140). -/
def AtIn (I : Inst) (ea : Nat) : Prop :=
  0 ≤ I.pc.toInt ∧
    ∃ m0 m1 m2, decode (Memory.read I.mem I.pc.toNat) = .ok (.inp m0 m1 m2) ∧ I.writeAddr 0 m0 = .ok ea

/-- The instance is at an OUT instruction whose value is `v` (41_port_io R140). -/
def AtOut (I : Inst) (v : Word) : Prop :=
  0 ≤ I.pc.toInt ∧
    ∃ m0 m1 m2, decode (Memory.read I.mem I.pc.toNat) = .ok (.out m0 m1 m2) ∧ I.readParam 0 m0 = .ok v

/-- An unbuffered self-loop whose one instance is at an IN or OUT on it (41_port_io R155). -/
structure LoopStuck (s : State) (k p : Nat) : Prop where
  wired : Wired s
  started : s.started = true
  loop : ∃ P, s.port p = some P ∧ P.prod = .inst k ∧ P.cons = .inst k ∧ P.cap = 0 ∧ P.closed = false ∧ P.q = []
  running : (s.inst k).status = .running
  bound : (s.inst k).inPort = p ∧ (s.inst k).outPort = p
  waits : (∃ ea, AtIn (s.inst k) ea) ∨ ∃ v, AtOut (s.inst k) v

/-- What a fault leaves of an instance (60_exceptions R243): everything but the status and the record. -/
structure SameButFault (I J : Inst) : Prop where
  pc : J.pc = I.pc
  rb : J.rb = I.rb
  mem : J.mem = I.mem
  bindings : SameBindings I J

/-- The number of a list of decimal digits. -/
def decimalValue (ds : List Char) : Nat := ds.foldl (fun acc c => 10 * acc + (c.toNat - 48)) 0

end Sys2Proof.Machine
end

