-- ==== Sys2Proof/Certificates/Slice0/Obligations.lean ====
section
/-! DEFINITION. The statements for the provers, from the spec's numbered rules. Each docstring names the rule. -/

open Sys2Proof Sys2Proof.Machine

/-! ### Decode and encode -/

/-- R86 with R95 (30_encoding): the checks of decode in their order, for every word; every negative word and the corner
cases `0` and `100` raise UnknownOpcode. -/
def Obligations.DecodeFollowsTheChecks : Prop :=
  decode 0 = .error (.unknownOpcode 0) ∧ decode 100 = .error (.unknownOpcode 0) ∧
  ∀ w : Word,
    (w.toInt < 0 → decode w = .error (.unknownOpcode (wrap64 (trem w.toInt 100)))) ∧
    ((∀ op : Op, trem w.toInt 100 ≠ op.code) → decode w = .error (.unknownOpcode (wrap64 (trem w.toInt 100)))) ∧
    ∀ op : Op, trem w.toInt 100 = op.code →
      (∀ i, i < 3 → (∀ j, j < i → ∃ m : Mode, digit w (2 + j) = m.toDigit) →
        (∀ m : Mode, digit w (2 + i) ≠ m.toDigit) → decode w = .error (.invalidAddressingMode w i)) ∧
      ∀ m0 m1 m2 : Mode, digit w 2 = m0.toDigit → digit w 3 = m1.toDigit → digit w 4 = m2.toDigit →
        (∀ i, op.writeTarget = some i → [m0, m1, m2][i]? = some .immediate →
          decode w = .error (.invalidAddressingMode w i)) ∧
        ((∀ i, op.writeTarget = some i → [m0, m1, m2][i]? ≠ some .immediate) →
          decode w = .ok (op.toInstr m0 m1 m2))

/-- R97, R100 (30_encoding): a word decodes to an instruction exactly when the instruction is well-formed, the word is not
negative, and its five low digits are the instruction's encoding; the digits of weight `10^5` and above are ignored. -/
def Obligations.DecodeInvertsEncode : Prop :=
  ∀ (w : Word) (i : Instr),
    decode w = .ok i ↔ i.wellFormed = true ∧ 0 ≤ w.toInt ∧ w.toInt % 100000 = (encode i).toInt

/-- R99 (30_encoding) and words of spec/95_test_vectors.md V-L2-DEC, one per opcode. -/
def Obligations.WorkedDecodeExamples : Prop :=
  decode 1101 = .ok (.add .immediate .immediate .position) ∧
  decode 99 = .ok (.hlt .position .position .position) ∧
  decode 1002 = .ok (.mul .position .immediate .position) ∧
  decode 203 = .ok (.inp .relative .position .position) ∧
  decode 1104 = .ok (.out .immediate .immediate .position) ∧
  decode 2105 = .ok (.jt .immediate .relative .position) ∧
  decode 1006 = .ok (.jf .position .immediate .position) ∧
  decode 1107 = .ok (.lt .immediate .immediate .position) ∧
  decode 1008 = .ok (.eq .position .immediate .position) ∧
  decode 109 = .ok (.arb .immediate .position .position)

/-- R100 (30_encoding): a line of the spec's notation assembles to the word `op + 100*m0 + 1000*m1 + 10000*m2`, with the
digits of absent parameters `0`, and its parameter words, and that word decodes to the line's instruction. -/
def Obligations.AssembledLineDecodes : Prop :=
  ∀ (op : Op) (operands : List AsmOperand) (labels : List (List Char × Word)) (ps : List Word),
    operands.length = op.nparam → operands.mapM (AsmOperand.word labels) = some ps →
    ∃ w : Word, (AsmLine.instr op operands).words labels = some (w :: ps) ∧ ps.length = op.nparam ∧
      w.toInt = op.code + 100 * (operandMode operands 0).toDigit + 1000 * (operandMode operands 1).toDigit +
        10000 * (operandMode operands 2).toDigit ∧
      ((∀ i, op.writeTarget = some i → operandMode operands i ≠ .immediate) →
        decode w = .ok (op.toInstr (operandMode operands 0) (operandMode operands 1) (operandMode operands 2)))

/-- R101 (30_encoding): the pseudo-instructions and their words. -/
def Obligations.PseudoInstructionWords : Prop :=
  ∀ (labels : List (List Char × Word)) (n : Word) (t src dst : AsmOperand),
    (AsmLine.jmp t).words labels = (AsmLine.instr .jt [.immediate (.number 1), t]).words labels ∧
    (AsmLine.jmp (.immediate (.number n))).words labels = some [1105, 1, n] ∧
    (AsmLine.jmp (.position (.number n))).words labels = some [105, 1, n] ∧
    (AsmLine.mov src dst).words labels = (AsmLine.instr .add [src, .immediate (.number 0), dst]).words labels ∧
    (AsmLine.mov (.position (.number 10)) (.position (.number 11))).words labels = some [1001, 10, 0, 11] ∧
    AsmLine.nop.words labels = some [1106, 1, 0]

/-! ### Steps and scheduling -/

/-- R94 with R85 and R86 (30_encoding): the step of a picked instance, which is RUNNING, fetches the word at `pc`, decodes
it and dispatches it, in the state `s.begin (.inst k)`, which differs from `s` in the scheduler's fields and in the
executing instance only (log 3, the model's own fields); a negative `pc` and a decode fault end the instance. -/
def Obligations.StepFetchesDecodesDispatches : Prop :=
  ∀ (s : State) (k : Nat), s.pick = some (.inst k) →
    (s.inst k).status = .running ∧
    s.begin (.inst k) = { s with cur := k, sched := s.sched.tail, tick := s.tick + 1 } ∧
    ((s.inst k).pc.toInt < 0 →
      step s = .next ((s.begin (.inst k)).raise k (.negativeAddress (s.inst k).pc none))) ∧
    (0 ≤ (s.inst k).pc.toInt →
      (∀ v, decode (Memory.read (s.inst k).mem (s.inst k).pc.toNat) = .error (.unknownOpcode v) →
        step s = .next ((s.begin (.inst k)).raise k (.unknownOpcode v))) ∧
      (∀ w i, decode (Memory.read (s.inst k).mem (s.inst k).pc.toNat) = .error (.invalidAddressingMode w i) →
        step s = .next ((s.begin (.inst k)).raise k (.invalidAddressingMode w i))) ∧
      (∀ i, decode (Memory.read (s.inst k).mem (s.inst k).pc.toNat) = .ok i →
        step s = exec i (s.begin (.inst k))))

/-- R11 (00_scope), R286 (60_exceptions): only an agent with an enabled step is picked, any such agent can be picked, and
the machine stops only where there is none. -/
def Obligations.AnyEnabledAgentMayStep : Prop :=
  ∀ s : State,
    (∀ a, s.pick = some a → s.agentEnabled a = true) ∧
    (∀ a, s.agentEnabled a = true → State.pick { s with sched := a :: s.sched } = some a) ∧
    ((∀ t, step s ≠ .next t) ↔ ∀ a, s.agentEnabled a = false)

/-- R24 (10_state) with R148 and R149 (41_port_io): an instance has an enabled step exactly when it is RUNNING and not
held; it is held exactly when it is RUNNING and at an IN whose pop is not ready or at an OUT whose push is not ready. -/
def Obligations.OnlyPortInstructionsHold : Prop :=
  ∀ (s : State) (k : Nat), k < s.nInst →
    (s.agentEnabled (.inst k) = true ↔ (s.inst k).status = .running ∧ s.held k = false) ∧
    (s.held k = true ↔ (s.inst k).status = .running ∧
      ((∃ ea, AtIn (s.inst k) ea ∧ s.popHow (s.inst k).inPort = .notReady) ∨
       (∃ v, AtOut (s.inst k) v ∧ s.pushHow (s.inst k).outPort = .notReady)))

/-! ### Faults -/

/-- R243, R241 and R244 (60_exceptions): a fault writes the record and the status of its instance and nothing else, and the
output port is not closed; what the record of each fault holds, and the codes. -/
def Obligations.FaultEntry : Prop :=
  (∀ (s : State) (k : Nat) (c : Cause), k < s.insts.length →
     ((s.raise k c).inst k).frec = some (c.toRecord (s.inst k).pc k) ∧
     ((s.raise k c).inst k).status = .faulted ∧
     SameButFault (s.inst k) ((s.raise k c).inst k) ∧
     (∀ j, j ≠ k → (s.raise k c).inst j = s.inst j) ∧
     (s.raise k c).ports = s.ports ∧ SameSystem s (s.raise k c) ∧ SameHost s (s.raise k c)) ∧
  (∀ (token k : Nat) (pc : Word), (Cause.malformedProgram token).toRecord pc k =
      { kind := .malformedProgram, pc := none, value := wrap64 token, param := none, port := none, inst := k }) ∧
  (∀ (v pc : Word) (k : Nat), (Cause.unknownOpcode v).toRecord pc k =
      { kind := .unknownOpcode, pc := some pc, value := v, param := none, port := none, inst := k }) ∧
  (∀ (w pc : Word) (i k : Nat), (Cause.invalidAddressingMode w i).toRecord pc k =
      { kind := .invalidAddressingMode, pc := some pc, value := w, param := some i, port := none, inst := k }) ∧
  (∀ (a pc : Word) (i : Option Nat) (k : Nat), (Cause.negativeAddress a i).toRecord pc k =
      { kind := .negativeAddress, pc := some pc, value := a, param := i, port := none, inst := k }) ∧
  (∀ (p k : Nat) (pc : Word), (Cause.inputEndOfStream p).toRecord pc k =
      { kind := .inputEndOfStream, pc := some pc, value := 0, param := none, port := some p, inst := k }) ∧
  [FaultKind.malformedProgram, .unknownOpcode, .invalidAddressingMode, .negativeAddress, .inputEndOfStream].map
    FaultKind.code = [1, 2, 3, 4, 5] ∧
  (∀ held, (RunOutcome.deadlock held).code = some 6) ∧ RunOutcome.configError.code = some 7

/-- R245 (60_exceptions): a fault that a step of an instance raises is precise: its memory, `rb` and `pc` are as before,
no port and no other instance has changed, and `frec.pc` is the instruction's address. -/
def Obligations.FaultsArePrecise : Prop :=
  ∀ (s t : State) (k : Nat), s.pick = some (.inst k) → step s = .next t → (t.inst k).status = .faulted →
    SameButFault (s.inst k) (t.inst k) ∧ t.ports = s.ports ∧ (∀ j, j ≠ k → t.inst j = s.inst j) ∧
      SameHost s t ∧ ∃ r, (t.inst k).frec = some r ∧ r.pc = some (s.inst k).pc ∧ r.inst = k

/-! ### Operands and memory -/

/-- R90 and R91, with R83, R88 and R89 (30_encoding): the value of a read parameter in each mode, the destination of a
write-target parameter in the two modes it may have, and their faults. -/
def Obligations.ParametersByMode : Prop :=
  (∀ (I : Inst) (i : Nat) (at_ raw : Word), at_ = wrap64 (I.pc.toInt + 1 + i) → raw = Memory.read I.mem at_.toNat →
     (at_.toInt < 0 → ∀ m, I.readParam i m = .error (.negativeAddress at_ (some i))) ∧
     (0 ≤ at_.toInt →
       I.readParam i .immediate = .ok raw ∧
       (0 ≤ raw.toInt → I.readParam i .position = .ok (Memory.read I.mem raw.toNat)) ∧
       (raw.toInt < 0 → I.readParam i .position = .error (.negativeAddress raw (some i))) ∧
       (0 ≤ (wrap64 (I.rb.toInt + raw.toInt)).toInt →
         I.readParam i .relative = .ok (Memory.read I.mem (wrap64 (I.rb.toInt + raw.toInt)).toNat)) ∧
       ((wrap64 (I.rb.toInt + raw.toInt)).toInt < 0 →
         I.readParam i .relative = .error (.negativeAddress (wrap64 (I.rb.toInt + raw.toInt)) (some i))))) ∧
  (∀ (I : Inst) (i : Nat) (at_ raw : Word), at_ = wrap64 (I.pc.toInt + 1 + i) → raw = Memory.read I.mem at_.toNat →
     (at_.toInt < 0 → ∀ m, I.writeAddr i m = .error (.negativeAddress at_ (some i))) ∧
     (0 ≤ at_.toInt →
       (0 ≤ raw.toInt → I.writeAddr i .position = .ok raw.toNat) ∧
       (raw.toInt < 0 → I.writeAddr i .position = .error (.negativeAddress raw (some i))) ∧
       (0 ≤ (wrap64 (I.rb.toInt + raw.toInt)).toInt →
         I.writeAddr i .relative = .ok (wrap64 (I.rb.toInt + raw.toInt)).toNat) ∧
       ((wrap64 (I.rb.toInt + raw.toInt)).toInt < 0 →
         I.writeAddr i .relative = .error (.negativeAddress (wrap64 (I.rb.toInt + raw.toInt)) (some i)))))

/-- R62, R63, R64 and R66 (20_memory): a read gives the last word written at its address, a write changes no other
address, a negative address is the only fault of a read (`memRead`) and of the address check before a write
(`checkAddress`), and an image is the initial contents, with `0` elsewhere. -/
def Obligations.MemoryReadsWhatWasWritten : Prop :=
  (∀ (m : Memory) (a b : Nat) (v : Word),
    Memory.read (Memory.write m a v) b = if b = a then v else Memory.read m b) ∧
  (∀ a, Memory.read [] a = 0) ∧
  (∀ (I : Inst) (param : Option Nat) (a : Word),
    (a.toInt < 0 → I.memRead param a = .error (.negativeAddress a param) ∧
      checkAddress param a = .error (.negativeAddress a param)) ∧
    (0 ≤ a.toInt → I.memRead param a = .ok (Memory.read I.mem a.toNat) ∧ checkAddress param a = .ok a.toNat)) ∧
  (∀ (ws : List Word) (a : Nat), a ≤ Config.addrMax →
     Memory.read (Memory.ofImage 0 ws) a = ws.getD a 0 ∧ Memory.wf (Memory.ofImage 0 ws) = true)

/-- R65 (20_memory): memory is exactly the function from address to word: two canonical memories that read the same are
the same, and writing what is already there changes nothing. -/
def Obligations.MemoryIsWhatItReads : Prop :=
  (∀ m m' : Memory, Memory.wf m = true → Memory.wf m' = true →
    (∀ a, a ≤ Config.addrMax → Memory.read m a = Memory.read m' a) → m = m') ∧
  (∀ (m : Memory) (a : Nat), Memory.wf m = true → a ≤ Config.addrMax → Memory.write m a (Memory.read m a) = m)

/-! ### The instructions -/

/-- R121 (40_arithmetic). -/
def Obligations.AddResult : Prop :=
  ∀ m0 m1 m2 : Mode, EncodedAs (.add m0 m1 m2) .rrw 4 1 (m2 ≠ .immediate) ∧
    RuleRRW (.add m0 m1 m2) m0 m1 m2 (fun a b => wrap64 (a.toInt + b.toInt))

/-- R124 (40_arithmetic). -/
def Obligations.MulResult : Prop :=
  ∀ m0 m1 m2 : Mode, EncodedAs (.mul m0 m1 m2) .rrw 4 2 (m2 ≠ .immediate) ∧
    RuleRRW (.mul m0 m1 m2) m0 m1 m2 (fun a b => wrap64 (a.toInt * b.toInt))

/-- R201 (43_compare). -/
def Obligations.LtResult : Prop :=
  ∀ m0 m1 m2 : Mode, EncodedAs (.lt m0 m1 m2) .rrw 4 7 (m2 ≠ .immediate) ∧
    RuleRRW (.lt m0 m1 m2) m0 m1 m2 (fun a b => if a.toInt < b.toInt then 1 else 0)

/-- R204 (43_compare). -/
def Obligations.EqResult : Prop :=
  ∀ m0 m1 m2 : Mode, EncodedAs (.eq m0 m1 m2) .rrw 4 8 (m2 ≠ .immediate) ∧
    RuleRRW (.eq m0 m1 m2) m0 m1 m2 (fun a b => if a.toInt = b.toInt then 1 else 0)

/-- R181 (42_jumps): any non-zero condition jumps. -/
def Obligations.JtResult : Prop :=
  ∀ m0 m1 m2 : Mode, EncodedAs (.jt m0 m1 m2) .rr 3 5 True ∧ RuleJump (.jt m0 m1 m2) m0 m1 (fun a => a.toInt ≠ 0)

/-- R184 (42_jumps): a zero condition jumps. -/
def Obligations.JfResult : Prop :=
  ∀ m0 m1 m2 : Mode, EncodedAs (.jf m0 m1 m2) .rr 3 6 True ∧ RuleJump (.jf m0 m1 m2) m0 m1 (fun a => a.toInt = 0)

/-- R221 (44_relative_base). -/
def Obligations.ArbResult : Prop :=
  ∀ m0 m1 m2 : Mode, EncodedAs (.arb m0 m1 m2) .r 2 9 True ∧
    ∀ s : State,
      (∀ c, s.self.readParam 0 m0 = .error c → exec (.arb m0 m1 m2) s = .next (s.raise s.cur c)) ∧
      (∀ a, s.self.readParam 0 m0 = .ok a → exec (.arb m0 m1 m2) s = .next (s.setInst s.cur
        { s.self with rb := wrap64 (s.self.rb.toInt + a.toInt), pc := wrap64 (s.self.pc.toInt + 2) }))

/-- R231 (45_halt) with R147 (41_port_io): HLT closes the output port, whose queue is left as it is, and halts; `pc`, `rb`
and the memory stay. -/
def Obligations.HltResult : Prop :=
  ∀ m0 m1 m2 : Mode, EncodedAs (.hlt m0 m1 m2) .n 1 99 True ∧
    ∀ (s : State) (P : Port), s.port s.self.outPort = some P →
      exec (.hlt m0 m1 m2) s = .next
        ((s.setPort s.self.outPort { P with closed := true }).setInst s.cur { s.self with status := .halted })

/-- R141 (41_port_io): IN checks its destination, then takes the oldest value, or end of stream as a fault, or a value in
a rendezvous with a ready producer, or is held and changes nothing. -/
def Obligations.InResult : Prop :=
  ∀ m0 m1 m2 : Mode, EncodedAs (.inp m0 m1 m2) .w 2 3 (m0 ≠ .immediate) ∧
    ∀ s : State,
      (∀ c, s.self.writeAddr 0 m0 = .error c → exec (.inp m0 m1 m2) s = .next (s.raise s.cur c)) ∧
      ∀ (ea : Nat) (P : Port), s.self.writeAddr 0 m0 = .ok ea → s.port s.self.inPort = some P →
        (∀ v rest, P.q = v :: rest → exec (.inp m0 m1 m2) s = .next
          ((s.setPort s.self.inPort { P with q := rest }).setInst s.cur
            { s.self with mem := Memory.write s.self.mem ea v, pc := wrap64 (s.self.pc.toInt + 2) })) ∧
        (P.q = [] → P.closed = true →
          exec (.inp m0 m1 m2) s = .next (s.raise s.cur (.inputEndOfStream s.self.inPort))) ∧
        (P.q = [] → P.closed = false → P.cap = 0 →
          (∀ v, s.readyProducer s.self.inPort P = some (.host, v) → exec (.inp m0 m1 m2) s = .next
            (State.setInst { s with hmode := .active } s.cur
              { s.self with mem := Memory.write s.self.mem ea v, pc := wrap64 (s.self.pc.toInt + 2) })) ∧
          (∀ j v, j ≠ s.cur → s.readyProducer s.self.inPort P = some (.inst j, v) → exec (.inp m0 m1 m2) s = .next
            ((s.setInst j { s.inst j with pc := wrap64 ((s.inst j).pc.toInt + 2) }).setInst s.cur
              { s.self with mem := Memory.write s.self.mem ea v, pc := wrap64 (s.self.pc.toInt + 2) })) ∧
          (s.readyProducer s.self.inPort P = none → exec (.inp m0 m1 m2) s = .next s)) ∧
        (P.q = [] → P.closed = false → P.cap ≠ 0 → exec (.inp m0 m1 m2) s = .next s)

/-- R151 (41_port_io): OUT evaluates its parameter, then pushes the value into a buffer with room, or hands it over in a
rendezvous with a ready consumer, or is held and changes nothing. On a closed unbuffered port
there is no rendezvous (R146). -/
def Obligations.OutResult : Prop :=
  ∀ m0 m1 m2 : Mode, EncodedAs (.out m0 m1 m2) .r 2 4 True ∧
    ∀ s : State,
      (∀ c, s.self.readParam 0 m0 = .error c → exec (.out m0 m1 m2) s = .next (s.raise s.cur c)) ∧
      ∀ (a : Word) (P : Port), s.self.readParam 0 m0 = .ok a → s.port s.self.outPort = some P →
        (P.q.length < P.cap → exec (.out m0 m1 m2) s = .next
          ((s.setInst s.cur { s.self with pc := wrap64 (s.self.pc.toInt + 2) }).setPort s.self.outPort
            { P with q := P.q ++ [a] })) ∧
        (0 < P.cap → P.cap ≤ P.q.length → exec (.out m0 m1 m2) s = .next s) ∧
        (P.cap = 0 → P.closed = false →
          (s.readyConsumer s.self.outPort P = some .host → exec (.out m0 m1 m2) s = .next
            (State.setInst { s with hmode := .active, results := s.results ++ [.value s.self.outPort a] } s.cur
              { s.self with pc := wrap64 (s.self.pc.toInt + 2) })) ∧
          (∀ k ea, k ≠ s.cur → s.readyConsumer s.self.outPort P = some (.inst k ea) →
            exec (.out m0 m1 m2) s = .next
              ((s.setInst s.cur { s.self with pc := wrap64 (s.self.pc.toInt + 2) }).setInst k
                { s.inst k with
                  mem := Memory.write (s.inst k).mem ea a, pc := wrap64 ((s.inst k).pc.toInt + 2) })) ∧
          (s.readyConsumer s.self.outPort P = none → exec (.out m0 m1 m2) s = .next s)) ∧
        (P.cap = 0 → P.closed = true → exec (.out m0 m1 m2) s = .next s)

/-! ### The port IPC controller -/

/-- R140 (41_port_io): when an endpoint of a port is ready. -/
def Obligations.ReadyEndpoints : Prop :=
  ∀ (s : State) (p : Nat) (P : Port),
    (∀ k ea, s.readyConsumer p P = some (.inst k ea) ↔
      P.cons = .inst k ∧ (s.inst k).status = .running ∧ (s.inst k).inPort = p ∧ AtIn (s.inst k) ea) ∧
    (s.readyConsumer p P = some .host ↔
      s.hmode = .waitPop p ∧
        (P.cons = .host ∨
          ∃ k, P.cons = .inst k ∧ ((s.inst k).status = .halted ∨ (s.inst k).status = .faulted))) ∧
    (∀ k v, s.readyProducer p P = some (.inst k, v) ↔
      P.prod = .inst k ∧ (s.inst k).status = .running ∧ (s.inst k).outPort = p ∧ AtOut (s.inst k) v) ∧
    (∀ v, s.readyProducer p P = some (.host, v) ↔ P.prod = .host ∧ s.hmode = .waitPush p v)

/-- R142, R143 and R144 (41_port_io): the four outcomes of a pop; a buffered port takes a value while there is room, an
unbuffered port only in a rendezvous. -/
def Obligations.PortOperations : Prop :=
  (∀ (s : State) (p : Nat) (P : Port), s.port p = some P →
     (∀ v rest, P.q = v :: rest →
       s.popHow p = .queued v ∧ (s.dequeue p).port p = some { P with q := rest } ∧
       ∀ j, j ≠ p → (s.dequeue p).port j = s.port j) ∧
     (P.q = [] → P.closed = true → s.popHow p = .endOfStream) ∧
     (P.q = [] → P.closed = false →
       (∀ src v, P.cap = 0 → s.readyProducer p P = some (src, v) → s.popHow p = .rendezvous src v) ∧
       ((P.cap ≠ 0 ∨ s.readyProducer p P = none) → s.popHow p = .notReady))) ∧
  (∀ (s : State) (p : Nat) (P : Port), s.port p = some P →
     (P.q.length < P.cap →
       s.pushHow p = .buffered ∧
       ∀ v, (s.enqueue p v).port p = some { P with q := P.q ++ [v] } ∧ ∀ j, j ≠ p → (s.enqueue p v).port j = s.port j) ∧
     (0 < P.cap → P.cap ≤ P.q.length → s.pushHow p = .notReady) ∧
     (P.cap = 0 → P.closed = false →
       (∀ dst, s.readyConsumer p P = some dst → s.pushHow p = .rendezvous dst) ∧
       (s.readyConsumer p P = none → s.pushHow p = .notReady)) ∧
     (P.cap = 0 → P.closed = true → s.pushHow p = .notReady))

/-- R146 (41_port_io): on an unbuffered open port, the producer at OUT and the consumer at IN complete in one step, the
same whichever of the two is the executing one (but for the model's own `cur`, log 3). -/
def Obligations.RendezvousIsOneJointStep : Prop :=
  ∀ (s : State) (j k p ea : Nat) (v : Word) (P : Port) (m0 m1 m2 n0 n1 n2 : Mode),
    j ≠ k → s.port p = some P → P.prod = .inst j → P.cons = .inst k → P.cap = 0 → P.closed = false → P.q = [] →
    (s.inst j).status = .running → (s.inst j).outPort = p → 0 ≤ (s.inst j).pc.toInt →
    decode (Memory.read (s.inst j).mem (s.inst j).pc.toNat) = .ok (.out m0 m1 m2) →
    (s.inst j).readParam 0 m0 = .ok v →
    (s.inst k).status = .running → (s.inst k).inPort = p → 0 ≤ (s.inst k).pc.toInt →
    decode (Memory.read (s.inst k).mem (s.inst k).pc.toNat) = .ok (.inp n0 n1 n2) →
    (s.inst k).writeAddr 0 n0 = .ok ea →
    ∃ t : State,
      exec (.out m0 m1 m2) { s with cur := j } = .next { t with cur := j } ∧
      exec (.inp n0 n1 n2) { s with cur := k } = .next { t with cur := k } ∧
      t.ports = s.ports ∧ SameSystem s t ∧ SameHost s t ∧
      t.inst j = { s.inst j with pc := wrap64 ((s.inst j).pc.toInt + 2) } ∧
      t.inst k = { s.inst k with
        mem := Memory.write (s.inst k).mem ea v, pc := wrap64 ((s.inst k).pc.toInt + 2) } ∧
      ∀ l, l ≠ j → l ≠ k → t.inst l = s.inst l

/-- R155 (41_port_io): an IN or OUT on an unbuffered self-loop is held, and no step of the machine changes that. -/
def Obligations.UnbufferedSelfLoopHolds : Prop :=
  ∀ (s : State) (k p : Nat), LoopStuck s k p →
    s.held k = true ∧ ∀ t, step s = .next t → LoopStuck t k p ∧ t.inst k = s.inst k

/-- R145 (41_port_io), with R32 (10_state): every step but a CONFIG, which makes the ports anew (70_reset R302, R306; log 24),
leaves a port's queue as it is, or drops its oldest value, or appends one value; the port's constants stay, and a closed
port stays closed. No step of a started run is a CONFIG. -/
def Obligations.PortsAreFifo : Prop :=
  (∀ s : State, s.started = true → ¬ ConfigStep s) ∧
  ∀ s t : State, ¬ ConfigStep s → step s = .next t →
    ∀ p P, s.port p = some P → ∃ Q, t.port p = some Q ∧ SamePortParams P Q ∧
      (P.closed = true → Q.closed = true) ∧
      (Q.q = P.q ∨ (∃ v, P.q = v :: Q.q) ∨ ∃ v, Q.q = P.q ++ [v])

/-! ### Frames -/

/-- The frame of ADD, MUL, LT and EQ: when the instruction completes, only the destination word and `pc` of the executing
instance change; when it faults, only its status and record do. -/
def Obligations.FrameOfMemoryWriters : Prop :=
  ∀ (i : Instr) (m0 m1 m2 : Mode) (s t : State),
    i = .add m0 m1 m2 ∨ i = .mul m0 m1 m2 ∨ i = .lt m0 m1 m2 ∨ i = .eq m0 m1 m2 → exec i s = .next t →
    t.ports = s.ports ∧ SameSystem s t ∧ SameHost s t ∧ (∀ k, k ≠ s.cur → t.inst k = s.inst k) ∧
    (t.inst s.cur).rb = s.self.rb ∧ SameBindings s.self (t.inst s.cur) ∧
    ((t.inst s.cur).status = s.self.status ∧ (t.inst s.cur).frec = s.self.frec ∨
      SameButFault s.self (t.inst s.cur)) ∧
    (∀ ea, s.self.writeAddr 2 m2 = .ok ea →
      ∀ a, a ≠ ea → Memory.read (t.inst s.cur).mem a = Memory.read s.self.mem a) ∧
    (∀ c, s.self.writeAddr 2 m2 = .error c → (t.inst s.cur).mem = s.self.mem)

/-- The frame of JT, JF and ARB: no memory and no port changes; ARB alone changes `rb`. -/
def Obligations.FrameOfRegisterWriters : Prop :=
  ∀ (i : Instr) (m0 m1 m2 : Mode) (s t : State),
    i = .jt m0 m1 m2 ∨ i = .jf m0 m1 m2 ∨ i = .arb m0 m1 m2 → exec i s = .next t →
    t.ports = s.ports ∧ SameSystem s t ∧ SameHost s t ∧ (∀ k, k ≠ s.cur → t.inst k = s.inst k) ∧
    (t.inst s.cur).mem = s.self.mem ∧ SameBindings s.self (t.inst s.cur) ∧
    (i.op ≠ .arb → (t.inst s.cur).rb = s.self.rb) ∧
    ((t.inst s.cur).status = s.self.status ∧ (t.inst s.cur).frec = s.self.frec ∨
      SameButFault s.self (t.inst s.cur))

/-- The frame of HLT: only the status of the executing instance and `closed` of its output port change. -/
def Obligations.FrameOfHlt : Prop :=
  ∀ (m0 m1 m2 : Mode) (s t : State), exec (.hlt m0 m1 m2) s = .next t →
    SameSystem s t ∧ SameHost s t ∧ (∀ k, k ≠ s.cur → t.inst k = s.inst k) ∧
    SameButFault s.self (t.inst s.cur) ∧ (t.inst s.cur).frec = s.self.frec ∧
    (∀ p, p ≠ s.self.outPort → t.port p = s.port p) ∧
    (∀ P, s.port s.self.outPort = some P → ∃ Q, t.port s.self.outPort = some Q ∧ SamePortParams P Q ∧ Q.q = P.q)

/-- The frame of IN: only the destination word, `pc`, status and record of the executing instance, the oldest value of
its input port, and, in a rendezvous, the producer's `pc` or the host's mode change. -/
def Obligations.FrameOfIn : Prop :=
  ∀ (m0 m1 m2 : Mode) (s t : State), exec (.inp m0 m1 m2) s = .next t →
    SameSystem s t ∧ t.results = s.results ∧
    (t.hmode = s.hmode ∨ t.hmode = .active ∧ ∃ v, s.hmode = .waitPush s.self.inPort v) ∧
    (∀ k, k ≠ s.cur → t.inst k = s.inst k ∨
      ((∃ v, AtOut (s.inst k) v) ∧ (s.inst k).outPort = s.self.inPort ∧
        t.inst k = { s.inst k with pc := wrap64 ((s.inst k).pc.toInt + 2) })) ∧
    (t.inst s.cur).rb = s.self.rb ∧ SameBindings s.self (t.inst s.cur) ∧
    ((t.inst s.cur).status = s.self.status ∧ (t.inst s.cur).frec = s.self.frec ∨
      SameButFault s.self (t.inst s.cur) ∧ t.ports = s.ports) ∧
    (∀ ea, s.self.writeAddr 0 m0 = .ok ea →
      ∀ a, a ≠ ea → Memory.read (t.inst s.cur).mem a = Memory.read s.self.mem a) ∧
    (∀ c, s.self.writeAddr 0 m0 = .error c → (t.inst s.cur).mem = s.self.mem) ∧
    (∀ p, p ≠ s.self.inPort → t.port p = s.port p) ∧
    (∀ P, s.port s.self.inPort = some P → ∃ Q, t.port s.self.inPort = some Q ∧ SamePortParams P Q ∧
      Q.closed = P.closed ∧ (Q.q = P.q ∨ ∃ v, P.q = v :: Q.q))

/-- The frame of OUT: no word of the executing instance's memory changes; only its `pc`, status and record, the newest
value of its output port, and, in a rendezvous, the consumer instance's destination word and `pc` or the host's mode and
results change. (In a step that executes OUT the executing instance is not itself at an IN.) -/
def Obligations.FrameOfOut : Prop :=
  ∀ (m0 m1 m2 : Mode) (s t : State), (∀ ea, ¬ AtIn s.self ea) → exec (.out m0 m1 m2) s = .next t →
    SameSystem s t ∧
    (t.hmode = s.hmode ∧ t.results = s.results ∨ s.hmode = .waitPop s.self.outPort ∧ t.hmode = .active ∧
      ∃ v, t.results = s.results ++ [.value s.self.outPort v]) ∧
    (∀ k, k ≠ s.cur → t.inst k = s.inst k ∨
      ∃ ea v, AtIn (s.inst k) ea ∧ (s.inst k).inPort = s.self.outPort ∧
        t.inst k = { s.inst k with
          mem := Memory.write (s.inst k).mem ea v, pc := wrap64 ((s.inst k).pc.toInt + 2) }) ∧
    (t.inst s.cur).rb = s.self.rb ∧ (t.inst s.cur).mem = s.self.mem ∧ SameBindings s.self (t.inst s.cur) ∧
    ((t.inst s.cur).status = s.self.status ∧ (t.inst s.cur).frec = s.self.frec ∨
      SameButFault s.self (t.inst s.cur) ∧ t.ports = s.ports) ∧
    (∀ p, p ≠ s.self.outPort → t.port p = s.port p) ∧
    (∀ P, s.port s.self.outPort = some P → ∃ Q, t.port s.self.outPort = some Q ∧ SamePortParams P Q ∧
      Q.closed = P.closed ∧ (Q.q = P.q ∨ ∃ v, Q.q = P.q ++ [v]))

/-! ### Invariants that every step keeps -/

/-- The invariants hold right after reset. -/
def Obligations.ResetMeetsTheInvariants : Prop :=
  MemoryCanonical State.reset ∧ QueuesBounded State.reset ∧ FaultsRecorded State.reset ∧ SystemInv State.reset

/-- R61 and R65 (20_memory): every step keeps every memory in its canonical form. -/
def Obligations.StepKeepsMemoryCanonical : Prop :=
  ∀ s t : State, MemoryCanonical s → step s = .next t → MemoryCanonical t

/-- R32 (10_state): every step keeps `length(q(p)) <= CAP(p)` for every port, so that an unbuffered port's queue is always
empty; it holds in the state after reset, and so in every state that a run from it reaches. -/
def Obligations.StepKeepsQueuesBounded : Prop :=
  QueuesBounded State.reset ∧
  (∀ s t : State, QueuesBounded s → step s = .next t → QueuesBounded t) ∧
  ∀ s : State, QueuesBounded s → ∀ P ∈ s.ports, P.q.length ≤ P.cap ∧ (P.cap = 0 → P.q = [])

/-- R25 (10_state), R243, R244 (60_exceptions): in every step an instance has a record exactly when it is FAULTED, and
the record names the instance. -/
def Obligations.StepKeepsFaultsRecorded : Prop :=
  ∀ s t : State, FaultsRecorded s → step s = .next t → FaultsRecorded t

/-- R260 (60_exceptions), R26 and R31 (10_state): every step keeps the wiring that of the topology, the start's
consequences, and the producers of closed ports quiet. -/
def Obligations.StepKeepsSystemInv : Prop :=
  ∀ s t : State, SystemInv s → step s = .next t → SystemInv t

/-- R32 (10_state), last part: where the invariant holds, no step but a CONFIG, which makes the ports anew (70_reset R302,
R306; log 24), adds a value to a closed port, which stays closed. -/
def Obligations.ClosedPortsTakeNoValue : Prop :=
  ∀ s t : State, SystemInv s → ¬ ConfigStep s → step s = .next t →
    ∀ p P, s.port p = some P → P.closed = true →
      ∃ Q, t.port p = some Q ∧ Q.closed = true ∧ (Q.q = P.q ∨ ∃ v, P.q = v :: Q.q)

/-! ### Rules of the whole machine -/

/-- R24 and R25 (10_state), R232 (45_halt), R247 (60_exceptions): no step of the machine changes the status, the record,
`pc`, `rb` or the memory of a terminated instance. That a LOAD of an instance that a malformed text has FAULTED leaves them
is the model's choice (log 9). Its image and its bindings are not named here: LOAD and CONFIG may set them before START. -/
def Obligations.TerminatedInstancesAreFinal : Prop :=
  ∀ (s t : State) (k : Nat), (s.inst k).status = .halted ∨ (s.inst k).status = .faulted → step s = .next t →
    (t.inst k).status = (s.inst k).status ∧ (t.inst k).frec = (s.inst k).frec ∧ (t.inst k).pc = (s.inst k).pc ∧
      (t.inst k).rb = (s.inst k).rb ∧ (t.inst k).mem = (s.inst k).mem

/-- R24 (10_state): the codes of the statuses, and IDLE after reset; only a RUNNING instance takes a step of its own; and
the status of an instance changes only as the table says, so that HALTED and FAULTED are final. -/
def Obligations.StatusChangesAreTheTables : Prop :=
  [Status.idle, .running, .halted, .faulted].map Status.code = [0, 1, 2, 3] ∧
  (∀ I ∈ State.reset.insts, I.status = .idle) ∧
  (∀ (s : State) (k : Nat), s.pick = some (.inst k) → (s.inst k).status = .running) ∧
  ∀ (s t : State) (k : Nat), step s = .next t → (t.inst k).status ≠ (s.inst k).status →
    ((s.inst k).status = .idle ∧ (t.inst k).status = .running ∧ s.pick = some .hostMove ∧
      s.moves.head? = some .start) ∨
    ((s.inst k).status = .running ∧ (t.inst k).status = .halted ∧ s.pick = some (.inst k) ∧
      ∃ m0 m1 m2, (s.inst k).fetchInstr = .ok (.hlt m0 m1 m2)) ∨
    ((s.inst k).status = .running ∧ (t.inst k).status = .faulted ∧ s.pick = some (.inst k) ∧
      ∃ r, (t.inst k).frec = some r) ∨
    ((s.inst k).status = .idle ∧ (t.inst k).status = .faulted ∧ s.pick = some .hostMove ∧
      ∃ text, s.moves.head? = some (.load k text))

/-- R22 (10_state), R221 (44_relative_base): once the run is started, the relative base of an instance changes only in
its own ARB, by the value of its parameter. -/
def Obligations.OnlyArbMovesTheRelativeBase : Prop :=
  ∀ (s t : State) (k : Nat), s.started = true → step s = .next t → (t.inst k).rb ≠ (s.inst k).rb →
    s.pick = some (.inst k) ∧ ∃ m0 m1 m2 a, (s.inst k).fetchInstr = .ok (.arb m0 m1 m2) ∧
      (s.inst k).readParam 0 m0 = .ok a ∧ (t.inst k).rb = wrap64 ((s.inst k).rb.toInt + a.toInt)

/-- R39 (10_state), R60, R73, R74 (20_memory): once the run is started, the memory of an instance changes only in its own
step, or by its own IN taking a value in a rendezvous. -/
def Obligations.MemoryIsPrivate : Prop :=
  ∀ (s t : State) (k : Nat), s.started = true → step s = .next t → (t.inst k).mem ≠ (s.inst k).mem →
    s.pick = some (.inst k) ∨ ∃ ea v, AtIn (s.inst k) ea ∧ (t.inst k).mem = Memory.write (s.inst k).mem ea v

/-- R26, R27 and R31 (10_state): once the run is started, a step changes neither the topology, nor the number of
instances, nor a binding, nor a port's constants, and the run stays started. -/
def Obligations.ParametersAreConstant : Prop :=
  ∀ s t : State, s.started = true → step s = .next t →
    t.topo = s.topo ∧ t.nInst = s.nInst ∧ t.started = true ∧ t.unseededCycle = s.unseededCycle ∧
      t.configError = s.configError ∧ t.insts.length = s.insts.length ∧ t.ports.length = s.ports.length ∧
      (∀ k, SameBindings (s.inst k) (t.inst k)) ∧
      ∀ p P, s.port p = some P → ∃ Q, t.port p = some Q ∧ SamePortParams P Q

/-- R286 (60_exceptions) with R149 (41_port_io): in a weakly fair run of the machine, a RUNNING instance that is at neither
an IN nor an OUT takes a step of its own, from the very state it is in. -/
def Obligations.FairRunsReachEveryRunningInstance : Prop :=
  ∀ (r : Nat → State) (n k : Nat), IsRun r → WeaklyFair r → (r n).started = true → k < (r n).nInst →
    ((r n).inst k).status = .running → (∀ ea, ¬ AtIn ((r n).inst k) ea) → (∀ v, ¬ AtOut ((r n).inst k) v) →
    ∃ m, n ≤ m ∧ (r m).pick = some (.inst k) ∧ (r m).inst k = (r n).inst k

/-! ### Configuration, start and load -/

/-- R300, R302, R303 (70_reset_and_hazards): the state right after reset; the parameters that are OPEN there are the
model's choice (log 5) and are not stated. -/
def Obligations.ResetState : Prop :=
  State.reset.started = false ∧ State.reset.unseededCycle = false ∧ State.reset.configError = none ∧
  State.reset.deadlock = none ∧ State.reset.hmode = .active ∧
  (∀ I ∈ State.reset.insts, I.pc = 0 ∧ I.rb = 0 ∧ I.mem = Memory.ofImage 0 I.image ∧ I.status = .idle ∧
    I.frec = none) ∧
  (∀ P ∈ State.reset.ports, P.q = P.seed ∧ P.closed = false)

/-- R305 (70_reset_and_hazards): the grammar of a token and its value; a text is its tokens separated by commas; it loads
when every token is good, and otherwise the index of the first bad one is reported. -/
def Obligations.ProgramTextGrammar : Prop :=
  (∀ (t : List Char) (w : Word),
     parseToken t = some w ↔ ∃ before sign digits after, t = before ++ sign ++ digits ++ after ∧
       (∀ c ∈ before, isSpace c = true) ∧ (∀ c ∈ after, isSpace c = true) ∧
       (sign = [] ∨ sign = ['-'] ∨ sign = ['+']) ∧ digits ≠ [] ∧ (∀ c ∈ digits, isDigit c = true) ∧
       w.toInt = (if sign = ['-'] then -(decimalValue digits : Int) else decimalValue digits)) ∧
  (∀ (tokens : List (List Char)), tokens ≠ [] → (∀ t ∈ tokens, ',' ∉ t) →
     (∀ ws : List Word, parseText (List.intercalate [','] tokens) = .ok ws ↔
       tokens.map parseToken = ws.map some) ∧
     (∀ i : Nat, parseText (List.intercalate [','] tokens) = .error i ↔
       (∃ t, tokens[i]? = some t ∧ parseToken t = none) ∧
         ∀ j t, j < i → tokens[j]? = some t → parseToken t ≠ none))

/-- R280 (60_exceptions), R300, R305 and R306 (70_reset_and_hazards): LOAD resets an IDLE instance with its image, or faults it
with MalformedProgram, and changes no other instance and nothing else. An instance that does not exist yet reads as a fresh
one and is created, with those before it; until a CONFIG it is bound as the topology would bind it (log 9, log 16). -/
def Obligations.LoadResetsOrFaults : Prop :=
  ∀ (s t : State) (k : Nat) (text : List Char), (s.inst k).status = .idle → t = s.load k text →
    (∀ ws, parseText text = .ok ws →
      t.inst k =
        { pc := 0, rb := 0, mem := Memory.ofImage 0 ws, image := ws, status := .idle, frec := none,
          inPort := (t.inst k).inPort, outPort := (t.inst k).outPort }) ∧
    (∀ i, parseText text = .error i →
      t.inst k =
        { s.inst k with
          status := .faulted
          frec := some { kind := .malformedProgram, pc := none, value := wrap64 i, param := none, port := none,
                         inst := k }
          inPort := (t.inst k).inPort, outPort := (t.inst k).outPort }) ∧
    (k < s.insts.length → (t.inst k).inPort = (s.inst k).inPort ∧ (t.inst k).outPort = (s.inst k).outPort) ∧
    t.insts.length = max s.insts.length (k + 1) ∧
    (∀ j, j ≠ k → j < s.insts.length → t.inst j = s.inst j) ∧
    (∀ j, s.insts.length ≤ j → j ≤ k →
      (t.inst j).inPort = s.topo.inPort j ∧ (t.inst j).outPort = s.topo.outPort s.nInst j ∧
      (j ≠ k → t.inst j = { Inst.fresh with inPort := (t.inst j).inPort, outPort := (t.inst j).outPort })) ∧
    t.ports = s.ports ∧ SameSystem s t ∧ SameHost s t

/-- R260 (60_exceptions), R302 (70_reset_and_hazards): CONFIG makes the ports and bindings of the topology, each port with
its seeds in its queue and open, row by row of the table of R260, and leaves everything else. The numbers of the ports, the
default of an unlisted capacity or seed, and the first `CAP(p)` of seeds that exceed it are the model's choices (log 7,
log 8, log 15); that a port closed before is open again is its reading of R302 and R306 (log 24). -/
def Obligations.ConfigWiresTheTopology : Prop :=
  ∀ (s t : State) (topo : Topo) (n : Nat) (caps : List Nat) (seeds : List (List Word)),
    t = s.config topo n caps seeds →
    Wired t ∧ t.topo = topo ∧ t.nInst = n ∧
    (∀ p P, t.port p = some P →
      P.seed = seeds.getD p [] ∧ P.cap = caps.getD p 0 ∧ P.closed = false ∧ P.q = P.seed.take P.cap ∧
        (P.seed.length ≤ P.cap → P.q = P.seed)) ∧
    (topo = .single → ∃ pin pout, t.ports = [pin, pout] ∧
      pin.prod = .host ∧ pin.cons = .inst 0 ∧ pout.prod = .inst 0 ∧ pout.cons = .host ∧
      ∀ k, k < n → (t.inst k).inPort = 0 ∧ (t.inst k).outPort = 1) ∧
    (topo = .pipeline → 1 ≤ n → t.ports.length = n + 1 ∧
      (∃ P, t.port 0 = some P ∧ P.prod = .host ∧ P.cons = .inst 0) ∧
      (∀ j, 1 ≤ j → j < n → ∃ P, t.port j = some P ∧ P.prod = .inst (j - 1) ∧ P.cons = .inst j) ∧
      (∃ P, t.port n = some P ∧ P.prod = .inst (n - 1) ∧ P.cons = .host) ∧
      ∀ k, k < n → (t.inst k).inPort = k ∧ (t.inst k).outPort = k + 1) ∧
    (topo = .ring → 1 ≤ n → t.ports.length = n ∧
      (∃ P, t.port 0 = some P ∧ P.prod = .inst (n - 1) ∧ P.cons = .inst 0) ∧
      (∀ j, 1 ≤ j → j < n → ∃ P, t.port j = some P ∧ P.prod = .inst (j - 1) ∧ P.cons = .inst j) ∧
      ∀ k, k < n → (t.inst k).inPort = k ∧ (t.inst k).outPort = (k + 1) % n) ∧
    (∀ k, k < s.insts.length → t.inst k =
      { s.inst k with inPort := (t.inst k).inPort, outPort := (t.inst k).outPort }) ∧
    t.started = s.started ∧ t.unseededCycle = s.unseededCycle ∧ t.configError = s.configError ∧
      t.deadlock = s.deadlock ∧ t.moves = s.moves ∧ SameHost s t

/-- R261 (60_exceptions): the configuration check reports the first failing reason in order; the three topologies cannot
fail the third. -/
def Obligations.ConfigCheckInOrder : Prop :=
  ∀ (s : State) (loaded seeded : Prop),
    (loaded ↔ ∀ k, k < s.nInst → ∀ r, (s.inst k).frec = some r → r.kind ≠ .malformedProgram) →
    (seeded ↔ ∀ P ∈ s.ports, P.seed.length ≤ P.cap) →
    (s.checkConfig = some .loadFailed ↔ ¬ loaded) ∧
    (s.checkConfig = some .noInstances ↔ loaded ∧ s.nInst < 1) ∧
    (s.checkConfig = some .badWiring ↔ loaded ∧ ¬ s.nInst < 1 ∧ ¬ EachInstanceWired s) ∧
    (s.checkConfig = some .seedExceedsCapacity ↔ loaded ∧ ¬ s.nInst < 1 ∧ EachInstanceWired s ∧ ¬ seeded) ∧
    (s.checkConfig = none ↔ loaded ∧ ¬ s.nInst < 1 ∧ EachInstanceWired s ∧ seeded) ∧
    (Wired s → 1 ≤ s.nInst → (s.topo = .single → s.nInst = 1) → EachInstanceWired s)

/-- R262 (60_exceptions): START, where the check passes, starts every IDLE instance in one step and makes the check of
R264; where it fails, no instance starts. -/
def Obligations.StartStartsEveryInstance : Prop :=
  ∀ (s : State) (rest : List HostMove), s.pick = some .hostMove → s.moves = .start :: rest →
    ∃ t, step s = .next t ∧ t.moves = rest ∧ t.ports = s.ports ∧ t.hmode = .active ∧ s.started = false ∧
      (s.checkConfig = none → t.started = true ∧ t.configError = none ∧
        t.unseededCycle = s.hasUnseededCycle ∧
        ∀ k, k < s.nInst → k < s.insts.length → (s.inst k).status = .idle →
          t.inst k = { s.inst k with status := .running }) ∧
      (∀ r, s.checkConfig = some r → t.started = false ∧ t.configError = some r ∧ t.insts = s.insts ∧
        t.outcome = some .configError)

/-- R264 (60_exceptions): an unseeded cycle exists in a RING whose ports are all unseeded, and in no SINGLE and no
PIPELINE. -/
def Obligations.UnseededCycleOnlyInUnseededRing : Prop :=
  ∀ (s : State) (n : Nat) (caps : List Nat) (seeds : List (List Word)), 1 ≤ n →
    ((s.config .ring n caps seeds).hasUnseededCycle = true ↔ ∀ p, p < n → seeds.getD p [] = []) ∧
    (s.config .pipeline n caps seeds).hasUnseededCycle = false ∧
    (s.config .single n caps seeds).hasUnseededCycle = false

/-! ### Deadlock and the ends of a run -/

/-- R270 (60_exceptions): the arbiter's step in a quiescent state, and what quiescent means. -/
def Obligations.DeadlockDeclared : Prop :=
  ∀ s : State,
    (s.quiescent = true ↔ s.started = true ∧
      (∀ k, k < s.nInst → (s.inst k).status = .running → s.held k = true) ∧ s.hmode ≠ .active ∧
      (s.hmode = .join → ∃ k, k < s.nInst ∧ (s.inst k).status = .running) ∧
      (s.hmode ≠ .join → s.agentEnabled .hostWait = false)) ∧
    (s.agentEnabled .arbiter = true ↔ s.quiescent = true ∧ s.deadlock = none) ∧
    (s.pick = some .arbiter → ∃ t held, step s = .next t ∧ t.deadlock = some held ∧
      (∀ k, k ∈ held ↔ k < s.nInst ∧ (s.inst k).status = .running) ∧
      t.results = s.results ++ [.deadlock held] ∧ t.insts = s.insts ∧ t.ports = s.ports ∧
      (s.configError = none → t.outcome = some (.deadlock held)))

/-- R271 (60_exceptions): detection is exact: no step but the arbiter's own leaves a quiescent state, and none changes an
instance or a port. -/
def Obligations.QuiescentStaysQuiescent : Prop :=
  ∀ s t : State, s.quiescent = true → step s = .next t →
    t.insts = s.insts ∧ t.ports = s.ports ∧ (s.pick ≠ some .arbiter → t.quiescent = true)

/-- R265 (60_exceptions): a started ring with no value in any port, each instance at its first IN and the host in JOIN, is
a deadlock of all its instances, which the arbiter declares in the next step. -/
def Obligations.UnseededRingDeadlocks : Prop :=
  ∀ s : State, Wired s → s.topo = .ring → 1 ≤ s.nInst → s.started = true → s.deadlock = none →
    s.hmode = .join → s.moves = [] →
    (∀ k, k < s.nInst → (s.inst k).status = .running ∧ ∃ ea, AtIn (s.inst k) ea) →
    (∀ P ∈ s.ports, P.q = [] ∧ P.closed = false) →
    ∃ t, step s = .next t ∧ t.deadlock = some (List.range s.nInst) ∧ t.insts = s.insts ∧ t.ports = s.ports

/-- R308 (70_reset_and_hazards): the outcomes of a run; where two of its rows hold at once, the order ConfigError,
Deadlock, Success, Fault is the model's reading (log 13). -/
def Obligations.RunOutcomes : Prop :=
  ∀ s : State,
    (s.outcome = some .configError ↔ s.configError ≠ none) ∧
    (∀ held, s.outcome = some (.deadlock held) ↔ s.configError = none ∧ s.deadlock = some held) ∧
    (s.outcome = some .success ↔ s.configError = none ∧ s.deadlock = none ∧ s.started = true ∧
      ∀ k, k < s.nInst → (s.inst k).status = .halted) ∧
    (s.outcome = some .fault ↔ s.configError = none ∧ s.deadlock = none ∧ s.started = true ∧
      (∀ k, k < s.nInst → (s.inst k).status = .halted ∨ (s.inst k).status = .faulted) ∧
      ∃ k, k < s.nInst ∧ (s.inst k).status = .faulted)

/-! ### The host -/

/-- R280 (60_exceptions), with R283 for the drain and R284 for MEMREAD: the host's next move is a step exactly when it is
enabled, and when each move is enabled. That LOAD, CONFIG and MEMREAD need no ACTIVE host is a reading of the table (log 10),
and that PUSH, POP and CLOSE need no started run is the model's choice (log 23). -/
def Obligations.HostMovesEnabled : Prop :=
  ∀ s : State,
    (s.moves = [] → s.agentEnabled .hostMove = false) ∧
    (∀ m rest, s.moves = m :: rest → (s.agentEnabled .hostMove = true ↔ s.moveEnabled m = true)) ∧
    (∀ k text, s.moveEnabled (.load k text) = true ↔ s.started = false ∧ s.configError = none) ∧
    (∀ topo n caps seeds, s.moveEnabled (.config topo n caps seeds) = true ↔
      s.started = false ∧ s.configError = none) ∧
    (s.moveEnabled .start = true ↔ s.started = false ∧ s.configError = none ∧ s.hmode = .active) ∧
    (∀ p v, s.moveEnabled (.push p v) = true ↔
      s.hmode = .active ∧ ∃ P, s.port p = some P ∧ P.prod = .host ∧ P.closed = false) ∧
    (∀ p, s.moveEnabled (.pop p) = true ↔ s.hmode = .active ∧ ∃ P, s.port p = some P ∧
      (P.cons = .host ∨ ∃ k, P.cons = .inst k ∧ ((s.inst k).status = .halted ∨ (s.inst k).status = .faulted))) ∧
    (∀ p, s.moveEnabled (.close p) = true ↔ s.hmode = .active ∧ ∃ P, s.port p = some P ∧ P.prod = .host) ∧
    (s.moveEnabled .join = true ↔ s.hmode = .active ∧ s.started = true) ∧
    (∀ k a, s.moveEnabled (.memRead k a) = true ↔
      k < s.nInst ∧ ((s.inst k).status = .halted ∨ (s.inst k).status = .faulted) ∧ 0 ≤ a.toInt)

/-- R280 (60_exceptions): what a LOAD and a CONFIG (the functions of `LoadResetsOrFaults` and `ConfigWiresTheTopology`), the
issue of a PUSH, a POP and a JOIN, a CLOSE and a MEMREAD do in the step that takes them. -/
def Obligations.HostMoveEffects : Prop :=
  ∀ (s : State) (rest : List HostMove), s.pick = some .hostMove →
    (∀ k text, s.moves = .load k text :: rest →
      step s = .next (State.load { s.begin .hostMove with moves := rest } k text)) ∧
    (∀ topo n caps seeds, s.moves = .config topo n caps seeds :: rest →
      step s = .next (State.config { s.begin .hostMove with moves := rest } topo n caps seeds)) ∧
    (∀ p v, s.moves = .push p v :: rest →
      step s = .next { s.begin .hostMove with moves := rest, hmode := .waitPush p v }) ∧
    (∀ p, s.moves = .pop p :: rest → step s = .next { s.begin .hostMove with moves := rest, hmode := .waitPop p }) ∧
    (s.moves = .join :: rest → step s = .next { s.begin .hostMove with moves := rest, hmode := .join }) ∧
    (∀ p P, s.moves = .close p :: rest → s.port p = some P →
      step s = .next { s.begin .hostMove with moves := rest, ports := s.ports.set p { P with closed := true } }) ∧
    (∀ k a, s.moves = .memRead k a :: rest →
      step s = .next { s.begin .hostMove with
        moves := rest, results := s.results ++ [.word k a (Memory.read (s.inst k).mem a.toNat)] })

/-- R280 (60_exceptions), with R142, R143, R146 and R150 (41_port_io) and the drain of R283: when the host's PUSH and POP can
complete, and what their completion does; end of stream is a normal result for the host. -/
def Obligations.HostWaitsComplete : Prop :=
  (∀ (s : State) (p : Nat) (P : Port), s.port p = some P →
    (∀ v, s.hmode = .waitPush p v → (s.agentEnabled .hostWait = true ↔ P.prod = .host ∧
      (P.q.length < P.cap ∨ P.cap = 0 ∧ P.closed = false ∧ ∃ k ea, P.cons = .inst k ∧
        (s.inst k).status = .running ∧ (s.inst k).inPort = p ∧ AtIn (s.inst k) ea))) ∧
    (s.hmode = .waitPop p → (s.agentEnabled .hostWait = true ↔
      (P.cons = .host ∨ ∃ k, P.cons = .inst k ∧ ((s.inst k).status = .halted ∨ (s.inst k).status = .faulted)) ∧
      (P.q ≠ [] ∨ P.closed = true ∨ P.cap = 0 ∧ ∃ k v, P.prod = .inst k ∧
        (s.inst k).status = .running ∧ (s.inst k).outPort = p ∧ AtOut (s.inst k) v)))) ∧
  ∀ (s : State) (p : Nat) (P : Port), s.pick = some .hostWait → s.port p = some P →
    (∀ v, s.hmode = .waitPush p v → P.prod = .host ∧
      (0 < P.cap → P.q.length < P.cap ∧ step s = .next { s.begin .hostWait with
        hmode := .active, ports := s.ports.set p { P with q := P.q ++ [v] } }) ∧
      (P.cap = 0 → P.closed = false ∧ ∃ k ea, P.cons = .inst k ∧ AtIn (s.inst k) ea ∧
        step s = .next { s.begin .hostWait with hmode := .active, insts := s.insts.set k { s.inst k with
          mem := Memory.write (s.inst k).mem ea v, pc := wrap64 ((s.inst k).pc.toInt + 2) } })) ∧
    (s.hmode = .waitPop p →
      (∀ v rest, P.q = v :: rest → step s = .next { s.begin .hostWait with
        hmode := .active, ports := s.ports.set p { P with q := rest }, results := s.results ++ [.value p v] }) ∧
      (P.q = [] → P.closed = true → step s = .next { s.begin .hostWait with
        hmode := .active, results := s.results ++ [.endOfStream p] }) ∧
      (P.q = [] → P.closed = false → P.cap = 0 ∧ ∃ k v, P.prod = .inst k ∧ AtOut (s.inst k) v ∧
        step s = .next { s.begin .hostWait with
          hmode := .active, results := s.results ++ [.value p v]
          insts := s.insts.set k { s.inst k with pc := wrap64 ((s.inst k).pc.toInt + 2) } }))

/-- R266 (60_exceptions): JOIN completes exactly when every instance is terminated, and returns the statuses and fault
records. -/
def Obligations.JoinReturnsEveryEnd : Prop :=
  ∀ s : State, s.hmode = .join →
    (s.agentEnabled .hostWait = true ↔
      ∀ k, k < s.nInst → (s.inst k).status = .halted ∨ (s.inst k).status = .faulted) ∧
    (s.pick = some .hostWait → ∃ ends, step s = .next { s.begin .hostWait with
        hmode := .active, results := s.results ++ [.joined ends] } ∧
      ends.length = s.nInst ∧ ∀ k, k < s.nInst → ends[k]? = some ((s.inst k).status, (s.inst k).frec))
end

