-- ==== Sys2Proof/Laws/Word.lean ====
section
/-! SUPPORT. What `wrap64`, `tdiv`, `trem` and `digit` compute (spec/00_scope.md R8, R9). -/

namespace Sys2Proof

/-- The formula of R8. -/
theorem toInt_wrap64 (x : Int) :
    (wrap64 x).toInt = (x + 9223372036854775808) % 18446744073709551616 - 9223372036854775808 := by
  rw [wrap64, BitVec.toInt_ofInt, Int.bmod_def]
  norm_num
  omega

/-- A number in the range of a word is kept. -/
theorem toInt_wrap64_of_range {x : Int} (h₁ : -9223372036854775808 ≤ x) (h₂ : x ≤ 9223372036854775807) :
    (wrap64 x).toInt = x := by
  rw [toInt_wrap64]
  omega

theorem toInt_range (w : Word) : -9223372036854775808 ≤ w.toInt ∧ w.toInt ≤ 9223372036854775807 := by
  have h₁ := BitVec.le_toInt w
  have h₂ := BitVec.toInt_lt (x := w)
  norm_num at h₁ h₂
  omega

@[simp] theorem wrap64_toInt (w : Word) : wrap64 w.toInt = w := by
  simp [wrap64]

/-- Two words with the same signed value are the same word. -/
theorem word_ext {a b : Word} (h : a.toInt = b.toInt) : a = b := BitVec.eq_of_toInt_eq h

/-- A word that is not negative has its number as its bits. -/
theorem toNat_of_nonneg {w : Word} (h : ¬ w.toInt < 0) : (w.toNat : Int) = w.toInt := by
  have h₂ := w.isLt
  rw [BitVec.toInt_eq_toNat_cond] at *
  split at h <;> split <;> omega

theorem toNat_le_addrMax {w : Word} (h : ¬ w.toInt < 0) : w.toNat ≤ Config.addrMax := by
  have h₁ := toNat_of_nonneg h
  have h₂ := (toInt_range w).2
  unfold Config.addrMax
  omega

theorem trem_of_nonneg {x : Int} (h : 0 ≤ x) (n : Int) : trem x n = x % n := by
  unfold trem tdiv
  rw [Int.tdiv_eq_ediv_of_nonneg h, Int.emod_def]

theorem digit_of_nonneg {w : Word} (h : 0 ≤ w.toInt) (k : Nat) : digit w k = w.toInt / pow10 k % 10 := by
  unfold digit
  have hp : 0 ≤ pow10 k := by
    induction k with
    | zero => decide
    | succ k ih => unfold pow10; omega
  rw [trem_of_nonneg]
  · unfold tdiv
    rw [Int.tdiv_eq_ediv_of_nonneg h]
  · unfold tdiv
    rw [Int.tdiv_eq_ediv_of_nonneg h]
    exact Int.ediv_nonneg h hp

/-- The remainder of a negative number is not positive (R9). -/
theorem trem_of_neg {x : Int} (h : x < 0) : trem x 100 ≤ 0 ∧ -99 ≤ trem x 100 := by
  unfold trem tdiv
  have : (100 : Int) * x.tdiv 100 = x - x.tmod 100 := by
    have := Int.mul_tdiv_add_tmod x 100
    omega
  rw [this]
  have h₁ : x.tmod 100 ≤ 0 := by
    have := Int.tmod_nonneg (a := -x) 100 (by omega)
    rw [Int.neg_tmod] at this
    omega
  have h₂ : (-x).tmod 100 < 100 := Int.tmod_lt_of_pos _ (by omega)
  rw [Int.neg_tmod] at h₂
  omega

end Sys2Proof
end

