-- ==== Sys2Proof/Laws/Memory.lean ====
section
/-! SUPPORT. The laws of memory: what a write changes, and that every operation keeps the canonical form
(spec/20_memory.md R62 to R65). -/

namespace Sys2Proof.Machine

theorem Memory.read_erase (m : Memory) (a b : Nat) :
    Memory.read (Memory.erase m a) b = if b = a then 0 else Memory.read m b := by
  induction m with
  | nil => simp [Memory.erase, Memory.read]
  | cons c t ih =>
    obtain ⟨k, w⟩ := c
    unfold Memory.erase at ih ⊢
    by_cases hk : k = a
    · subst hk
      by_cases hb : b = k
      · subst hb; simpa using ih
      · simp only [List.filter_cons, bne_self_eq_false, Bool.false_eq_true, if_false, ih, hb]
        rw [Memory.read, if_neg (fun h => hb h.symm)]
    · by_cases hb : k = b
      · subst hb; simp [Memory.read, hk]
      · simp [Memory.read, hk, hb, ih]

theorem Memory.read_insert (m : Memory) (a : Nat) (v : Word) (b : Nat) (h : Memory.read m a = 0)
    (hm : ∀ c ∈ m, c.1 ≠ a) :
    Memory.read (Memory.insert m a v) b = if b = a then v else Memory.read m b := by
  induction m with
  | nil => simp [Memory.insert, Memory.read, eq_comm]
  | cons c t ih =>
    obtain ⟨k, w⟩ := c
    have hk : k ≠ a := hm (k, w) (by simp)
    rw [Memory.insert]
    by_cases hlt : a < k
    · simp [hlt, Memory.read, eq_comm]
    · simp only [hlt, if_false]
      rw [Memory.read, if_neg hk] at h
      have := ih h (fun c hc => hm c (by simp [hc]))
      by_cases hb : k = b
      · subst hb; simp [Memory.read, hk]
      · simp [Memory.read, hb, this]

theorem Memory.erase_ne (m : Memory) (a : Nat) : ∀ c ∈ Memory.erase m a, c.1 ≠ a := by
  intro c hc
  simp [Memory.erase] at hc
  exact hc.2

/-- A write sets the word at its address and no other (R62, R63). -/
theorem Memory.read_write (m : Memory) (a : Nat) (v : Word) (b : Nat) :
    Memory.read (Memory.write m a v) b = if b = a then v else Memory.read m b := by
  unfold Memory.write
  by_cases hv : v = 0
  · simp [hv, Memory.read_erase]
  · rw [if_neg hv, Memory.read_insert _ _ _ _ (by simp [Memory.read_erase]) (Memory.erase_ne m a),
      Memory.read_erase]
    by_cases hb : b = a <;> simp [hb]

@[simp] theorem Memory.read_write_same (m : Memory) (a : Nat) (v : Word) :
    Memory.read (Memory.write m a v) a = v := by
  simp [Memory.read_write]

@[simp] theorem Memory.read_write_ne (m : Memory) {a b : Nat} (v : Word) (h : b ≠ a) :
    Memory.read (Memory.write m a v) b = Memory.read m b := by
  simp [Memory.read_write, h]

@[simp] theorem Memory.read_nil (a : Nat) : Memory.read [] a = 0 := rfl

/-! ### The canonical form -/

theorem Memory.wfFrom_cons (lo k : Nat) (v : Word) (t : Memory) :
    Memory.wfFrom lo ((k, v) :: t) = true ↔
      lo ≤ k ∧ k ≤ Config.addrMax ∧ v ≠ 0 ∧ Memory.wfFrom (k + 1) t = true := by
  rw [Memory.wfFrom]
  simp [and_assoc]

theorem Memory.wfFrom_mono {lo lo' : Nat} {m : Memory} (h : Memory.wfFrom lo m = true) (hl : lo' ≤ lo) :
    Memory.wfFrom lo' m = true := by
  cases m with
  | nil => rfl
  | cons c t =>
    obtain ⟨k, w⟩ := c
    rw [Memory.wfFrom_cons] at h ⊢
    exact ⟨by omega, h.2⟩

theorem Memory.wfFrom_erase {lo : Nat} {m : Memory} (a : Nat) (h : Memory.wfFrom lo m = true) :
    Memory.wfFrom lo (Memory.erase m a) = true := by
  induction m generalizing lo with
  | nil => rfl
  | cons c t ih =>
    obtain ⟨k, w⟩ := c
    rw [Memory.wfFrom_cons] at h
    obtain ⟨h₁, h₂, h₃, h₄⟩ := h
    unfold Memory.erase at ih ⊢
    by_cases hk : k = a
    · simp only [hk, List.filter_cons, bne_self_eq_false, Bool.false_eq_true, if_false]
      exact Memory.wfFrom_mono (ih (hk ▸ h₄)) (by omega)
    · rw [List.filter_cons_of_pos (by simp [hk]), Memory.wfFrom_cons]
      exact ⟨h₁, h₂, h₃, ih h₄⟩

theorem Memory.wfFrom_insert {lo : Nat} {m : Memory} {a : Nat} {v : Word} (h : Memory.wfFrom lo m = true)
    (hlo : lo ≤ a) (ha : a ≤ Config.addrMax) (hv : v ≠ 0) (hm : ∀ c ∈ m, c.1 ≠ a) :
    Memory.wfFrom lo (Memory.insert m a v) = true := by
  induction m generalizing lo with
  | nil => rw [Memory.insert, Memory.wfFrom_cons]; exact ⟨hlo, ha, hv, rfl⟩
  | cons c t ih =>
    obtain ⟨k, w⟩ := c
    have hk : k ≠ a := hm (k, w) (by simp)
    rw [Memory.wfFrom_cons] at h
    obtain ⟨h₁, h₂, h₃, h₄⟩ := h
    rw [Memory.insert]
    by_cases hlt : a < k
    · rw [if_pos hlt, Memory.wfFrom_cons, Memory.wfFrom_cons]
      exact ⟨hlo, ha, hv, hlt, h₂, h₃, h₄⟩
    · rw [if_neg hlt, Memory.wfFrom_cons]
      exact ⟨h₁, h₂, h₃, ih h₄ (by omega) (fun c hc => hm c (by simp [hc]))⟩

/-- A write in the address space keeps the canonical form. -/
theorem Memory.wf_write {m : Memory} {a : Nat} (v : Word) (h : Memory.wf m = true) (ha : a ≤ Config.addrMax) :
    Memory.wf (Memory.write m a v) = true := by
  unfold Memory.write
  by_cases hv : v = 0
  · rw [if_pos hv]; exact Memory.wfFrom_erase a h
  · rw [if_neg hv]
    exact Memory.wfFrom_insert (Memory.wfFrom_erase a h) (Nat.zero_le a) ha hv (Memory.erase_ne m a)

theorem Memory.wfFrom_ofImage (a : Nat) (ws : List Word) : Memory.wfFrom a (Memory.ofImage a ws) = true := by
  induction ws generalizing a with
  | nil => rfl
  | cons w t ih =>
    rw [Memory.ofImage]
    split
    · exact Memory.wfFrom_mono (ih (a + 1)) (by omega)
    · rename_i h
      have h₁ : w ≠ 0 := fun hw => h (.inl hw)
      have h₂ : a ≤ Config.addrMax := Nat.le_of_not_lt (fun hw => h (.inr hw))
      rw [Memory.wfFrom_cons]
      exact ⟨Nat.le_refl a, h₂, h₁, ih (a + 1)⟩

/-- An image is laid out in canonical form. -/
theorem Memory.wf_ofImage (ws : List Word) : Memory.wf (Memory.ofImage 0 ws) = true :=
  Memory.wfFrom_ofImage 0 ws

/-- What an image reads as (R64). -/
theorem Memory.read_ofImage (a : Nat) (ws : List Word) (b : Nat) (hb : b ≤ Config.addrMax) :
    Memory.read (Memory.ofImage a ws) b = if b < a then 0 else ws.getD (b - a) 0 := by
  induction ws generalizing a with
  | nil => simp [Memory.ofImage]
  | cons w t ih =>
    rw [Memory.ofImage]
    rcases Nat.lt_trichotomy b a with h | h | h
    · have h₁ : b < a + 1 := by omega
      split
      · rw [ih]; simp [h₁]
      · rw [Memory.read, if_neg (by omega), ih]; simp [h₁]
    · subst h
      split
      · rename_i hw
        have : w = 0 := hw.resolve_right (by omega)
        rw [ih]; simp [this]
      · simp [Memory.read]
    · have h₁ : ¬ b < a := by omega
      have h₂ : ¬ b < a + 1 := by omega
      have h₃ : b - a = (b - (a + 1)) + 1 := by omega
      split
      · rw [ih]; simp [h₂, h₃]
      · rw [Memory.read, if_neg (by omega), ih]; simp [h₂, h₃]

/-- Below its least address a canonical memory reads `0`. -/
theorem Memory.read_below {lo : Nat} {m : Memory} (h : Memory.wfFrom lo m = true) {b : Nat} (hb : b < lo) :
    Memory.read m b = 0 := by
  induction m generalizing lo with
  | nil => rfl
  | cons c t ih =>
    obtain ⟨k, w⟩ := c
    rw [Memory.wfFrom_cons] at h
    rw [Memory.read, if_neg (by omega)]
    exact ih h.2.2.2 (by omega)

/-- Two canonical memories that read the same are the same (R65). -/
theorem Memory.ext_of_read {lo : Nat} : ∀ {m m' : Memory}, Memory.wfFrom lo m = true → Memory.wfFrom lo m' = true →
    (∀ a, a ≤ Config.addrMax → Memory.read m a = Memory.read m' a) → m = m' := by
  intro m
  induction m generalizing lo with
  | nil =>
    intro m' _ h' h
    cases m' with
    | nil => rfl
    | cons c t =>
      obtain ⟨k, w⟩ := c
      rw [Memory.wfFrom_cons] at h'
      have := h k h'.2.1
      simp [Memory.read] at this
      exact absurd this.symm h'.2.2.1
  | cons c t ih =>
    intro m' h1 h' h
    obtain ⟨k, w⟩ := c
    have h1' := h1
    rw [Memory.wfFrom_cons] at h1
    cases m' with
    | nil =>
      have := h k h1.2.1
      simp [Memory.read] at this
      exact absurd this h1.2.2.1
    | cons c' t' =>
      obtain ⟨k', w'⟩ := c'
      have h'' := h'
      rw [Memory.wfFrom_cons] at h'
      have hk : k = k' := by
        rcases Nat.lt_trichotomy k k' with hlt | he | hlt
        · exfalso
          have := h k h1.2.1
          rw [Memory.read, if_pos rfl] at this
          have h0 : Memory.read ((k', w') :: t') k = 0 := by
            rw [Memory.read, if_neg (by omega)]; exact Memory.read_below h'.2.2.2 (by omega)
          rw [h0] at this; exact h1.2.2.1 this
        · exact he
        · exfalso
          have := h k' h'.2.1
          rw [Memory.read, if_neg (by omega), Memory.read_below h1.2.2.2 (by omega), Memory.read, if_pos rfl] at this
          exact h'.2.2.1 this.symm
      subst hk
      have hw := h k h1.2.1
      simp [Memory.read] at hw
      subst hw
      congr 1
      apply ih h1.2.2.2 h'.2.2.2
      intro a ha
      have := h a ha
      by_cases hak : k = a
      · subst hak
        rw [Memory.read_below h1.2.2.2 (by omega), Memory.read_below h'.2.2.2 (by omega)]
      · rw [Memory.read, if_neg hak, Memory.read, if_neg hak] at this; exact this

end Sys2Proof.Machine
end

