-- ==== Sys2Proof/Laws/State.lean ====
section
/-! SUPPORT. One lemma per field per update of State, and what instances and ports read as after an update. -/

namespace Sys2Proof.Machine

@[simp] theorem State.setInst_topo (s : State) (k : Nat) (I : Inst) : (s.setInst k I).topo = s.topo := rfl
@[simp] theorem State.setInst_nInst (s : State) (k : Nat) (I : Inst) : (s.setInst k I).nInst = s.nInst := rfl
@[simp] theorem State.setInst_started (s : State) (k : Nat) (I : Inst) : (s.setInst k I).started = s.started := rfl
@[simp] theorem State.setInst_unseededCycle (s : State) (k : Nat) (I : Inst) : (s.setInst k I).unseededCycle = s.unseededCycle := rfl
@[simp] theorem State.setInst_configError (s : State) (k : Nat) (I : Inst) : (s.setInst k I).configError = s.configError := rfl
@[simp] theorem State.setInst_deadlock (s : State) (k : Nat) (I : Inst) : (s.setInst k I).deadlock = s.deadlock := rfl
@[simp] theorem State.setInst_hmode (s : State) (k : Nat) (I : Inst) : (s.setInst k I).hmode = s.hmode := rfl
@[simp] theorem State.setInst_moves (s : State) (k : Nat) (I : Inst) : (s.setInst k I).moves = s.moves := rfl
@[simp] theorem State.setInst_results (s : State) (k : Nat) (I : Inst) : (s.setInst k I).results = s.results := rfl
@[simp] theorem State.setInst_cur (s : State) (k : Nat) (I : Inst) : (s.setInst k I).cur = s.cur := rfl
@[simp] theorem State.setInst_sched (s : State) (k : Nat) (I : Inst) : (s.setInst k I).sched = s.sched := rfl
@[simp] theorem State.setInst_tick (s : State) (k : Nat) (I : Inst) : (s.setInst k I).tick = s.tick := rfl
@[simp] theorem State.setInst_ports (s : State) (k : Nat) (I : Inst) : (s.setInst k I).ports = s.ports := rfl
@[simp] theorem State.setInst_insts (s : State) (k : Nat) (I : Inst) : (s.setInst k I).insts = s.insts.set k I := rfl

@[simp] theorem State.setPort_topo (s : State) (p : Nat) (P : Port) : (s.setPort p P).topo = s.topo := rfl
@[simp] theorem State.setPort_nInst (s : State) (p : Nat) (P : Port) : (s.setPort p P).nInst = s.nInst := rfl
@[simp] theorem State.setPort_started (s : State) (p : Nat) (P : Port) : (s.setPort p P).started = s.started := rfl
@[simp] theorem State.setPort_unseededCycle (s : State) (p : Nat) (P : Port) : (s.setPort p P).unseededCycle = s.unseededCycle := rfl
@[simp] theorem State.setPort_configError (s : State) (p : Nat) (P : Port) : (s.setPort p P).configError = s.configError := rfl
@[simp] theorem State.setPort_deadlock (s : State) (p : Nat) (P : Port) : (s.setPort p P).deadlock = s.deadlock := rfl
@[simp] theorem State.setPort_hmode (s : State) (p : Nat) (P : Port) : (s.setPort p P).hmode = s.hmode := rfl
@[simp] theorem State.setPort_moves (s : State) (p : Nat) (P : Port) : (s.setPort p P).moves = s.moves := rfl
@[simp] theorem State.setPort_results (s : State) (p : Nat) (P : Port) : (s.setPort p P).results = s.results := rfl
@[simp] theorem State.setPort_cur (s : State) (p : Nat) (P : Port) : (s.setPort p P).cur = s.cur := rfl
@[simp] theorem State.setPort_sched (s : State) (p : Nat) (P : Port) : (s.setPort p P).sched = s.sched := rfl
@[simp] theorem State.setPort_tick (s : State) (p : Nat) (P : Port) : (s.setPort p P).tick = s.tick := rfl
@[simp] theorem State.setPort_insts (s : State) (p : Nat) (P : Port) : (s.setPort p P).insts = s.insts := rfl
@[simp] theorem State.setPort_ports (s : State) (p : Nat) (P : Port) : (s.setPort p P).ports = s.ports.set p P := rfl

@[simp] theorem State.raise_topo (s : State) (k : Nat) (c : Cause) : (s.raise k c).topo = s.topo := rfl
@[simp] theorem State.raise_nInst (s : State) (k : Nat) (c : Cause) : (s.raise k c).nInst = s.nInst := rfl
@[simp] theorem State.raise_started (s : State) (k : Nat) (c : Cause) : (s.raise k c).started = s.started := rfl
@[simp] theorem State.raise_unseededCycle (s : State) (k : Nat) (c : Cause) : (s.raise k c).unseededCycle = s.unseededCycle := rfl
@[simp] theorem State.raise_configError (s : State) (k : Nat) (c : Cause) : (s.raise k c).configError = s.configError := rfl
@[simp] theorem State.raise_deadlock (s : State) (k : Nat) (c : Cause) : (s.raise k c).deadlock = s.deadlock := rfl
@[simp] theorem State.raise_hmode (s : State) (k : Nat) (c : Cause) : (s.raise k c).hmode = s.hmode := rfl
@[simp] theorem State.raise_moves (s : State) (k : Nat) (c : Cause) : (s.raise k c).moves = s.moves := rfl
@[simp] theorem State.raise_results (s : State) (k : Nat) (c : Cause) : (s.raise k c).results = s.results := rfl
@[simp] theorem State.raise_cur (s : State) (k : Nat) (c : Cause) : (s.raise k c).cur = s.cur := rfl
@[simp] theorem State.raise_sched (s : State) (k : Nat) (c : Cause) : (s.raise k c).sched = s.sched := rfl
@[simp] theorem State.raise_tick (s : State) (k : Nat) (c : Cause) : (s.raise k c).tick = s.tick := rfl
@[simp] theorem State.raise_ports (s : State) (k : Nat) (c : Cause) : (s.raise k c).ports = s.ports := rfl
@[simp] theorem State.raise_insts (s : State) (k : Nat) (c : Cause) :
    (s.raise k c).insts = s.insts.set k ((s.inst k).fail k c) := rfl

@[simp] theorem State.complete_topo (s : State) (r : Except Cause Inst) : (s.complete r).topo = s.topo := by
  cases r <;> rfl
@[simp] theorem State.complete_nInst (s : State) (r : Except Cause Inst) : (s.complete r).nInst = s.nInst := by
  cases r <;> rfl
@[simp] theorem State.complete_started (s : State) (r : Except Cause Inst) : (s.complete r).started = s.started := by
  cases r <;> rfl
@[simp] theorem State.complete_unseededCycle (s : State) (r : Except Cause Inst) : (s.complete r).unseededCycle = s.unseededCycle := by
  cases r <;> rfl
@[simp] theorem State.complete_configError (s : State) (r : Except Cause Inst) : (s.complete r).configError = s.configError := by
  cases r <;> rfl
@[simp] theorem State.complete_deadlock (s : State) (r : Except Cause Inst) : (s.complete r).deadlock = s.deadlock := by
  cases r <;> rfl
@[simp] theorem State.complete_hmode (s : State) (r : Except Cause Inst) : (s.complete r).hmode = s.hmode := by
  cases r <;> rfl
@[simp] theorem State.complete_moves (s : State) (r : Except Cause Inst) : (s.complete r).moves = s.moves := by
  cases r <;> rfl
@[simp] theorem State.complete_results (s : State) (r : Except Cause Inst) : (s.complete r).results = s.results := by
  cases r <;> rfl
@[simp] theorem State.complete_cur (s : State) (r : Except Cause Inst) : (s.complete r).cur = s.cur := by
  cases r <;> rfl
@[simp] theorem State.complete_sched (s : State) (r : Except Cause Inst) : (s.complete r).sched = s.sched := by
  cases r <;> rfl
@[simp] theorem State.complete_tick (s : State) (r : Except Cause Inst) : (s.complete r).tick = s.tick := by
  cases r <;> rfl
@[simp] theorem State.complete_ports (s : State) (r : Except Cause Inst) : (s.complete r).ports = s.ports := by
  cases r <;> rfl

@[simp] theorem State.enqueue_topo (s : State) (p : Nat) (v : Word) : (s.enqueue p v).topo = s.topo := by
  unfold State.enqueue; split <;> rfl
@[simp] theorem State.enqueue_nInst (s : State) (p : Nat) (v : Word) : (s.enqueue p v).nInst = s.nInst := by
  unfold State.enqueue; split <;> rfl
@[simp] theorem State.enqueue_started (s : State) (p : Nat) (v : Word) : (s.enqueue p v).started = s.started := by
  unfold State.enqueue; split <;> rfl
@[simp] theorem State.enqueue_unseededCycle (s : State) (p : Nat) (v : Word) : (s.enqueue p v).unseededCycle = s.unseededCycle := by
  unfold State.enqueue; split <;> rfl
@[simp] theorem State.enqueue_configError (s : State) (p : Nat) (v : Word) : (s.enqueue p v).configError = s.configError := by
  unfold State.enqueue; split <;> rfl
@[simp] theorem State.enqueue_deadlock (s : State) (p : Nat) (v : Word) : (s.enqueue p v).deadlock = s.deadlock := by
  unfold State.enqueue; split <;> rfl
@[simp] theorem State.enqueue_hmode (s : State) (p : Nat) (v : Word) : (s.enqueue p v).hmode = s.hmode := by
  unfold State.enqueue; split <;> rfl
@[simp] theorem State.enqueue_moves (s : State) (p : Nat) (v : Word) : (s.enqueue p v).moves = s.moves := by
  unfold State.enqueue; split <;> rfl
@[simp] theorem State.enqueue_results (s : State) (p : Nat) (v : Word) : (s.enqueue p v).results = s.results := by
  unfold State.enqueue; split <;> rfl
@[simp] theorem State.enqueue_cur (s : State) (p : Nat) (v : Word) : (s.enqueue p v).cur = s.cur := by
  unfold State.enqueue; split <;> rfl
@[simp] theorem State.enqueue_sched (s : State) (p : Nat) (v : Word) : (s.enqueue p v).sched = s.sched := by
  unfold State.enqueue; split <;> rfl
@[simp] theorem State.enqueue_tick (s : State) (p : Nat) (v : Word) : (s.enqueue p v).tick = s.tick := by
  unfold State.enqueue; split <;> rfl
@[simp] theorem State.enqueue_insts (s : State) (p : Nat) (v : Word) : (s.enqueue p v).insts = s.insts := by
  unfold State.enqueue; split <;> rfl

@[simp] theorem State.dequeue_topo (s : State) (p : Nat) : (s.dequeue p).topo = s.topo := by
  unfold State.dequeue; split <;> rfl
@[simp] theorem State.dequeue_nInst (s : State) (p : Nat) : (s.dequeue p).nInst = s.nInst := by
  unfold State.dequeue; split <;> rfl
@[simp] theorem State.dequeue_started (s : State) (p : Nat) : (s.dequeue p).started = s.started := by
  unfold State.dequeue; split <;> rfl
@[simp] theorem State.dequeue_unseededCycle (s : State) (p : Nat) : (s.dequeue p).unseededCycle = s.unseededCycle := by
  unfold State.dequeue; split <;> rfl
@[simp] theorem State.dequeue_configError (s : State) (p : Nat) : (s.dequeue p).configError = s.configError := by
  unfold State.dequeue; split <;> rfl
@[simp] theorem State.dequeue_deadlock (s : State) (p : Nat) : (s.dequeue p).deadlock = s.deadlock := by
  unfold State.dequeue; split <;> rfl
@[simp] theorem State.dequeue_hmode (s : State) (p : Nat) : (s.dequeue p).hmode = s.hmode := by
  unfold State.dequeue; split <;> rfl
@[simp] theorem State.dequeue_moves (s : State) (p : Nat) : (s.dequeue p).moves = s.moves := by
  unfold State.dequeue; split <;> rfl
@[simp] theorem State.dequeue_results (s : State) (p : Nat) : (s.dequeue p).results = s.results := by
  unfold State.dequeue; split <;> rfl
@[simp] theorem State.dequeue_cur (s : State) (p : Nat) : (s.dequeue p).cur = s.cur := by
  unfold State.dequeue; split <;> rfl
@[simp] theorem State.dequeue_sched (s : State) (p : Nat) : (s.dequeue p).sched = s.sched := by
  unfold State.dequeue; split <;> rfl
@[simp] theorem State.dequeue_tick (s : State) (p : Nat) : (s.dequeue p).tick = s.tick := by
  unfold State.dequeue; split <;> rfl
@[simp] theorem State.dequeue_insts (s : State) (p : Nat) : (s.dequeue p).insts = s.insts := by
  unfold State.dequeue; split <;> rfl

@[simp] theorem State.closePort_topo (s : State) (p : Nat) : (s.closePort p).topo = s.topo := by
  unfold State.closePort; split <;> rfl
@[simp] theorem State.closePort_nInst (s : State) (p : Nat) : (s.closePort p).nInst = s.nInst := by
  unfold State.closePort; split <;> rfl
@[simp] theorem State.closePort_started (s : State) (p : Nat) : (s.closePort p).started = s.started := by
  unfold State.closePort; split <;> rfl
@[simp] theorem State.closePort_unseededCycle (s : State) (p : Nat) : (s.closePort p).unseededCycle = s.unseededCycle := by
  unfold State.closePort; split <;> rfl
@[simp] theorem State.closePort_configError (s : State) (p : Nat) : (s.closePort p).configError = s.configError := by
  unfold State.closePort; split <;> rfl
@[simp] theorem State.closePort_deadlock (s : State) (p : Nat) : (s.closePort p).deadlock = s.deadlock := by
  unfold State.closePort; split <;> rfl
@[simp] theorem State.closePort_hmode (s : State) (p : Nat) : (s.closePort p).hmode = s.hmode := by
  unfold State.closePort; split <;> rfl
@[simp] theorem State.closePort_moves (s : State) (p : Nat) : (s.closePort p).moves = s.moves := by
  unfold State.closePort; split <;> rfl
@[simp] theorem State.closePort_results (s : State) (p : Nat) : (s.closePort p).results = s.results := by
  unfold State.closePort; split <;> rfl
@[simp] theorem State.closePort_cur (s : State) (p : Nat) : (s.closePort p).cur = s.cur := by
  unfold State.closePort; split <;> rfl
@[simp] theorem State.closePort_sched (s : State) (p : Nat) : (s.closePort p).sched = s.sched := by
  unfold State.closePort; split <;> rfl
@[simp] theorem State.closePort_tick (s : State) (p : Nat) : (s.closePort p).tick = s.tick := by
  unfold State.closePort; split <;> rfl
@[simp] theorem State.closePort_insts (s : State) (p : Nat) : (s.closePort p).insts = s.insts := by
  unfold State.closePort; split <;> rfl

@[simp] theorem State.release_topo (s : State) (src : Producer) : (s.release src).topo = s.topo := by
  cases src <;> rfl
@[simp] theorem State.release_nInst (s : State) (src : Producer) : (s.release src).nInst = s.nInst := by
  cases src <;> rfl
@[simp] theorem State.release_started (s : State) (src : Producer) : (s.release src).started = s.started := by
  cases src <;> rfl
@[simp] theorem State.release_unseededCycle (s : State) (src : Producer) : (s.release src).unseededCycle = s.unseededCycle := by
  cases src <;> rfl
@[simp] theorem State.release_configError (s : State) (src : Producer) : (s.release src).configError = s.configError := by
  cases src <;> rfl
@[simp] theorem State.release_deadlock (s : State) (src : Producer) : (s.release src).deadlock = s.deadlock := by
  cases src <;> rfl
@[simp] theorem State.release_moves (s : State) (src : Producer) : (s.release src).moves = s.moves := by
  cases src <;> rfl
@[simp] theorem State.release_results (s : State) (src : Producer) : (s.release src).results = s.results := by
  cases src <;> rfl
@[simp] theorem State.release_cur (s : State) (src : Producer) : (s.release src).cur = s.cur := by
  cases src <;> rfl
@[simp] theorem State.release_sched (s : State) (src : Producer) : (s.release src).sched = s.sched := by
  cases src <;> rfl
@[simp] theorem State.release_tick (s : State) (src : Producer) : (s.release src).tick = s.tick := by
  cases src <;> rfl
@[simp] theorem State.release_ports (s : State) (src : Producer) : (s.release src).ports = s.ports := by
  cases src <;> rfl

@[simp] theorem State.deliver_topo (s : State) (p : Nat) (dst : Consumer) (v : Word) : (s.deliver p dst v).topo = s.topo := by
  cases dst <;> rfl
@[simp] theorem State.deliver_nInst (s : State) (p : Nat) (dst : Consumer) (v : Word) : (s.deliver p dst v).nInst = s.nInst := by
  cases dst <;> rfl
@[simp] theorem State.deliver_started (s : State) (p : Nat) (dst : Consumer) (v : Word) : (s.deliver p dst v).started = s.started := by
  cases dst <;> rfl
@[simp] theorem State.deliver_unseededCycle (s : State) (p : Nat) (dst : Consumer) (v : Word) : (s.deliver p dst v).unseededCycle = s.unseededCycle := by
  cases dst <;> rfl
@[simp] theorem State.deliver_configError (s : State) (p : Nat) (dst : Consumer) (v : Word) : (s.deliver p dst v).configError = s.configError := by
  cases dst <;> rfl
@[simp] theorem State.deliver_deadlock (s : State) (p : Nat) (dst : Consumer) (v : Word) : (s.deliver p dst v).deadlock = s.deadlock := by
  cases dst <;> rfl
@[simp] theorem State.deliver_moves (s : State) (p : Nat) (dst : Consumer) (v : Word) : (s.deliver p dst v).moves = s.moves := by
  cases dst <;> rfl
@[simp] theorem State.deliver_cur (s : State) (p : Nat) (dst : Consumer) (v : Word) : (s.deliver p dst v).cur = s.cur := by
  cases dst <;> rfl
@[simp] theorem State.deliver_sched (s : State) (p : Nat) (dst : Consumer) (v : Word) : (s.deliver p dst v).sched = s.sched := by
  cases dst <;> rfl
@[simp] theorem State.deliver_tick (s : State) (p : Nat) (dst : Consumer) (v : Word) : (s.deliver p dst v).tick = s.tick := by
  cases dst <;> rfl
@[simp] theorem State.deliver_ports (s : State) (p : Nat) (dst : Consumer) (v : Word) : (s.deliver p dst v).ports = s.ports := by
  cases dst <;> rfl

@[simp] theorem State.begin_topo (s : State) (a : Agent) : (s.begin a).topo = s.topo := rfl
@[simp] theorem State.begin_nInst (s : State) (a : Agent) : (s.begin a).nInst = s.nInst := rfl
@[simp] theorem State.begin_started (s : State) (a : Agent) : (s.begin a).started = s.started := rfl
@[simp] theorem State.begin_unseededCycle (s : State) (a : Agent) : (s.begin a).unseededCycle = s.unseededCycle := rfl
@[simp] theorem State.begin_configError (s : State) (a : Agent) : (s.begin a).configError = s.configError := rfl
@[simp] theorem State.begin_deadlock (s : State) (a : Agent) : (s.begin a).deadlock = s.deadlock := rfl
@[simp] theorem State.begin_hmode (s : State) (a : Agent) : (s.begin a).hmode = s.hmode := rfl
@[simp] theorem State.begin_moves (s : State) (a : Agent) : (s.begin a).moves = s.moves := rfl
@[simp] theorem State.begin_results (s : State) (a : Agent) : (s.begin a).results = s.results := rfl
@[simp] theorem State.begin_insts (s : State) (a : Agent) : (s.begin a).insts = s.insts := rfl
@[simp] theorem State.begin_ports (s : State) (a : Agent) : (s.begin a).ports = s.ports := rfl
@[simp] theorem State.begin_cur (s : State) (k : Nat) : (s.begin (.inst k)).cur = k := rfl
@[simp] theorem State.begin_sched (s : State) (a : Agent) : (s.begin a).sched = s.sched.tail := rfl
@[simp] theorem State.begin_tick (s : State) (a : Agent) : (s.begin a).tick = s.tick + 1 := rfl

/-! ### Instances and ports after an update -/

theorem State.inst_eq_getElem (s : State) (k : Nat) : s.inst k = (s.insts[k]?).getD Inst.fresh := by
  simp [State.inst]

theorem State.inst_of_getElem? {s : State} {k : Nat} {I : Inst} (h : s.insts[k]? = some I) : s.inst k = I := by
  simp [State.inst, h]

theorem State.getElem?_inst {s : State} {k : Nat} (h : k < s.insts.length) : s.insts[k]? = some (s.inst k) := by
  simp [State.inst, h]

theorem State.inst_ge {s : State} {k : Nat} (h : s.insts.length ≤ k) : s.inst k = Inst.fresh := by
  simp [State.inst, h]

/-- An instance that is not fresh exists. -/
theorem State.lt_of_status {s : State} {k : Nat} (h : (s.inst k).status ≠ .idle) : k < s.insts.length := by
  by_contra hk
  exact h (by rw [State.inst_ge (Nat.le_of_not_lt hk)]; rfl)

theorem State.inst_congr {s t : State} (h : t.insts = s.insts) (k : Nat) : t.inst k = s.inst k := by
  simp [State.inst, h]

theorem State.port_congr {s t : State} (h : t.ports = s.ports) (p : Nat) : t.port p = s.port p := by
  simp [State.port, h]

@[simp] theorem State.inst_setInst_self (s : State) (k : Nat) (I : Inst) (h : k < s.insts.length) :
    (s.setInst k I).inst k = I := by
  simp [State.inst, h]

@[simp] theorem State.inst_setInst_ne (s : State) {k j : Nat} (I : Inst) (h : j ≠ k) :
    (s.setInst k I).inst j = s.inst j := by
  simp [State.inst, h.symm]

@[simp] theorem State.setInst_inst (s : State) (k : Nat) : s.setInst k (s.inst k) = s := by
  have h : s.insts.set k (s.inst k) = s.insts := by
    apply List.ext_getElem?
    intro j
    by_cases hj : k = j
    · subst hj
      by_cases hk : k < s.insts.length
      · simp [State.inst, hk]
      · simp [hk]
    · simp [hj]
  simp [State.setInst, h]

@[simp] theorem State.inst_setPort (s : State) (p : Nat) (P : Port) (k : Nat) : (s.setPort p P).inst k = s.inst k := rfl
@[simp] theorem State.port_setInst (s : State) (k : Nat) (I : Inst) (p : Nat) : (s.setInst k I).port p = s.port p := rfl
@[simp] theorem State.port_raise (s : State) (k : Nat) (c : Cause) (p : Nat) : (s.raise k c).port p = s.port p := rfl
@[simp] theorem State.inst_begin (s : State) (a : Agent) (k : Nat) : (s.begin a).inst k = s.inst k := rfl
@[simp] theorem State.port_begin (s : State) (a : Agent) (p : Nat) : (s.begin a).port p = s.port p := rfl
@[simp] theorem State.self_begin (s : State) (k : Nat) : (s.begin (.inst k)).self = s.inst k := rfl

@[simp] theorem State.inst_enqueue (s : State) (p : Nat) (v : Word) (k : Nat) : (s.enqueue p v).inst k = s.inst k :=
  State.inst_congr (by simp) k
@[simp] theorem State.inst_dequeue (s : State) (p : Nat) (k : Nat) : (s.dequeue p).inst k = s.inst k :=
  State.inst_congr (by simp) k
@[simp] theorem State.inst_closePort (s : State) (p : Nat) (k : Nat) : (s.closePort p).inst k = s.inst k :=
  State.inst_congr (by simp) k

theorem State.lt_of_port {s : State} {p : Nat} {P : Port} (h : s.port p = some P) : p < s.ports.length := by
  unfold State.port at h
  by_contra hp
  rw [List.getElem?_eq_none (Nat.le_of_not_lt hp)] at h
  cases h

theorem State.port_setPort_self {s : State} {p : Nat} {P : Port} (h : s.port p = some P) (Q : Port) :
    (s.setPort p Q).port p = some Q := by
  have := State.lt_of_port h
  simp [State.port, this]

@[simp] theorem State.port_setPort_ne (s : State) {p q : Nat} (Q : Port) (h : q ≠ p) :
    (s.setPort p Q).port q = s.port q := by
  simp [State.port, h.symm]

/-- What the ports read as after a push into a queue. -/
theorem State.port_enqueue (s : State) (p : Nat) (v : Word) (j : Nat) :
    (s.enqueue p v).port j = if j = p then (s.port p).map (fun P => { P with q := P.q ++ [v] }) else s.port j := by
  unfold State.enqueue
  cases hp : s.port p with
  | none => by_cases hj : j = p <;> simp [hj, hp]
  | some P =>
    by_cases hj : j = p
    · subst hj; simp [State.port_setPort_self hp]
    · simp [hj]

/-- What the ports read as after the oldest value is dropped. -/
theorem State.port_dequeue (s : State) (p : Nat) (j : Nat) :
    (s.dequeue p).port j = if j = p then (s.port p).map (fun P => { P with q := P.q.tail }) else s.port j := by
  unfold State.dequeue
  cases hp : s.port p with
  | none => by_cases hj : j = p <;> simp [hj, hp]
  | some P =>
    by_cases hj : j = p
    · subst hj; simp [State.port_setPort_self hp]
    · simp [hj]

/-- What the ports read as after a close. -/
theorem State.port_closePort (s : State) (p : Nat) (j : Nat) :
    (s.closePort p).port j = if j = p then (s.port p).map (fun P => { P with closed := true }) else s.port j := by
  unfold State.closePort
  cases hp : s.port p with
  | none => by_cases hj : j = p <;> simp [hj, hp]
  | some P =>
    by_cases hj : j = p
    · subst hj; simp [State.port_setPort_self hp]
    · simp [hj]

end Sys2Proof.Machine
end

