-- ==== Sys2Proof/Laws/Operands.lean ====
section
/-! SUPPORT. What the operand operations answer (spec/30_encoding.md R83 to R92). -/

namespace Sys2Proof.Machine

@[simp] theorem ok_bind {α β : Type} (a : α) (f : α → Except Cause β) : (Except.ok a >>= f) = f a := rfl
@[simp] theorem error_bind {α β : Type} (c : Cause) (f : α → Except Cause β) :
    ((Except.error c : Except Cause α) >>= f) = .error c := rfl
@[simp] theorem pure_eq_ok {α : Type} (a : α) : (pure a : Except Cause α) = .ok a := rfl

theorem checkAddress_neg {a : Word} (param : Option Nat) (h : a.toInt < 0) :
    checkAddress param a = .error (.negativeAddress a param) := by
  simp [checkAddress, h]

theorem checkAddress_nonneg {a : Word} (param : Option Nat) (h : 0 ≤ a.toInt) :
    checkAddress param a = .ok a.toNat := by
  simp [checkAddress, Int.not_lt.mpr h]

/-- An address that is accepted lies in the address space (20_memory R61). -/
theorem checkAddress_le {param : Option Nat} {a : Word} {cell : Nat} (h : checkAddress param a = .ok cell) :
    cell ≤ Config.addrMax := by
  unfold checkAddress at h
  split at h
  · cases h
  · rename_i hn
    cases h
    exact toNat_le_addrMax hn

theorem Inst.memRead_neg (I : Inst) {a : Word} (param : Option Nat) (h : a.toInt < 0) :
    I.memRead param a = .error (.negativeAddress a param) := by
  simp [Inst.memRead, checkAddress_neg param h]

theorem Inst.memRead_nonneg (I : Inst) {a : Word} (param : Option Nat) (h : 0 ≤ a.toInt) :
    I.memRead param a = .ok (Memory.read I.mem a.toNat) := by
  simp [Inst.memRead, checkAddress_nonneg param h, ok_bind, pure_eq_ok]

/-- The destination of a write-target parameter lies in the address space. -/
theorem Inst.writeAddr_le {I : Inst} {i : Nat} {m : Mode} {ea : Nat} (h : I.writeAddr i m = .ok ea) :
    ea ≤ Config.addrMax := by
  unfold Inst.writeAddr at h
  cases hr : I.rawParam i with
  | error c => simp [hr] at h
  | ok raw =>
    cases m with
    | position => simp [hr] at h; exact checkAddress_le h
    | immediate => simp [hr] at h
    | relative => simp [hr] at h; exact checkAddress_le h

theorem Inst.nextPc_one (I : Inst) : I.nextPc 1 = wrap64 (I.pc.toInt + 2) := by
  unfold Inst.nextPc
  congr 1
  omega

theorem Inst.nextPc_two (I : Inst) : I.nextPc 2 = wrap64 (I.pc.toInt + 3) := by
  unfold Inst.nextPc
  congr 1
  omega

theorem Inst.nextPc_three (I : Inst) : I.nextPc 3 = wrap64 (I.pc.toInt + 4) := by
  unfold Inst.nextPc
  congr 1
  omega

theorem Inst.fetchInstr_neg {I : Inst} (h : I.pc.toInt < 0) :
    I.fetchInstr = .error (.negativeAddress I.pc none) := by
  simp [Inst.fetchInstr, Inst.fetch, Inst.memRead_neg I none h]

theorem Inst.fetchInstr_nonneg {I : Inst} (h : 0 ≤ I.pc.toInt) :
    I.fetchInstr = match decode (Memory.read I.mem I.pc.toNat) with
      | .ok i => .ok i
      | .error d => .error (causeOfDecode d) := by
  simp only [Inst.fetchInstr, Inst.fetch, Inst.memRead_nonneg I none h, ok_bind, pure_eq_ok] <;> rfl

/-- The fetch and decode deliver `i` exactly when the word at `pc` decodes to it. -/
theorem Inst.fetchInstr_ok_iff (I : Inst) (i : Instr) :
    I.fetchInstr = .ok i ↔ 0 ≤ I.pc.toInt ∧ decode (Memory.read I.mem I.pc.toNat) = .ok i := by
  by_cases h : 0 ≤ I.pc.toInt
  · rw [Inst.fetchInstr_nonneg h]
    cases decode (Memory.read I.mem I.pc.toNat) <;> simp [h]
  · rw [Inst.fetchInstr_neg (by omega)]
    simp [h]

/-- An instance at IN, as the readiness rule computes it. -/
theorem Inst.inTarget_eq_some (I : Inst) (ea : Nat) : I.inTarget = some ea ↔ AtIn I ea := by
  unfold Inst.inTarget AtIn
  constructor
  · intro h
    cases hf : I.fetchInstr with
    | error c => simp [hf] at h
    | ok i =>
      have hi := (Inst.fetchInstr_ok_iff I i).mp hf
      cases i <;> simp [hf, inMode] at h
      rename_i m0 m1 m2
      cases hw : I.writeAddr 0 m0 with
      | error c => simp [hw] at h
      | ok e => simp [hw] at h; subst h; exact ⟨hi.1, m0, m1, m2, hi.2, hw⟩
  · rintro ⟨hp, m0, m1, m2, hd, hw⟩
    simp [(Inst.fetchInstr_ok_iff I _).mpr ⟨hp, hd⟩, inMode, hw]

/-- An instance at OUT, as the readiness rule computes it. -/
theorem Inst.outValue_eq_some (I : Inst) (v : Word) : I.outValue = some v ↔ AtOut I v := by
  unfold Inst.outValue AtOut
  constructor
  · intro h
    cases hf : I.fetchInstr with
    | error c => simp [hf] at h
    | ok i =>
      have hi := (Inst.fetchInstr_ok_iff I i).mp hf
      cases i <;> simp [hf, outMode] at h
      rename_i m0 m1 m2
      cases hw : I.readParam 0 m0 with
      | error c => simp [hw] at h
      | ok e => simp [hw] at h; subst h; exact ⟨hi.1, m0, m1, m2, hi.2, hw⟩
  · rintro ⟨hp, m0, m1, m2, hd, hw⟩
    simp [(Inst.fetchInstr_ok_iff I _).mpr ⟨hp, hd⟩, outMode, hw]

/-- No instance is at IN and at OUT. -/
theorem AtIn.not_atOut {I : Inst} {ea : Nat} (h : AtIn I ea) (v : Word) : ¬ AtOut I v := by
  rintro ⟨_, m0, m1, m2, hd, _⟩
  obtain ⟨_, n0, n1, n2, hd', _⟩ := h
  rw [hd] at hd'
  cases hd'

theorem AtIn.outValue_none {I : Inst} {ea : Nat} (h : AtIn I ea) : I.outValue = none := by
  cases ho : I.outValue with
  | none => rfl
  | some v => exact absurd ((Inst.outValue_eq_some I v).mp ho) (h.not_atOut v)

theorem AtOut.inTarget_none {I : Inst} {v : Word} (h : AtOut I v) : I.inTarget = none := by
  cases hi : I.inTarget with
  | none => rfl
  | some ea => exact absurd h (((Inst.inTarget_eq_some I ea).mp hi).not_atOut v)

end Sys2Proof.Machine
end

