-- ==== Sys2Proof/Laws/Ports.lean ====
section
/-! SUPPORT. What the port IPC controller answers (spec/41_port_io.md R140 to R148), and when an agent is enabled. -/

namespace Sys2Proof.Machine

theorem Inst.terminated_iff (I : Inst) : I.terminated = true ↔ I.status = .halted ∨ I.status = .faulted := by
  simp [Inst.terminated]

theorem State.hostPops_iff (s : State) (P : Port) : s.hostPops P = true ↔
    P.cons = .host ∨ ∃ k, P.cons = .inst k ∧ ((s.inst k).status = .halted ∨ (s.inst k).status = .faulted) := by
  unfold State.hostPops
  cases hc : P.cons <;> simp [Inst.terminated_iff]

theorem hostPushes_iff (P : Port) : hostPushes P = true ↔ P.prod = .host := by
  simp [hostPushes]

/-- A ready consumer instance (R140). -/
theorem State.readyConsumer_inst_iff (s : State) (p : Nat) (P : Port) (k ea : Nat) :
    s.readyConsumer p P = some (.inst k ea) ↔
      P.cons = .inst k ∧ (s.inst k).status = .running ∧ (s.inst k).inPort = p ∧ AtIn (s.inst k) ea := by
  rw [← Inst.inTarget_eq_some]
  unfold State.readyConsumer
  constructor
  · intro h
    split at h
    · cases h
    · split at h
      · cases h
      · rename_i j hc
        split at h
        · rename_i hr
          cases hi : (s.inst j).inTarget with
          | none => simp [hi] at h
          | some e => simp [hi] at h; obtain ⟨rfl, rfl⟩ := h; exact ⟨hc, hr.1, hr.2, hi⟩
        · cases h
  · rintro ⟨hc, hr, hp, hi⟩
    have hh : s.hostPops P ≠ true := by
      rw [Ne, State.hostPops_iff]; simp [hc, hr]
    simp [hh, hc, hr, hp, hi]

/-- The host as ready consumer (R140, 60_exceptions R283). -/
theorem State.readyConsumer_host_iff (s : State) (p : Nat) (P : Port) :
    s.readyConsumer p P = some .host ↔ s.hmode = .waitPop p ∧ s.hostPops P = true := by
  unfold State.readyConsumer
  constructor
  · intro h
    split at h
    · assumption
    · split at h
      · cases h
      · split at h
        · simp at h
        · cases h
  · intro h; simp [h]

theorem HostMode.offer_iff (h : HostMode) (p : Nat) (v : Word) : h.offer p = some v ↔ h = .waitPush p v := by
  cases h <;> simp [HostMode.offer]

/-- A ready producer instance (R140). -/
theorem State.readyProducer_inst_iff (s : State) (p : Nat) (P : Port) (k : Nat) (v : Word) :
    s.readyProducer p P = some (.inst k, v) ↔
      P.prod = .inst k ∧ (s.inst k).status = .running ∧ (s.inst k).outPort = p ∧ AtOut (s.inst k) v := by
  rw [← Inst.outValue_eq_some]
  unfold State.readyProducer
  constructor
  · intro h
    split at h
    · simp at h
    · rename_i j hc
      split at h
      · rename_i hr
        cases hi : (s.inst j).outValue with
        | none => simp [hi] at h
        | some e => simp [hi] at h; obtain ⟨rfl, rfl⟩ := h; exact ⟨hc, hr.1, hr.2, hi⟩
      · cases h
  · rintro ⟨hc, hr, hp, hi⟩
    simp [hc, hr, hp, hi]

/-- The host as ready producer (R140). -/
theorem State.readyProducer_host_iff (s : State) (p : Nat) (P : Port) (v : Word) :
    s.readyProducer p P = some (.host, v) ↔ P.prod = .host ∧ s.hmode = .waitPush p v := by
  rw [← HostMode.offer_iff]
  unfold State.readyProducer
  cases hc : P.prod with
  | host => cases ho : s.hmode.offer p <;> simp
  | inst j => by_cases hr : (s.inst j).status = .running ∧ (s.inst j).outPort = p <;> simp [hr]

/-! ### What a pop or a push that completes says of the port -/

theorem State.popHow_queued {s : State} {p : Nat} {v : Word} (h : s.popHow p = .queued v) :
    ∃ P rest, s.port p = some P ∧ P.q = v :: rest := by
  unfold State.popHow at h
  cases hp : s.port p with
  | none => simp [hp] at h
  | some P =>
    cases hq : P.q with
    | nil =>
      simp only [hp, hq] at h
      split at h
      · cases h
      · split at h
        · split at h <;> cases h
        · cases h
    | cons w rest => simp [hp, hq] at h; exact ⟨P, rest, rfl, by rw [hq, h]⟩

theorem State.popHow_rendezvous {s : State} {p : Nat} {src : Producer} {v : Word}
    (h : s.popHow p = .rendezvous src v) :
    ∃ P, s.port p = some P ∧ P.q = [] ∧ P.closed = false ∧ P.cap = 0 ∧ s.readyProducer p P = some (src, v) := by
  unfold State.popHow at h
  cases hp : s.port p with
  | none => simp [hp] at h
  | some P =>
    cases hq : P.q with
    | cons w rest => simp [hp, hq] at h
    | nil =>
      simp only [hp, hq] at h
      split at h
      · cases h
      · split at h
        · split at h
          · rename_i hc _ _ _ _ hr
            cases h
            exact ⟨P, rfl, hq, by simpa using hc, by assumption, hr⟩
          · cases h
        · cases h

theorem State.popHow_endOfStream {s : State} {p : Nat} (h : s.popHow p = .endOfStream) :
    ∃ P, s.port p = some P ∧ P.q = [] ∧ P.closed = true := by
  unfold State.popHow at h
  cases hp : s.port p with
  | none => simp [hp] at h
  | some P =>
    cases hq : P.q with
    | cons w rest => simp [hp, hq] at h
    | nil =>
      simp only [hp, hq] at h
      split at h
      · exact ⟨P, rfl, hq, by assumption⟩
      · split at h
        · split at h <;> cases h
        · cases h

theorem State.pushHow_buffered {s : State} {p : Nat} (h : s.pushHow p = .buffered) :
    ∃ P, s.port p = some P ∧ P.q.length < P.cap := by
  unfold State.pushHow at h
  cases hp : s.port p with
  | none => simp [hp] at h
  | some P =>
    simp only [hp] at h
    split at h
    · split at h
      · exact ⟨P, rfl, by assumption⟩
      · cases h
    · split at h
      · cases h
      · split at h <;> cases h

theorem State.pushHow_rendezvous {s : State} {p : Nat} {dst : Consumer} (h : s.pushHow p = .rendezvous dst) :
    ∃ P, s.port p = some P ∧ P.cap = 0 ∧ P.closed = false ∧ s.readyConsumer p P = some dst := by
  unfold State.pushHow at h
  cases hp : s.port p with
  | none => simp [hp] at h
  | some P =>
    simp only [hp] at h
    split at h
    · split at h <;> cases h
    · rename_i hcap
      split at h
      · cases h
      · rename_i hc
        split at h
        · rename_i hr
          cases h
          exact ⟨P, rfl, by omega, by simpa using hc, hr⟩
        · cases h

/-! ### Being held and having a step -/

theorem State.canStep_iff (s : State) (k : Nat) :
    s.canStep k = true ↔ (s.inst k).status = .running ∧ s.held k = false := by
  simp [State.canStep]

theorem State.held_iff (s : State) (k : Nat) : s.held k = true ↔ (s.inst k).status = .running ∧
    ((∃ ea, AtIn (s.inst k) ea ∧ s.popHow (s.inst k).inPort = .notReady) ∨
     ∃ v, AtOut (s.inst k) v ∧ s.pushHow (s.inst k).outPort = .notReady) := by
  simp only [← Inst.inTarget_eq_some, ← Inst.outValue_eq_some]
  simp [State.held, Option.isSome_iff_exists]

theorem State.mem_enabledAgents (s : State) (a : Agent) : a ∈ s.enabledAgents ↔ s.agentEnabled a = true := by
  unfold State.enabledAgents
  rw [List.mem_filter]
  constructor
  · exact fun h => h.2
  · intro h
    refine ⟨?_, h⟩
    cases a with
    | inst k =>
      simp [State.agentEnabled] at h
      simp [State.ids, h.1]
    | hostMove => simp
    | hostWait => simp
    | arbiter => simp

theorem freeChoice_mem {tick : Nat} {agents : List Agent} {a : Agent} (h : freeChoice tick agents = some a) :
    a ∈ agents := by
  match agents with
  | [] => simp [freeChoice] at h
  | [b] => simp [freeChoice] at h; simp [h]
  | b :: c :: rest =>
    have hlt : Config.schedule tick % (rest.length + 2) < (b :: c :: rest).length := by
      simp only [List.length_cons]
      exact Nat.mod_lt _ (by omega)
    simp only [freeChoice, Option.some.injEq] at h
    rw [List.getD_eq_getElem _ _ hlt] at h
    rw [← h]
    exact List.getElem_mem hlt

theorem freeChoice_none {tick : Nat} {agents : List Agent} (h : freeChoice tick agents = none) : agents = [] := by
  match agents with
  | [] => rfl
  | [b] => simp [freeChoice] at h
  | b :: c :: rest => simp [freeChoice] at h

/-- The picked agent has an enabled step. -/
theorem State.pick_enabled {s : State} {a : Agent} (h : s.pick = some a) : s.agentEnabled a = true := by
  rw [← State.mem_enabledAgents]
  unfold State.pick at h
  split at h
  · exact freeChoice_mem h
  · split at h
    · cases h; assumption
    · exact freeChoice_mem h

theorem State.pick_none {s : State} (h : s.pick = none) (a : Agent) : s.agentEnabled a = false := by
  have : s.enabledAgents = [] := by
    unfold State.pick at h
    split at h
    · exact freeChoice_none h
    · split at h
      · cases h
      · exact freeChoice_none h
  have hm := State.mem_enabledAgents s a
  rw [this] at hm
  simpa using hm

theorem State.agentEnabled_inst (s : State) (k : Nat) :
    s.agentEnabled (.inst k) = true ↔ k < s.nInst ∧ (s.inst k).status = .running ∧ s.held k = false := by
  simp [State.agentEnabled, State.canStep]

end Sys2Proof.Machine
end

