-- ==== Sys2Proof/Laws/Exec.lean ====
section
/-! SUPPORT. Everything an instruction can do, said once: `exec_effect`. Claims about all instructions split on it instead
of unfolding the meanings. -/

namespace Sys2Proof.Machine

/-- The effects of an instruction `i` of the executing instance. -/
inductive Effect (i : Instr) (s : State) : State → Prop where
  /-- It completes on the executing instance alone. -/
  | completes (I : Inst) (status : I.status = s.self.status) (frec : I.frec = s.self.frec)
      (bindings : SameBindings s.self I)
      (mem : I.mem = s.self.mem ∨ ∃ ea v, ea ≤ Config.addrMax ∧ I.mem = Memory.write s.self.mem ea v)
      (rb : I.rb = s.self.rb ∨ ∃ m0 m1 m2 a, i = .arb m0 m1 m2 ∧ s.self.readParam 0 m0 = .ok a ∧
        I.rb = wrap64 (s.self.rb.toInt + a.toInt)) : Effect i s (s.setInst s.cur I)
  /-- It takes a fault. -/
  | faults (c : Cause) (pc : (c.toRecord s.self.pc s.cur).pc = some s.self.pc) : Effect i s (s.raise s.cur c)
  /-- It is held. -/
  | holds : Effect i s s
  /-- IN takes the oldest value of its port. -/
  | takesQueued (ea : Nat) (v : Word) (P : Port) (rest : List Word) (le : ea ≤ Config.addrMax)
      (port : s.port s.self.inPort = some P) (q : P.q = v :: rest) :
      Effect i s ((s.dequeue s.self.inPort).deliver s.self.inPort (.inst s.cur ea) v)
  /-- IN takes a value in a rendezvous. -/
  | takesHanded (ea : Nat) (v : Word) (P : Port) (src : Producer) (le : ea ≤ Config.addrMax)
      (port : s.port s.self.inPort = some P) (ready : s.readyProducer s.self.inPort P = some (src, v)) :
      Effect i s ((s.release src).deliver s.self.inPort (.inst s.cur ea) v)
  /-- OUT puts its value into a buffer with room. -/
  | givesBuffered (v : Word) (P : Port) (port : s.port s.self.outPort = some P) (room : P.q.length < P.cap) :
      Effect i s ((s.release (.inst s.cur)).enqueue s.self.outPort v)
  /-- OUT hands its value over in a rendezvous. -/
  | givesHanded (v : Word) (P : Port) (dst : Consumer) (port : s.port s.self.outPort = some P)
      (is_out : i.op = .out) (ready : s.readyConsumer s.self.outPort P = some dst) :
      Effect i s ((s.release (.inst s.cur)).deliver s.self.outPort dst v)
  /-- HLT. -/
  | halts (m0 m1 m2 : Mode) (is_hlt : i = .hlt m0 m1 m2) :
      Effect i s ((s.closePort s.self.outPort).setInst s.cur { s.self with status := .halted })

/-! ### The causes of an instruction's faults record its `pc` -/

theorem checkAddress_error {param : Option Nat} {a : Word} {c : Cause} (h : checkAddress param a = .error c) :
    c = .negativeAddress a param := by
  unfold checkAddress at h
  split at h
  · cases h; rfl
  · cases h

theorem Inst.memRead_error {I : Inst} {param : Option Nat} {a : Word} {c : Cause}
    (h : I.memRead param a = .error c) : c = .negativeAddress a param := by
  unfold Inst.memRead at h
  cases hc : checkAddress param a with
  | error c' => simp [hc] at h; rw [← h]; exact checkAddress_error hc
  | ok cell => simp [hc] at h

theorem Inst.readParam_error_pc {I : Inst} {i : Nat} {m : Mode} {c : Cause} (h : I.readParam i m = .error c)
    (pc : Word) (k : Nat) : (c.toRecord pc k).pc = some pc := by
  unfold Inst.readParam at h
  cases hr : I.rawParam i with
  | error c' =>
    simp [hr] at h; subst h
    rw [Inst.memRead_error hr]; rfl
  | ok raw =>
    cases m with
    | position => simp [hr] at h; rw [Inst.memRead_error h]; rfl
    | immediate => simp [hr] at h
    | relative => simp [hr] at h; rw [Inst.memRead_error h]; rfl

theorem Inst.writeAddr_error_pc {I : Inst} {i : Nat} {m : Mode} {c : Cause} (h : I.writeAddr i m = .error c)
    (pc : Word) (k : Nat) : (c.toRecord pc k).pc = some pc := by
  unfold Inst.writeAddr at h
  cases hr : I.rawParam i with
  | error c' =>
    simp [hr] at h; subst h
    rw [Inst.memRead_error hr]; rfl
  | ok raw =>
    cases m with
    | position => simp [hr] at h; rw [checkAddress_error h]; rfl
    | immediate => simp [hr] at h; subst h; rfl
    | relative => simp [hr] at h; rw [checkAddress_error h]; rfl

theorem Inst.fetchInstr_error_pc {I : Inst} {c : Cause} (h : I.fetchInstr = .error c) (pc : Word) (k : Nat) :
    (c.toRecord pc k).pc = some pc := by
  unfold Inst.fetchInstr at h
  cases hr : I.fetch with
  | error c' =>
    simp [hr] at h; subst h
    rw [Inst.memRead_error hr]; rfl
  | ok w =>
    cases hd : decode w with
    | ok j => simp [hr, hd] at h
    | error d => simp [hr, hd] at h; subst h; cases d <;> rfl

/-! ### The shared shapes -/

/-- An RRW instruction (30_encoding R82) completes on the executing instance or takes a fault. -/
theorem runRRW_effect (i : Instr) (s : State) (f : Word → Word → Word) (m0 m1 m2 : Mode) :
    Effect i s (s.complete (s.self.runRRW f m0 m1 m2)) := by
  unfold Inst.runRRW
  cases h0 : s.self.readParam 0 m0 with
  | error c => exact .faults c (Inst.readParam_error_pc h0 _ _)
  | ok a =>
    cases h1 : s.self.readParam 1 m1 with
    | error c => exact .faults c (Inst.readParam_error_pc h1 _ _)
    | ok b =>
      cases h2 : s.self.writeAddr 2 m2 with
      | error c => exact .faults c (Inst.writeAddr_error_pc h2 _ _)
      | ok ea => exact .completes _ rfl rfl ⟨rfl, rfl, rfl⟩ (.inr ⟨ea, f a b, Inst.writeAddr_le h2, rfl⟩) (.inl rfl)

/-- A jump completes on the executing instance or takes a fault. -/
theorem runJump_effect (i : Instr) (s : State) (taken : Word → Bool) (m0 m1 : Mode) :
    Effect i s (s.complete (s.self.runJump taken m0 m1)) := by
  unfold Inst.runJump
  cases h0 : s.self.readParam 0 m0 with
  | error c => exact .faults c (Inst.readParam_error_pc h0 _ _)
  | ok a =>
    cases h1 : s.self.readParam 1 m1 with
    | error c => exact .faults c (Inst.readParam_error_pc h1 _ _)
    | ok b =>
      simp only [ok_bind, pure_eq_ok]
      cases taken a
      · exact .completes _ rfl rfl ⟨rfl, rfl, rfl⟩ (.inl rfl) (.inl rfl)
      · exact .completes _ rfl rfl ⟨rfl, rfl, rfl⟩ (.inl rfl) (.inl rfl)

theorem execArb_effect (s t : State) (m0 m1 m2 : Mode) (h : execArb m0 s = .next t) :
    Effect (.arb m0 m1 m2) s t := by
  unfold execArb at h
  cases h
  unfold Inst.runArb
  cases h0 : s.self.readParam 0 m0 with
  | error c => exact .faults c (Inst.readParam_error_pc h0 _ _)
  | ok a => exact .completes _ rfl rfl ⟨rfl, rfl, rfl⟩ (.inl rfl) (.inr ⟨m0, m1, m2, a, rfl, h0, rfl⟩)

theorem execIn_effect (i : Instr) (s t : State) (m0 : Mode) (h : execIn m0 s = .next t) : Effect i s t := by
  unfold execIn at h
  cases hw : s.self.writeAddr 0 m0 with
  | error c =>
    simp only [hw] at h
    cases h
    exact .faults c (Inst.writeAddr_error_pc hw _ _)
  | ok ea =>
    simp only [hw] at h
    have hle := Inst.writeAddr_le hw
    cases hp : s.popHow s.self.inPort with
    | queued v =>
      simp only [hp, State.takeValue, Option.getD_some] at h
      cases h
      obtain ⟨P, rest, h₁, h₂⟩ := State.popHow_queued hp
      exact .takesQueued ea v P rest hle h₁ h₂
    | endOfStream =>
      simp only [hp] at h
      cases h
      exact .faults _ rfl
    | rendezvous src v =>
      simp only [hp, State.takeValue, Option.getD_some] at h
      cases h
      obtain ⟨P, h₁, _, _, _, h₂⟩ := State.popHow_rendezvous hp
      exact .takesHanded ea v P src hle h₁ h₂
    | notReady =>
      simp only [hp, State.takeValue, Option.getD_none] at h
      cases h
      exact .holds

theorem execOut_effect (s t : State) (m0 m1 m2 : Mode) (h : execOut m0 s = .next t) :
    Effect (.out m0 m1 m2) s t := by
  unfold execOut at h
  cases hr : s.self.readParam 0 m0 with
  | error c =>
    simp only [hr] at h
    cases h
    exact .faults c (Inst.readParam_error_pc hr _ _)
  | ok a =>
    simp only [hr] at h
    cases hp : s.pushHow s.self.outPort with
    | buffered =>
      simp only [hp, State.giveValue, Option.getD_some] at h
      cases h
      obtain ⟨P, h₁, h₂⟩ := State.pushHow_buffered hp
      exact .givesBuffered a P h₁ h₂
    | rendezvous dst =>
      simp only [hp, State.giveValue, Option.getD_some] at h
      cases h
      obtain ⟨P, h₁, _, _, h₂⟩ := State.pushHow_rendezvous hp
      exact .givesHanded a P dst h₁ rfl h₂
    | notReady =>
      simp only [hp, State.giveValue, Option.getD_none] at h
      cases h
      exact .holds

/-- Everything an instruction can do. -/
theorem exec_effect {i : Instr} {s t : State} (h : exec i s = .next t) : Effect i s t := by
  cases i with
  | add m0 m1 m2 => cases h; exact runRRW_effect _ s _ m0 m1 m2
  | mul m0 m1 m2 => cases h; exact runRRW_effect _ s _ m0 m1 m2
  | lt m0 m1 m2 => cases h; exact runRRW_effect _ s _ m0 m1 m2
  | eq m0 m1 m2 => cases h; exact runRRW_effect _ s _ m0 m1 m2
  | jt m0 m1 m2 => cases h; exact runJump_effect _ s _ m0 m1
  | jf m0 m1 m2 => cases h; exact runJump_effect _ s _ m0 m1
  | arb m0 m1 m2 => exact execArb_effect s t m0 m1 m2 h
  | inp m0 m1 m2 => exact execIn_effect _ s t m0 h
  | out m0 m1 m2 => exact execOut_effect s t m0 m1 m2 h
  | hlt m0 m1 m2 => cases h; exact .halts m0 m1 m2 rfl

theorem execIn_next (m0 : Mode) (s : State) : ∃ t, execIn m0 s = .next t := by
  unfold execIn
  split
  · exact ⟨_, rfl⟩
  · split <;> exact ⟨_, rfl⟩

theorem execOut_next (m0 : Mode) (s : State) : ∃ t, execOut m0 s = .next t := by
  unfold execOut
  split <;> exact ⟨_, rfl⟩

/-- Every instruction answers a next state: a fault of an instance is a next state (60_exceptions R243), and so is
being held (41_port_io R148). -/
theorem exec_next (i : Instr) (s : State) : ∃ t, exec i s = .next t := by
  cases i with
  | inp m0 _ _ => exact execIn_next m0 s
  | out m0 _ _ => exact execOut_next m0 s
  | add _ _ _ => exact ⟨_, rfl⟩
  | mul _ _ _ => exact ⟨_, rfl⟩
  | jt _ _ _ => exact ⟨_, rfl⟩
  | jf _ _ _ => exact ⟨_, rfl⟩
  | lt _ _ _ => exact ⟨_, rfl⟩
  | eq _ _ _ => exact ⟨_, rfl⟩
  | arb _ _ _ => exact ⟨_, rfl⟩
  | hlt _ _ _ => exact ⟨_, rfl⟩

end Sys2Proof.Machine
end

