-- ==== Sys2Proof/Laws/Step.lean ====
section
/-! SUPPORT. Everything a step can do, said once: `step_cases`. Claims about every step split on it. -/

namespace Sys2Proof.Machine

/-- How the host's pending wait completes (spec/60_exceptions.md R280). -/
inductive WaitEffect (s : State) : State → Prop where
  | pushBuffered (p : Nat) (v : Word) (P : Port) (mode : s.hmode = .waitPush p v) (port : s.port p = some P)
      (host : P.prod = .host) (room : P.q.length < P.cap) :
      WaitEffect s ((s.release .host).enqueue p v)
  | pushHanded (p : Nat) (v : Word) (P : Port) (k ea : Nat) (mode : s.hmode = .waitPush p v)
      (port : s.port p = some P) (host : P.prod = .host) (unbuffered : P.cap = 0) (isOpen : P.closed = false)
      (ready : s.readyConsumer p P = some (.inst k ea)) :
      WaitEffect s ((s.release .host).deliver p (.inst k ea) v)
  | popQueued (p : Nat) (v : Word) (P : Port) (rest : List Word) (mode : s.hmode = .waitPop p)
      (port : s.port p = some P) (host : s.hostPops P = true) (q : P.q = v :: rest) :
      WaitEffect s ((s.dequeue p).deliver p .host v)
  | popHanded (p : Nat) (v : Word) (P : Port) (k : Nat) (mode : s.hmode = .waitPop p)
      (port : s.port p = some P) (host : s.hostPops P = true) (empty : P.q = []) (isOpen : P.closed = false)
      (unbuffered : P.cap = 0) (ready : s.readyProducer p P = some (.inst k, v)) :
      WaitEffect s ((s.release (.inst k)).deliver p .host v)
  | popEnds (p : Nat) (P : Port) (mode : s.hmode = .waitPop p) (port : s.port p = some P)
      (host : s.hostPops P = true) (q : P.q = []) (closed : P.closed = true) :
      WaitEffect s { s with hmode := .active, results := s.results ++ [.endOfStream p] }
  | joins (mode : s.hmode = .join) (all : s.allTerminated = true) :
      WaitEffect s { s with hmode := .active, results := s.results ++ [.joined s.joinResult] }

/-- A wait that is ready completes in one of these ways. -/
theorem completeWait_effect {s : State} (h : s.waitReady = true) : WaitEffect s s.completeWait := by
  unfold State.completeWait
  cases hm : s.hmode with
  | active => simp [State.waitReady, hm] at h
  | join => exact .joins hm (by simpa [State.waitReady, hm] using h)
  | waitPush p v =>
    simp only [State.waitReady, hm, Bool.and_eq_true] at h
    cases hp : s.port p with
    | none => simp [hp] at h
    | some P =>
      simp [hp, hostPushes_iff] at h
      obtain ⟨hh, hr⟩ := h
      cases hw : s.pushHow p with
      | notReady => exact absurd hw hr
      | buffered =>
        obtain ⟨P', h₁, h₂⟩ := State.pushHow_buffered hw
        rw [hp] at h₁; cases h₁
        simp only [hw, State.giveValue, Option.getD_some]
        exact .pushBuffered p v P hm hp hh h₂
      | rendezvous dst =>
        obtain ⟨P', h₁, h₂, h₃, h₄⟩ := State.pushHow_rendezvous hw
        rw [hp] at h₁; cases h₁
        cases dst with
        | inst k ea =>
          simp only [hw, State.giveValue, Option.getD_some]
          exact .pushHanded p v P k ea hm hp hh h₂ h₃ h₄
        | host =>
          have := ((State.readyConsumer_host_iff s p P).mp h₄).1
          rw [hm] at this; cases this
  | waitPop p =>
    simp only [State.waitReady, hm, Bool.and_eq_true] at h
    cases hp : s.port p with
    | none => simp [hp] at h
    | some P =>
      simp [hp] at h
      obtain ⟨hh, hr⟩ := h
      cases hw : s.popHow p with
      | notReady => exact absurd hw hr
      | queued v =>
        obtain ⟨P', rest, h₁, h₂⟩ := State.popHow_queued hw
        rw [hp] at h₁; cases h₁
        simp only [hw, State.takeValue, Option.getD_some]
        exact .popQueued p v P rest hm hp hh h₂
      | endOfStream =>
        obtain ⟨P', h₁, h₂, h₃⟩ := State.popHow_endOfStream hw
        rw [hp] at h₁; cases h₁
        simp only [hw]
        exact .popEnds p P hm hp hh h₂ h₃
      | rendezvous src v =>
        obtain ⟨P', h₁, h₂, h₃, h₄, h₅⟩ := State.popHow_rendezvous hw
        rw [hp] at h₁; cases h₁
        cases src with
        | inst k =>
          simp only [hw, State.takeValue, Option.getD_some]
          exact .popHanded p v P k hm hp hh h₂ h₃ h₄ h₅
        | host =>
          have := ((State.readyProducer_host_iff s p P v).mp h₅).2
          rw [hm] at this; cases this

/-- What a step can do. -/
inductive StepCase (s : State) : State → Prop where
  /-- The fetch or decode of an instance faults. -/
  | fetchFault (k : Nat) (c : Cause) (pick : s.pick = some (.inst k)) (lt : k < s.nInst)
      (running : (s.inst k).status = .running) (fetch : (s.inst k).fetchInstr = .error c) :
      StepCase s ((s.begin (.inst k)).raise k c)
  /-- An instance executes an instruction. -/
  | instr (k : Nat) (i : Instr) (t : State) (pick : s.pick = some (.inst k)) (lt : k < s.nInst)
      (running : (s.inst k).status = .running) (fetch : (s.inst k).fetchInstr = .ok i)
      (run : exec i (s.begin (.inst k)) = .next t) (effect : Effect i (s.begin (.inst k)) t) : StepCase s t
  /-- The host makes its next move. -/
  | move (m : HostMove) (rest : List HostMove) (pick : s.pick = some .hostMove) (moves : s.moves = m :: rest)
      (enabled : s.moveEnabled m = true) :
      StepCase s (State.makeMove { s.begin .hostMove with moves := rest } m)
  /-- The host's wait completes. -/
  | wait (t : State) (pick : s.pick = some .hostWait) (ready : s.waitReady = true)
      (effect : WaitEffect (s.begin .hostWait) t) : StepCase s t
  /-- The arbiter declares a deadlock. -/
  | deadlock (pick : s.pick = some .arbiter) (quiescent : s.quiescent = true) (first : s.deadlock = none) :
      StepCase s (s.begin .arbiter).declareDeadlock

theorem stop_ne_next (s t : State) : s.stop ≠ .next t := by
  unfold State.stop
  split
  · simp
  · split <;> simp

/-- Every step is one of these cases. -/
theorem step_cases {s t : State} (h : step s = .next t) : StepCase s t := by
  unfold step at h
  cases hp : s.pick with
  | none => rw [hp] at h; exact absurd h (stop_ne_next s t)
  | some a =>
    have he := State.pick_enabled hp
    rw [hp] at h
    cases a with
    | inst k =>
      obtain ⟨hk, hr, _⟩ := (State.agentEnabled_inst s k).mp he
      simp only [stepAgent, State.inst_begin] at h
      cases hf : (s.inst k).fetchInstr with
      | error c => simp only [hf] at h; cases h; exact .fetchFault k c hp hk hr hf
      | ok i => simp only [hf] at h; exact .instr k i t hp hk hr hf h (exec_effect h)
    | hostMove =>
      simp only [stepAgent] at h
      cases h
      simp only [State.agentEnabled, State.nextMoveEnabled] at he
      cases hm : s.moves with
      | nil => simp [hm] at he
      | cons m rest =>
        simp only [hm] at he
        have : (s.begin .hostMove).nextMove = State.makeMove { s.begin .hostMove with moves := rest } m := by
          simp [State.nextMove, hm]
        rw [this]
        exact .move m rest hp hm he
    | hostWait =>
      simp only [stepAgent] at h
      cases h
      have hw : s.waitReady = true := he
      exact .wait _ hp hw (completeWait_effect hw)
    | arbiter =>
      simp only [stepAgent] at h
      cases h
      simp [State.agentEnabled] at he
      exact .deadlock hp he.1 he.2

/-- The step of a picked instance whose instruction decodes. -/
theorem step_inst {s : State} {k : Nat} {i : Instr} (hp : s.pick = some (.inst k))
    (hf : (s.inst k).fetchInstr = .ok i) : step s = exec i (s.begin (.inst k)) := by
  simp [step, hp, stepAgent, hf]

/-- An agent that has a step answers a next state. -/
theorem step_next_of_pick {s : State} {a : Agent} (hp : s.pick = some a) : ∃ t, step s = .next t := by
  simp only [step, hp]
  cases a with
  | inst k =>
    simp only [stepAgent]
    split
    · exact ⟨_, rfl⟩
    · exact exec_next _ _
  | hostMove => exact ⟨_, rfl⟩
  | hostWait => exact ⟨_, rfl⟩
  | arbiter => exact ⟨_, rfl⟩

end Sys2Proof.Machine
end

