-- ==== Sys2Proof/Laws/Change.lean ====
section
/-! SUPPORT. What a step of a started system can change of one instance (`step_instChange`) and of one port
(`step_portChange`), said once. Claims about one instance or one port over all steps split on these. -/

namespace Sys2Proof.Machine

/-! ### Reading one instance after an update -/

/-- An instance after an update is the old one, or the one it was set to. -/
theorem State.inst_setInst_or (s : State) (k : Nat) (I : Inst) (j : Nat) :
    (s.setInst k I).inst j = s.inst j ∨ (j = k ∧ (s.setInst k I).inst j = I) := by
  by_cases h : j = k
  · subst h
    by_cases hl : j < s.insts.length
    · exact .inr ⟨rfl, by simp [hl]⟩
    · exact .inl (by simp [State.inst, hl])
  · exact .inl (by simp [h])

theorem State.inst_release_or (s : State) (src : Producer) (j : Nat) :
    (s.release src).inst j = s.inst j ∨ (src = .inst j ∧ (s.release src).inst j = (s.inst j).advance 1) := by
  cases src with
  | host => exact .inl rfl
  | inst k =>
    rcases State.inst_setInst_or s k ((s.inst k).advance 1) j with h | ⟨rfl, h⟩
    · exact .inl h
    · exact .inr ⟨rfl, h⟩

theorem State.inst_deliver_or (s : State) (p : Nat) (dst : Consumer) (v : Word) (j : Nat) :
    (s.deliver p dst v).inst j = s.inst j ∨ (∃ ea, dst = .inst j ea ∧
      (s.deliver p dst v).inst j = { (s.inst j).advance 1 with mem := Memory.write (s.inst j).mem ea v }) := by
  cases dst with
  | host => exact .inl rfl
  | inst k ea =>
    rcases State.inst_setInst_or s k { (s.inst k).advance 1 with mem := Memory.write (s.inst k).mem ea v } j
      with h | ⟨rfl, h⟩
    · exact .inl h
    · exact .inr ⟨ea, rfl, h⟩

/-- What the producer's side of a transfer leaves of every instance. -/
theorem State.release_keeps (s : State) (src : Producer) (j : Nat) :
    ((s.release src).inst j).status = (s.inst j).status ∧ ((s.release src).inst j).frec = (s.inst j).frec ∧
      ((s.release src).inst j).mem = (s.inst j).mem ∧ ((s.release src).inst j).rb = (s.inst j).rb ∧
      SameBindings (s.inst j) ((s.release src).inst j) := by
  rcases State.inst_release_or s src j with h | ⟨_, h⟩ <;> rw [h] <;> exact ⟨rfl, rfl, rfl, rfl, rfl, rfl, rfl⟩

/-- What the consumer's side of a transfer leaves of every instance. -/
theorem State.deliver_keeps (s : State) (p : Nat) (dst : Consumer) (v : Word) (j : Nat) :
    ((s.deliver p dst v).inst j).status = (s.inst j).status ∧
      ((s.deliver p dst v).inst j).frec = (s.inst j).frec ∧ ((s.deliver p dst v).inst j).rb = (s.inst j).rb ∧
      SameBindings (s.inst j) ((s.deliver p dst v).inst j) := by
  rcases State.inst_deliver_or s p dst v j with h | ⟨ea, _, h⟩ <;> rw [h] <;> exact ⟨rfl, rfl, rfl, rfl, rfl, rfl⟩

@[simp] theorem State.length_setInst (s : State) (k : Nat) (I : Inst) :
    (s.setInst k I).insts.length = s.insts.length := by simp

@[simp] theorem State.length_release (s : State) (src : Producer) :
    (s.release src).insts.length = s.insts.length := by
  cases src <;> simp [State.release]

@[simp] theorem State.length_deliver (s : State) (p : Nat) (dst : Consumer) (v : Word) :
    (s.deliver p dst v).insts.length = s.insts.length := by
  cases dst <;> simp [State.deliver]

@[simp] theorem State.length_enqueue (s : State) (p : Nat) (v : Word) :
    (s.enqueue p v).ports.length = s.ports.length := by
  unfold State.enqueue; split <;> simp

@[simp] theorem State.length_dequeue (s : State) (p : Nat) : (s.dequeue p).ports.length = s.ports.length := by
  unfold State.dequeue; split <;> simp

@[simp] theorem State.length_closePort (s : State) (p : Nat) : (s.closePort p).ports.length = s.ports.length := by
  unfold State.closePort; split <;> simp

/-! ### One instance -/

/-- What a step of a started system can make of instance `k`. -/
inductive InstChange (s : State) (k : Nat) : Inst → Prop where
  /-- Nothing. -/
  | same : InstChange s k (s.inst k)
  /-- Its own instruction completes. -/
  | own (J : Inst) (i : Instr) (pick : s.pick = some (.inst k)) (running : (s.inst k).status = .running)
      (fetch : (s.inst k).fetchInstr = .ok i) (status : J.status = (s.inst k).status)
      (frec : J.frec = (s.inst k).frec) (bindings : SameBindings (s.inst k) J)
      (mem : J.mem = (s.inst k).mem ∨ ∃ ea v, ea ≤ Config.addrMax ∧ J.mem = Memory.write (s.inst k).mem ea v)
      (rb : J.rb = (s.inst k).rb ∨ ∃ m0 m1 m2 a, i = .arb m0 m1 m2 ∧ (s.inst k).readParam 0 m0 = .ok a ∧
        J.rb = wrap64 ((s.inst k).rb.toInt + a.toInt)) : InstChange s k J
  /-- It takes a fault. -/
  | faults (c : Cause) (pick : s.pick = some (.inst k)) (running : (s.inst k).status = .running) :
      InstChange s k ((s.inst k).fail k c)
  /-- It halts. -/
  | halts (m0 m1 m2 : Mode) (pick : s.pick = some (.inst k)) (running : (s.inst k).status = .running)
      (fetch : (s.inst k).fetchInstr = .ok (.hlt m0 m1 m2)) : InstChange s k { s.inst k with status := .halted }
  /-- Another agent takes its value in a rendezvous. -/
  | sends (v : Word) (running : (s.inst k).status = .running) (ready : AtOut (s.inst k) v) :
      InstChange s k ((s.inst k).advance 1)
  /-- Another agent gives it a value in a rendezvous. -/
  | receives (ea : Nat) (v : Word) (running : (s.inst k).status = .running) (ready : AtIn (s.inst k) ea) :
      InstChange s k { (s.inst k).advance 1 with mem := Memory.write (s.inst k).mem ea v }

theorem AtIn.le {I : Inst} {ea : Nat} (h : AtIn I ea) : ea ≤ Config.addrMax := by
  obtain ⟨_, m0, _, _, _, h⟩ := h
  exact Inst.writeAddr_le h

/-- What an instruction of instance `j` can make of instance `k`. -/
theorem instr_instChange {s t : State} {j : Nat} {i : Instr} (k : Nat) (pick : s.pick = some (.inst j))
    (running : (s.inst j).status = .running) (fetch : (s.inst j).fetchInstr = .ok i)
    (effect : Effect i (s.begin (.inst j)) t) : InstChange s k (t.inst k) := by
  have own : ∀ (J : Inst), k = j → J.status = (s.inst k).status → J.frec = (s.inst k).frec →
      SameBindings (s.inst k) J →
      (J.mem = (s.inst k).mem ∨ ∃ ea v, ea ≤ Config.addrMax ∧ J.mem = Memory.write (s.inst k).mem ea v) →
      J.rb = (s.inst k).rb → InstChange s k J := by
    intro J hk h₁ h₂ h₃ h₄ h₅
    subst hk
    exact .own J i pick running fetch h₁ h₂ h₃ h₄ (.inl h₅)
  cases effect with
  | completes I status frec bindings mem rb =>
    rcases State.inst_setInst_or (s.begin (.inst j)) j I k with h | ⟨rfl, h⟩
    · rw [State.begin_cur, h]; exact .same
    · rw [State.begin_cur, h]; exact .own I i pick running fetch status frec bindings mem rb
  | faults c _ =>
    rcases State.inst_setInst_or (s.begin (.inst j)) j ((s.inst j).fail j c) k with h | ⟨rfl, h⟩
    · exact h ▸ .same
    · exact h ▸ .faults c pick running
  | holds => exact .same
  | takesQueued ea v P rest le port q =>
    rcases State.inst_deliver_or ((s.begin (.inst j)).dequeue (s.inst j).inPort) (s.inst j).inPort (.inst j ea) v k
      with h | ⟨e, hd, h⟩
    · rw [State.inst_dequeue] at h; exact h ▸ .same
    · cases hd
      rw [State.inst_dequeue] at h
      exact h ▸ own _ rfl rfl rfl ⟨rfl, rfl, rfl⟩ (.inr ⟨ea, v, le, rfl⟩) rfl
  | takesHanded ea v P src le port ready =>
    obtain ⟨h₁, h₂, h₃, h₄, h₅⟩ := State.release_keeps (s.begin (.inst j)) src k
    rcases State.inst_deliver_or ((s.begin (.inst j)).release src) (s.inst j).inPort (.inst j ea) v k
      with h | ⟨e, hd, h⟩
    · rcases State.inst_release_or (s.begin (.inst j)) src k with hr | ⟨rfl, hr⟩
      · rw [hr] at h; exact h ▸ .same
      · obtain ⟨_, hrun, _, hat⟩ := (State.readyProducer_inst_iff _ _ _ _ _).mp ready
        rw [hr] at h
        exact h ▸ .sends v hrun hat
    · cases hd
      exact h ▸ own _ rfl h₁ h₂ ⟨h₅.image, h₅.inPort, h₅.outPort⟩ (.inr ⟨ea, v, le, congrArg (fun m => Memory.write m ea v) h₃⟩) h₄
  | givesBuffered v P port room =>
    rcases State.inst_release_or (s.begin (.inst j)) (.inst j) k with hr | ⟨hk, hr⟩
    · rw [State.inst_enqueue, State.begin_cur, hr]; exact .same
    · cases hk
      rw [State.inst_enqueue, State.begin_cur, hr]
      exact own _ rfl rfl rfl ⟨rfl, rfl, rfl⟩ (.inl rfl) rfl
  | givesHanded v P dst port is_out ready =>
    obtain ⟨h₁, h₂, h₃, h₄, h₅⟩ := State.release_keeps (s.begin (.inst j)) (.inst j) k
    rcases State.inst_deliver_or ((s.begin (.inst j)).release (.inst j)) (s.inst j).outPort dst v k
      with h | ⟨ea, rfl, h⟩
    · rcases State.inst_release_or (s.begin (.inst j)) (.inst j) k with hr | ⟨hk, hr⟩
      · rw [hr] at h; exact h ▸ .same
      · cases hk
        rw [hr] at h
        exact h ▸ own _ rfl rfl rfl ⟨rfl, rfl, rfl⟩ (.inl rfl) rfl
    · obtain ⟨_, hrun, _, hat⟩ := (State.readyConsumer_inst_iff _ _ _ _ _).mp ready
      rcases State.inst_release_or (s.begin (.inst j)) (.inst j) k with hr | ⟨hk, hr⟩
      · rw [hr] at h
        exact h ▸ .receives ea v hrun hat
      · cases hk
        exact h ▸ own _ rfl h₁ h₂ ⟨h₅.image, h₅.inPort, h₅.outPort⟩ (.inr ⟨ea, v, hat.le, congrArg (fun m => Memory.write m ea v) h₃⟩) h₄
  | halts m0 m1 m2 is_hlt =>
    rcases State.inst_setInst_or ((s.begin (.inst j)).closePort (s.inst j).outPort) j
      { s.inst j with status := .halted } k with h | ⟨rfl, h⟩
    · rw [State.inst_closePort] at h; exact h ▸ .same
    · subst is_hlt
      exact cast (congrArg (InstChange s k) h.symm) (.halts m0 m1 m2 pick running fetch)

/-- What the completion of the host's wait can make of instance `k`. -/
theorem wait_instChange {s t : State} (k : Nat) (effect : WaitEffect (s.begin .hostWait) t) :
    InstChange s k (t.inst k) := by
  cases effect with
  | pushBuffered p v P mode port host room => rw [State.inst_enqueue]; exact .same
  | pushHanded p v P j ea mode port host unbuffered isOpen ready =>
    rcases State.inst_deliver_or ((s.begin .hostWait).release .host) p (.inst j ea) v k with h | ⟨e, hd, h⟩
    · exact h ▸ .same
    · cases hd
      obtain ⟨_, hrun, _, hat⟩ := (State.readyConsumer_inst_iff _ _ _ _ _).mp ready
      exact h ▸ .receives ea v hrun hat
  | popQueued p v P rest mode port host q =>
    show InstChange s k (((s.begin .hostWait).dequeue p).inst k)
    rw [State.inst_dequeue]; exact .same
  | popHanded p v P j mode port host empty isOpen unbuffered ready =>
    rcases State.inst_release_or (s.begin .hostWait) (.inst j) k with hr | ⟨hk, hr⟩
    · show InstChange s k (((s.begin .hostWait).release (.inst j)).inst k)
      exact hr ▸ .same
    · cases hk
      obtain ⟨_, hrun, _, hat⟩ := (State.readyProducer_inst_iff _ _ _ _ _).mp ready
      show InstChange s k (((s.begin .hostWait).release (.inst k)).inst k)
      exact hr ▸ .sends v hrun hat
  | popEnds p P mode port host q closed => exact .same
  | joins mode all => exact .same

/-- A host move that is enabled once the run is started leaves the instances, the topology and the start as they are. -/
theorem move_started {s : State} {m : HostMove} {rest : List HostMove} (hs : s.started = true)
    (enabled : s.moveEnabled m = true) :
    (State.makeMove { s.begin .hostMove with moves := rest } m).insts = s.insts ∧
    (State.makeMove { s.begin .hostMove with moves := rest } m).topo = s.topo ∧
    (State.makeMove { s.begin .hostMove with moves := rest } m).nInst = s.nInst ∧
    (State.makeMove { s.begin .hostMove with moves := rest } m).started = true ∧
    (State.makeMove { s.begin .hostMove with moves := rest } m).unseededCycle = s.unseededCycle ∧
    (State.makeMove { s.begin .hostMove with moves := rest } m).configError = s.configError := by
  cases m with
  | load k text => simp [State.moveEnabled, State.configurable, hs] at enabled
  | config topo n caps seeds => simp [State.moveEnabled, State.configurable, hs] at enabled
  | start => simp [State.moveEnabled, State.configurable, hs] at enabled
  | push p v => exact ⟨rfl, rfl, rfl, hs, rfl, rfl⟩
  | pop p => exact ⟨rfl, rfl, rfl, hs, rfl, rfl⟩
  | close p => simp only [State.makeMove, State.closePort_insts, State.closePort_topo, State.closePort_nInst, State.closePort_started, State.closePort_unseededCycle, State.closePort_configError]; exact ⟨rfl, rfl, rfl, hs, rfl, rfl⟩
  | join => exact ⟨rfl, rfl, rfl, hs, rfl, rfl⟩
  | memRead k a => exact ⟨rfl, rfl, rfl, hs, rfl, rfl⟩

/-- Everything a step of a started system can make of one instance. -/
theorem step_instChange {s t : State} (hs : s.started = true) (h : step s = .next t) (k : Nat) :
    InstChange s k (t.inst k) := by
  cases step_cases h with
  | fetchFault j c pick lt running fetch =>
    rcases State.inst_setInst_or (s.begin (.inst j)) j ((s.inst j).fail j c) k with h | ⟨rfl, h⟩
    · exact h ▸ .same
    · exact h ▸ .faults c pick running
  | instr j i t pick lt running fetch run effect => exact instr_instChange k pick running fetch effect
  | move m rest pick moves enabled =>
    have := State.inst_congr (move_started (rest := rest) hs enabled).1 k
    rw [this]; exact .same
  | wait t pick ready effect => exact wait_instChange k effect
  | deadlock pick quiescent first => exact .same

/-! ### One port -/

/-- What a step of a started system can make of port `p`, which is `P`. -/
inductive PortChange (s : State) (p : Nat) (P : Port) : Port → Prop where
  | same : PortChange s p P P
  | pops (v : Word) (rest : List Word) (q : P.q = v :: rest) : PortChange s p P { P with q := rest }
  /-- A RUNNING instance whose output port it is pushes, or the host, which waits to. -/
  | pushes (v : Word) (room : P.q.length < P.cap)
      (who : (∃ k, (s.inst k).status = .running ∧ (s.inst k).outPort = p) ∨
        (P.prod = .host ∧ s.hmode = .waitPush p v)) : PortChange s p P { P with q := P.q ++ [v] }
  | closes : PortChange s p P { P with closed := true }

theorem portChange_closePort (s r : State) (p j : Nat) {P : Port} (h : s.port j = some P) :
    ∃ Q, (s.closePort p).port j = some Q ∧ PortChange r j P Q := by
  rw [State.port_closePort]
  by_cases hj : j = p
  · subst hj; simp only [h, if_true, Option.map_some]; exact ⟨_, rfl, .closes⟩
  · simp only [hj, if_false]; exact ⟨P, h, .same⟩

theorem portChange_dequeue (r : State) {s : State} {p : Nat} {R : Port} {v : Word} {rest : List Word} (hR : s.port p = some R)
    (hq : R.q = v :: rest) (j : Nat) {P : Port} (h : s.port j = some P) :
    ∃ Q, (s.dequeue p).port j = some Q ∧ PortChange r j P Q := by
  rw [State.port_dequeue]
  by_cases hj : j = p
  · subst hj
    rw [h] at hR; cases hR
    simp only [h, if_true, Option.map_some, hq, List.tail_cons]; exact ⟨_, rfl, .pops v rest hq⟩
  · simp only [hj, if_false]; exact ⟨P, h, .same⟩

theorem portChange_enqueue (r : State) {s : State} {p : Nat} {R : Port} {v : Word} (hR : s.port p = some R)
    (room : R.q.length < R.cap)
    (who : (∃ k, (r.inst k).status = .running ∧ (r.inst k).outPort = p) ∨
      (R.prod = .host ∧ r.hmode = .waitPush p v)) (j : Nat) {P : Port} (h : s.port j = some P) :
    ∃ Q, (s.enqueue p v).port j = some Q ∧ PortChange r j P Q := by
  rw [State.port_enqueue]
  by_cases hj : j = p
  · subst hj
    rw [h] at hR; cases hR
    simp only [h, if_true, Option.map_some]; exact ⟨_, rfl, .pushes v room who⟩
  · simp only [hj, if_false]; exact ⟨P, h, .same⟩

theorem State.port_release (s : State) (src : Producer) (j : Nat) : (s.release src).port j = s.port j :=
  State.port_congr (by simp) j

theorem State.port_deliver (s : State) (p : Nat) (dst : Consumer) (v : Word) (j : Nat) :
    (s.deliver p dst v).port j = s.port j :=
  State.port_congr (by simp) j

/-- What an instruction can make of a port. -/
theorem effect_portChange {i : Instr} {s t : State} (effect : Effect i s t) (running : s.self.status = .running)
    {p : Nat} {P : Port} (h : s.port p = some P) : ∃ Q, t.port p = some Q ∧ PortChange s p P Q := by
  cases effect with
  | completes I status frec bindings mem rb => exact ⟨P, h, .same⟩
  | faults c _ => exact ⟨P, h, .same⟩
  | holds => exact ⟨P, h, .same⟩
  | takesQueued ea v R rest le port q => rw [State.port_deliver]; exact portChange_dequeue s port q p h
  | takesHanded ea v R src le port ready => rw [State.port_deliver, State.port_release]; exact ⟨P, h, .same⟩
  | givesBuffered v R port room =>
    exact portChange_enqueue s (by rw [State.port_release]; exact port) room (.inl ⟨s.cur, running, rfl⟩) p
      (by rw [State.port_release]; exact h)
  | givesHanded v R dst port is_out ready => rw [State.port_deliver, State.port_release]; exact ⟨P, h, .same⟩
  | halts m0 m1 m2 is_hlt => rw [State.port_setInst]; exact portChange_closePort s s _ p h

/-- What the completion of the host's wait can make of a port. -/
theorem wait_portChange {s t : State} (effect : WaitEffect s t) {p : Nat} {P : Port} (h : s.port p = some P) :
    ∃ Q, t.port p = some Q ∧ PortChange s p P Q := by
  cases effect with
  | pushBuffered j v R mode port host room =>
    exact portChange_enqueue s (by rw [State.port_release]; exact port) room (.inr ⟨host, mode⟩) p
      (by rw [State.port_release]; exact h)
  | pushHanded j v R k ea mode port host unbuffered isOpen ready => exact ⟨P, h, .same⟩
  | popQueued j v R rest mode port host q => rw [State.port_deliver]; exact portChange_dequeue s port q p h
  | popHanded j v R k mode port host empty isOpen unbuffered ready => exact ⟨P, h, .same⟩
  | popEnds j R mode port host q closed => exact ⟨P, h, .same⟩
  | joins mode all => exact ⟨P, h, .same⟩

theorem portChange_begin {s t : State} {a : Agent} {p : Nat} {P : Port}
    (h : ∃ Q, t.port p = some Q ∧ PortChange (s.begin a) p P Q) :
    ∃ Q, t.port p = some Q ∧ PortChange s p P Q := by
  obtain ⟨Q, hQ, hc⟩ := h
  refine ⟨Q, hQ, ?_⟩
  cases hc with
  | same => exact .same
  | pops v rest q => exact .pops v rest q
  | pushes v room who => exact .pushes v room who
  | closes => exact .closes

/-- LOAD changes no port. -/
theorem State.ports_load (s : State) (k : Nat) (text : List Char) : (s.load k text).ports = s.ports := by
  unfold State.load
  simp only
  split
  · rfl
  · split <;> rfl

/-- START changes no port. -/
theorem State.ports_start (s : State) : s.start.ports = s.ports := by
  unfold State.start
  split <;> rfl

/-- No step of a started system is a CONFIG. -/
theorem not_configStep {s : State} (hs : s.started = true) : ¬ ConfigStep s := by
  rintro ⟨hp, topo, n, caps, seeds, hm⟩
  have he := State.pick_enabled hp
  obtain ⟨rest, hm⟩ := List.head?_eq_some_iff.mp hm
  simp [State.agentEnabled, State.nextMoveEnabled, hm, State.moveEnabled, State.configurable, hs] at he

/-- Everything a step that is not a CONFIG can make of one port. -/
theorem step_portChange {s t : State} (hs : ¬ ConfigStep s) (h : step s = .next t) {p : Nat} {P : Port}
    (hp : s.port p = some P) : ∃ Q, t.port p = some Q ∧ PortChange s p P Q := by
  cases step_cases h with
  | fetchFault j c pick lt running fetch => exact ⟨P, hp, .same⟩
  | instr j i t pick lt running fetch run effect => exact portChange_begin (effect_portChange effect running hp)
  | move m rest pick moves enabled =>
    cases m with
    | load k text => exact ⟨P, (State.port_congr (State.ports_load _ k text) p).trans hp, .same⟩
    | config topo n caps seeds => exact absurd ⟨pick, topo, n, caps, seeds, by rw [moves]; rfl⟩ hs
    | start => exact ⟨P, (State.port_congr (State.ports_start _) p).trans hp, .same⟩
    | push q v => exact ⟨P, hp, .same⟩
    | pop q => exact ⟨P, hp, .same⟩
    | close q => exact portChange_closePort _ s q p hp
    | join => exact ⟨P, hp, .same⟩
    | memRead k a => exact ⟨P, hp, .same⟩
  | wait t pick ready effect => exact portChange_begin (wait_portChange effect hp)
  | deadlock pick quiescent first => exact ⟨P, hp, .same⟩

end Sys2Proof.Machine
end

