-- ==== Sys2Proof/Laws/Host.lean ====
section
/-! SUPPORT. What LOAD, CONFIG and START make of one instance and of the ports (spec/60_exceptions.md R260 to R262,
R280). -/

namespace Sys2Proof.Machine

theorem State.length_padded (s : State) (n : Nat) : (s.padded n).insts.length = max s.insts.length n := by
  simp only [State.padded, List.length_append, List.length_map, List.length_range]
  omega

theorem State.padded_le (s : State) (n : Nat) (h : n ≤ s.insts.length) : s.padded n = s := by
  have : n - s.insts.length = 0 := by omega
  simp [State.padded, this]

/-- An instance that exists stays when others are created. -/
theorem State.inst_padded (s : State) (n : Nat) {k : Nat} (h : k < s.insts.length) :
    (s.padded n).inst k = s.inst k := by
  have h' : (s.padded n).insts[k]? = s.insts[k]? := List.getElem?_append_left h
  rw [State.inst_eq_getElem, State.inst_eq_getElem, h']

/-- An instance that is created is fresh, bound to the ports of the topology. -/
theorem State.inst_padded_new (s : State) (n : Nat) {k : Nat} (h : s.insts.length ≤ k) (hn : k < n) :
    (s.padded n).inst k = Inst.fresh.bind s.topo s.nInst k := by
  have h' : (s.padded n).insts[k]? = some (Inst.fresh.bind s.topo s.nInst k) := by
    have hr : k - s.insts.length < n - s.insts.length := by omega
    have hk : s.insts.length + (k - s.insts.length) = k := by omega
    simp [State.padded, List.getElem?_append_right h, hr, hk]
  rw [State.inst_eq_getElem, h']
  rfl

theorem State.length_load (s : State) (k : Nat) (text : List Char) :
    (s.load k text).insts.length = max s.insts.length (k + 1) := by
  unfold State.load
  simp only
  split
  · rw [State.length_setInst, State.length_padded]
  · split
    · unfold State.raise; rw [State.length_setInst, State.length_padded]
    · rw [State.length_padded]

/-- LOAD leaves the arbiter, the scheduler and the host. -/
theorem State.load_system (s : State) (k : Nat) (text : List Char) :
    SameSystem s (s.load k text) ∧ SameHost s (s.load k text) := by
  unfold State.load
  simp only
  split
  · exact ⟨⟨rfl, rfl, rfl, rfl, rfl, rfl, rfl, rfl, rfl, rfl⟩, ⟨rfl, rfl⟩⟩
  · split <;> exact ⟨⟨rfl, rfl, rfl, rfl, rfl, rfl, rfl, rfl, rfl, rfl⟩, ⟨rfl, rfl⟩⟩

/-- LOAD leaves every other instance as the creation of instances left it. -/
theorem State.inst_load_ne (s : State) {k j : Nat} (text : List Char) (h : j ≠ k) :
    (s.load k text).inst j = (s.padded (k + 1)).inst j := by
  unfold State.load
  simp only
  split
  · exact State.inst_setInst_ne _ _ h
  · split
    · exact State.inst_setInst_ne _ _ h
    · rfl

/-- What LOAD makes of the instances. -/
theorem State.inst_load (s : State) (k : Nat) (text : List Char) (j : Nat) :
    (s.load k text).inst j = (s.padded (k + 1)).inst j ∨
    (j = k ∧ ∃ ws, parseText text = .ok ws ∧ (s.load k text).inst j = ((s.padded (k + 1)).inst k).load ws) ∨
    (j = k ∧ ((s.padded (k + 1)).inst k).status = .idle ∧ ∃ i, parseText text = .error i ∧
      (s.load k text).inst j = ((s.padded (k + 1)).inst k).fail k (.malformedProgram i)) := by
  unfold State.load
  simp only
  cases hp : parseText text with
  | ok ws =>
    rcases State.inst_setInst_or (s.padded (k + 1)) k (((s.padded (k + 1)).inst k).load ws) j with h | ⟨hj, h⟩
    · exact .inl h
    · exact .inr (.inl ⟨hj, ws, rfl, h⟩)
  | error i =>
    simp only
    split
    · rename_i hi
      rcases State.inst_setInst_or (s.padded (k + 1)) k
        (((s.padded (k + 1)).inst k).fail k (.malformedProgram i)) j with h | ⟨hj, h⟩
      · exact .inl h
      · exact .inr (.inr ⟨hj, hi, i, rfl, h⟩)
    · exact .inl rfl

theorem State.length_config (s : State) (topo : Topo) (n : Nat) (caps : List Nat) (seeds : List (List Word)) :
    (s.config topo n caps seeds).insts.length = max s.insts.length n := by
  unfold State.config
  simp only [List.length_mapIdx, State.length_padded]

theorem State.getElem?_config (s : State) (topo : Topo) (n : Nat) (caps : List Nat) (seeds : List (List Word))
    (k : Nat) : (s.config topo n caps seeds).insts[k]? = ((s.padded n).insts[k]?).map (Inst.bind topo n k) := by
  unfold State.config
  simp only [List.getElem?_mapIdx]

/-- CONFIG binds every instance and leaves the rest of it. -/
theorem State.inst_config (s : State) (topo : Topo) (n : Nat) (caps : List Nat) (seeds : List (List Word)) {k : Nat}
    (h : k < max s.insts.length n) :
    (s.config topo n caps seeds).inst k = ((s.padded n).inst k).bind topo n k := by
  rw [← State.length_padded] at h
  rw [State.inst_eq_getElem, State.getElem?_config, State.getElem?_inst h]
  rfl

/-- The ports CONFIG makes. -/
theorem State.port_config (s : State) (topo : Topo) (n : Nat) (caps : List Nat) (seeds : List (List Word)) (p : Nat) :
    (s.config topo n caps seeds).port p =
      if p < topo.portCount n then some (makePort topo n caps seeds p) else none := by
  show ((List.range (topo.portCount n)).map (makePort topo n caps seeds))[p]? = _
  split <;> rename_i h
  · simp [h]
  · simp [Nat.le_of_not_lt h]

/-- A port CONFIG makes: its queue is its seeds as far as they fit. -/
theorem makePort_q_length (topo : Topo) (n : Nat) (caps : List Nat) (seeds : List (List Word)) (p : Nat) :
    (makePort topo n caps seeds p).q.length ≤ (makePort topo n caps seeds p).cap := by
  simp [makePort, List.length_take]

theorem makePort_q_of_fits {topo : Topo} {n : Nat} {caps : List Nat} {seeds : List (List Word)} {p : Nat}
    (h : (makePort topo n caps seeds p).seed.length ≤ (makePort topo n caps seeds p).cap) :
    (makePort topo n caps seeds p).q = (makePort topo n caps seeds p).seed := List.take_of_length_le h

theorem State.length_ports_config (s : State) (topo : Topo) (n : Nat) (caps : List Nat) (seeds : List (List Word)) :
    (s.config topo n caps seeds).ports.length = topo.portCount n := by
  simp [State.config]

/-- START makes every IDLE instance of the system RUNNING and leaves the others. -/
theorem State.inst_startAll (s : State) (k : Nat) :
    s.startAll.inst k = if k < s.nInst ∧ k < s.insts.length then (s.inst k).start else s.inst k := by
  by_cases hk : k < s.insts.length
  · have e : s.startAll.insts[k]? = some (if k < s.nInst then (s.inst k).start else s.inst k) := by
      simp only [State.startAll, List.getElem?_mapIdx, State.getElem?_inst hk, Option.map_some]
    rw [State.inst_eq_getElem, e]
    simp only [hk, and_true]
    rfl
  · have e : s.startAll.insts[k]? = none := by
      simp only [State.startAll, List.getElem?_mapIdx, List.getElem?_eq_none (Nat.le_of_not_lt hk), Option.map_none]
    rw [State.inst_eq_getElem, e, State.inst_ge (Nat.le_of_not_lt hk)]
    simp [hk]

theorem State.length_startAll (s : State) : s.startAll.insts.length = s.insts.length := by
  simp [State.startAll]

end Sys2Proof.Machine
end

