-- ==== Sys2Proof/Laws/Wiring.lean ====
section
/-! SUPPORT. What the wiring of a topology says of each instance and port, and what the configuration check decides
(spec/60_exceptions.md R260, R261). -/

namespace Sys2Proof.Machine

/-! ### The wiring -/

theorem Topo.producer_outPort {topo : Topo} {n k : Nat} (hk : k < n) (h : topo = .single → n = 1) :
    topo.producer n (topo.outPort n k) = .inst k := by
  cases topo with
  | single => have := h rfl; have : k = 0 := by omega
              subst this; rfl
  | pipeline => simp [Topo.producer, Topo.outPort]
  | ring =>
    by_cases hkn : k + 1 = n
    · simp [Topo.producer, Topo.outPort, hkn]; omega
    · have hm : (k + 1) % n = k + 1 := Nat.mod_eq_of_lt (by omega)
      simp [Topo.producer, Topo.outPort, hm]

theorem Topo.consumer_inPort {topo : Topo} {n k : Nat} (hk : k < n) (h : topo = .single → n = 1) :
    topo.consumer n (topo.inPort k) = .inst k := by
  cases topo with
  | single => have := h rfl; have : k = 0 := by omega
              subst this; rfl
  | pipeline => have : k ≠ n := by omega
                simp [Topo.consumer, Topo.inPort, this]
  | ring => simp [Topo.consumer, Topo.inPort]

theorem Topo.outPort_lt {topo : Topo} {n k : Nat} (hk : k < n) : topo.outPort n k < topo.portCount n := by
  cases topo with
  | single => simp [Topo.outPort, Topo.portCount]
  | pipeline => simp [Topo.outPort, Topo.portCount]; omega
  | ring => exact Nat.mod_lt _ (by omega)

theorem Topo.inPort_lt {topo : Topo} {n k : Nat} (hk : k < n) : topo.inPort k < topo.portCount n := by
  cases topo <;> simp [Topo.inPort, Topo.portCount] <;> omega

/-- The producer of a port is an instance only where the port is that instance's output. -/
theorem Topo.producer_inst {topo : Topo} {n p k : Nat} (hp : p < topo.portCount n)
    (h : topo.producer n p = .inst k) (hs : topo = .single → n = 1) (hn : 1 ≤ n) : k < n ∧ p = topo.outPort n k := by
  cases topo with
  | single =>
    have := hs rfl
    simp [Topo.portCount] at hp
    simp only [Topo.producer] at h
    split at h
    · cases h
    · cases h; simp [Topo.outPort]; omega
  | pipeline =>
    simp [Topo.portCount] at hp
    simp only [Topo.producer] at h
    split at h
    · cases h
    · cases h; simp [Topo.outPort]; omega
  | ring =>
    simp [Topo.portCount] at hp
    simp only [Topo.producer] at h
    split at h
    · cases h
      have : n - 1 + 1 = n := by omega
      simp [Topo.outPort, this]; omega
    · cases h
      have : p - 1 + 1 = p := by omega
      have hm : p % n = p := Nat.mod_eq_of_lt (by omega)
      simp [Topo.outPort, this, hm]; omega

theorem Topo.consumer_inst {topo : Topo} {n p k : Nat} (hp : p < topo.portCount n)
    (h : topo.consumer n p = .inst k) (hs : topo = .single → n = 1) (hn : 1 ≤ n) : k < n ∧ p = topo.inPort k := by
  cases topo with
  | single =>
    simp [Topo.portCount] at hp
    simp only [Topo.consumer] at h
    split at h
    · cases h
    · cases h; simp [Topo.inPort]; omega
  | pipeline =>
    simp [Topo.portCount] at hp
    simp only [Topo.consumer] at h
    split at h
    · cases h
    · cases h; simp [Topo.inPort]; omega
  | ring =>
    simp [Topo.portCount] at hp
    simp only [Topo.consumer] at h
    cases h; simp [Topo.inPort]; omega

theorem Wired.inst {s : State} (h : Wired s) {k : Nat} (hk : k < s.insts.length) :
    (s.inst k).inPort = s.topo.inPort k ∧ (s.inst k).outPort = s.topo.outPort s.nInst k :=
  h.2.2.2 k _ (State.getElem?_inst hk)

theorem Wired.port_some {s : State} (h : Wired s) {p : Nat} (hp : p < s.topo.portCount s.nInst) : ∃ P, s.port p = some P := by
  rw [← h.1] at hp
  exact ⟨_, List.getElem?_eq_getElem hp⟩

/-- The output port of an instance of a wired system is its own. -/
theorem Wired.out {s : State} (h : Wired s) (hs : s.topo = .single → s.nInst = 1) {k : Nat} (hk : k < s.nInst) :
    ∃ P, s.port (s.inst k).outPort = some P ∧ P.prod = .inst k := by
  have hl : k < s.insts.length := Nat.lt_of_lt_of_le hk h.2.1
  rw [(h.inst hl).2]
  obtain ⟨P, hP⟩ := h.port_some (Topo.outPort_lt (topo := s.topo) hk)
  exact ⟨P, hP, by rw [(h.2.2.1 _ P hP).1, Topo.producer_outPort hk hs]⟩

theorem Wired.inp {s : State} (h : Wired s) (hs : s.topo = .single → s.nInst = 1) {k : Nat} (hk : k < s.nInst) :
    ∃ P, s.port (s.inst k).inPort = some P ∧ P.cons = .inst k := by
  have hl : k < s.insts.length := Nat.lt_of_lt_of_le hk h.2.1
  rw [(h.inst hl).1]
  obtain ⟨P, hP⟩ := h.port_some (Topo.inPort_lt (topo := s.topo) hk)
  exact ⟨P, hP, by rw [(h.2.2.1 _ P hP).2, Topo.consumer_inPort hk hs]⟩

theorem Wired.each {s : State} (h : Wired s) (hn : 1 ≤ s.nInst) (hs : s.topo = .single → s.nInst = 1) : EachInstanceWired s := by
  refine ⟨fun k hk => ⟨h.inp hs hk, h.out hs hk, fun p P hP hc => ?_, fun p P hP hc => ?_⟩, fun p P hP k hk => ?_⟩
  · have hp := State.lt_of_port hP
    rw [h.1] at hp
    rw [(h.2.2.1 p P hP).2] at hc
    rw [(h.inst (Nat.lt_of_lt_of_le hk h.2.1)).1]
    exact (Topo.consumer_inst hp hc hs hn).2
  · have hp := State.lt_of_port hP
    rw [h.1] at hp
    rw [(h.2.2.1 p P hP).1] at hc
    rw [(h.inst (Nat.lt_of_lt_of_le hk h.2.1)).2]
    exact (Topo.producer_inst hp hc hs hn).2
  · have hp := State.lt_of_port hP
    rw [h.1] at hp
    rcases hk with hc | hc
    · rw [(h.2.2.1 p P hP).1] at hc; exact (Topo.producer_inst hp hc hs hn).1
    · rw [(h.2.2.1 p P hP).2] at hc; exact (Topo.consumer_inst hp hc hs hn).1

/-! ### The configuration check -/

theorem State.countPorts_one {s : State} {f : Port → Bool} {p : Nat} {P : Port} (hp : s.port p = some P) (hf : f P = true) :
    s.countPorts f = 1 ↔ ∀ q Q, s.port q = some Q → f Q = true → q = p := by
  unfold State.countPorts State.port at *
  generalize s.ports = l at *
  induction l generalizing p with
  | nil => simp at hp
  | cons a l ih =>
    cases p with
    | zero =>
      simp at hp
      subst hp
      rw [List.filter_cons_of_pos hf]
      simp only [List.length_cons, Nat.add_eq_right, List.length_eq_zero_iff, List.filter_eq_nil_iff]
      constructor
      · intro h q Q hq hQ
        cases q with
        | zero => rfl
        | succ q => exact absurd hQ (h Q (List.mem_of_getElem? (by simpa using hq)))
      · intro h Q hQ hfQ
        obtain ⟨i, hi⟩ := List.mem_iff_getElem?.mp hQ
        have := h (i + 1) Q (by simpa using hi) hfQ
        omega
    | succ p =>
      simp at hp
      by_cases ha : f a = true
      · rw [List.filter_cons_of_pos ha]
        constructor
        · intro h
          simp only [List.length_cons, Nat.add_eq_right, List.length_eq_zero_iff, List.filter_eq_nil_iff] at h
          exact absurd hf (h P (List.mem_of_getElem? hp))
        · intro h
          have := h 0 a rfl ha
          omega
      · rw [List.filter_cons_of_neg ha, ih hp]
        constructor
        · intro h q Q hq hQ
          cases q with
          | zero => simp at hq; subst hq; exact absurd hQ ha
          | succ q => rw [h q Q (by simpa using hq) hQ]
        · intro h q Q hq hQ
          have := h (q + 1) Q (by simpa using hq) hQ
          omega

theorem State.instWired_iff (s : State) (k : Nat) : s.instWired k = true ↔
    (∃ P, s.port (s.inst k).inPort = some P ∧ P.cons = .inst k) ∧
    (∃ P, s.port (s.inst k).outPort = some P ∧ P.prod = .inst k) ∧
    (∀ p P, s.port p = some P → P.cons = .inst k → p = (s.inst k).inPort) ∧
    (∀ p P, s.port p = some P → P.prod = .inst k → p = (s.inst k).outPort) := by
  unfold State.instWired
  cases hi : s.port (s.inst k).inPort with
  | none => simp
  | some P =>
    cases ho : s.port (s.inst k).outPort with
    | none => simp
    | some Q =>
      by_cases hP : P.cons = .inst k
      · by_cases hQ : Q.prod = .inst k
        · have h1 := State.countPorts_one (f := fun P => P.cons == .inst k) hi (by simp [hP])
          have h2 := State.countPorts_one (f := fun P => P.prod == .inst k) ho (by simp [hQ])
          simp only [beq_iff_eq] at h1 h2
          simp [hP, hQ, h1, h2]
        · simp [hQ]
      · simp [hP]

theorem Endpoint.exists_iff (e : Endpoint) (n : Nat) : e.exists n = true ↔ ∀ k, e = .inst k → k < n := by
  cases e <;> simp [Endpoint.exists]

theorem State.wiringOk_iff (s : State) : s.wiringOk = true ↔ EachInstanceWired s := by
  unfold State.wiringOk EachInstanceWired
  simp only [Bool.and_eq_true, List.all_eq_true, State.ids, List.mem_range, State.instWired_iff, Endpoint.exists_iff]
  constructor
  · rintro ⟨h1, h2⟩
    refine ⟨h1, fun p P hP k hk => ?_⟩
    have := h2 P (List.mem_of_getElem? hP)
    rcases hk with h | h
    · exact this.1 k h
    · exact this.2 k h
  · rintro ⟨h1, h2⟩
    refine ⟨h1, fun P hP => ?_⟩
    obtain ⟨p, hp⟩ := List.mem_iff_getElem?.mp hP
    exact ⟨fun k hk => h2 p P hp k (.inl hk), fun k hk => h2 p P hp k (.inr hk)⟩

theorem checkConfig_none {s : State} (h : s.checkConfig = none) : 1 ≤ s.nInst ∧ EachInstanceWired s ∧ ∀ P ∈ s.ports, P.seed.length ≤ P.cap := by
  unfold State.checkConfig at h
  split at h
  · cases h
  · split at h
    · cases h
    · split at h
      · cases h
      · split at h
        · cases h
        · rename_i h1 h2 h3 h4
          refine ⟨by omega, (State.wiringOk_iff s).mp (by simpa using h3), fun P hP => ?_⟩
          simp only [List.any_eq_true, not_exists, not_and, decide_eq_true_eq] at h4
          exact Nat.le_of_not_lt (fun hlt => by have := h4 P hP; simp [hlt] at this)

/-- A SINGLE wiring that passes the check has one instance. -/
theorem Wired.single {s : State} (h : Wired s) (he : EachInstanceWired s) (hn : 1 ≤ s.nInst) (ht : s.topo = .single) : s.nInst = 1 := by
  by_contra hne
  obtain ⟨⟨P, hP, hc⟩, _⟩ := he.1 1 (by omega)
  have hp := State.lt_of_port hP
  rw [(h.2.2.1 _ P hP).2, (h.inst (Nat.lt_of_lt_of_le (by omega : 1 < s.nInst) h.2.1)).1, ht] at hc
  simp [Topo.consumer, Topo.inPort] at hc

end Sys2Proof.Machine
end

