-- ==== Sys2Proof/Laws/Arbiter.lean ====
section
/-! SUPPORT. What quiescence and the unseeded-cycle check depend on (spec/60_exceptions.md R264, R270), and how one edge and one walk of a
ring read. -/

namespace Sys2Proof.Machine

/-- The conditions of R270. -/
theorem State.quiescent_iff (s : State) : s.quiescent = true ↔ s.started = true ∧ (∀ k, k < s.nInst → s.canStep k = false) ∧ s.hmode ≠ .active ∧
      (s.hmode = .join → ∃ k, k < s.nInst ∧ (s.inst k).status = .running) ∧
      (s.hmode ≠ .join → s.waitReady = false) := by
  have h1 : s.someCanStep = false ↔ ∀ k, k < s.nInst → s.canStep k = false := by
    unfold State.someCanStep State.ids
    rw [List.any_eq_false]; simp
  have h2 : s.runningIds.isEmpty = false ↔ ∃ k, k < s.nInst ∧ (s.inst k).status = .running := by
    unfold State.runningIds State.ids
    rw [Bool.eq_false_iff, Ne, List.isEmpty_iff, List.filter_eq_nil_iff]
    simp
  unfold State.quiescent
  simp only [Bool.and_eq_true, Bool.not_eq_true', h1]
  unfold State.hostBlocked
  cases hm : s.hmode <;> simp [h2, and_assoc]

/-- What is ready depends on the instances, the ports and the mode of the host. -/
theorem State.ready_congr {s t : State} (hi : t.insts = s.insts) (hp : t.ports = s.ports) (hm : t.hmode = s.hmode) :
    (∀ p, t.popHow p = s.popHow p) ∧ (∀ p, t.pushHow p = s.pushHow p) ∧ ∀ k, t.canStep k = s.canStep k := by
  have i := State.inst_congr hi
  have p := State.port_congr hp
  have rc : ∀ q P, t.readyConsumer q P = s.readyConsumer q P := by
    intro q P; unfold State.readyConsumer State.hostPops; simp only [hm, i]
  have rp : ∀ q P, t.readyProducer q P = s.readyProducer q P := by
    intro q P; unfold State.readyProducer; simp only [hm, i]
  have h1 : ∀ q, t.popHow q = s.popHow q := by
    intro q; unfold State.popHow; simp only [p, rp]
  have h2 : ∀ q, t.pushHow q = s.pushHow q := by
    intro q; unfold State.pushHow; simp only [p, rc]
  refine ⟨h1, h2, fun k => ?_⟩
  unfold State.canStep State.held
  simp only [i, h1, h2]

/-- Quiescence depends on these and on the start. -/
theorem State.quiescent_congr {s t : State} (hi : t.insts = s.insts) (hp : t.ports = s.ports) (hm : t.hmode = s.hmode) (hs : t.started = s.started) (hn : t.nInst = s.nInst) : t.quiescent = s.quiescent := by
  obtain ⟨h1, h2, h3⟩ := State.ready_congr hi hp hm
  have i := State.inst_congr hi
  have p := State.port_congr hp
  unfold State.quiescent State.someCanStep State.hostBlocked State.runningIds State.waitReady State.ids State.allTerminated State.hostPops State.ids
  simp only [hs, hn, hm, i, p, h1, h2]
  congr 2
  congr 1
  · congr 1; funext k; exact h3 k

/-- The walks depend on the ports. -/
theorem State.unseededWalk_congr {s t : State} (h : t.ports = s.ports) (n k : Nat) : t.unseededWalk n k = s.unseededWalk n k := by
  induction n generalizing k with
  | zero => rfl
  | succ n ih =>
    unfold State.unseededWalk
    have : t.unseededEdge k = s.unseededEdge k := by unfold State.unseededEdge; rw [h]
    rw [this]
    cases s.unseededEdge k with
    | none => rfl
    | some j => exact ih j

/-- The check depends on the ports and the number of instances. -/
theorem State.hasUnseededCycle_congr {s t : State} (h : t.ports = s.ports) (hn : t.nInst = s.nInst) : t.hasUnseededCycle = s.hasUnseededCycle := by
  unfold State.hasUnseededCycle State.ids
  rw [hn]
  congr 1
  funext k
  exact State.unseededWalk_congr h _ k

/-- The first port an instance produces. -/
theorem find_producer_port {topo : Topo} {n m : Nat} {caps : List Nat} {seeds : List (List Word)} {k p : Nat} (hp : p < m) (h : topo.producer n p = .inst k) (hu : ∀ q, q < p → topo.producer n q ≠ .inst k) :
    ((List.range m).map (makePort topo n caps seeds)).find? (fun P => P.prod == .inst k) = some (makePort topo n caps seeds p) := by
  rw [List.find?_eq_some_iff_getElem]
  refine ⟨by simp [makePort, h], p, by simpa using hp, by simp, fun j hj => ?_⟩
  simp [makePort, hu j hj]

/-- The edge of an instance of a ring. -/
theorem unseededEdge_ring {s : State} {n : Nat} {caps : List Nat} {seeds : List (List Word)} {k : Nat} (hk : k < n) :
    (s.config .ring n caps seeds).unseededEdge k = if (seeds.getD ((k+1)%n) []).isEmpty then some ((k+1)%n) else none := by
  unfold State.unseededEdge
  have : (s.config .ring n caps seeds).ports.find? (fun P => P.prod == .inst k) = some (makePort .ring n caps seeds ((k+1)%n)) := by
    have hlt : (k+1) % n < n := Nat.mod_lt _ (by omega)
    refine find_producer_port hlt (Topo.producer_outPort (topo := .ring) hk (by simp)) ?_
    intro q hq h
    have := (Topo.producer_inst (topo := .ring) (n := n) (p := q) (k := k) (by simp [Topo.portCount]; omega) h (by simp) (by omega)).2
    simp [Topo.outPort] at this; omega
  rw [this]
  rfl

/-- A walk of a ring runs over unseeded ports. -/
theorem unseededWalk_ring {s : State} {n : Nat} {caps : List Nat} {seeds : List (List Word)} (m k : Nat) (hk : k < n) :
    (s.config .ring n caps seeds).unseededWalk m k = true ↔ ∀ i, i < m → seeds.getD ((k+1+i)%n) [] = [] := by
  induction m generalizing k with
  | zero => simp [State.unseededWalk]
  | succ m ih =>
    unfold State.unseededWalk
    rw [unseededEdge_ring hk]
    by_cases he : seeds.getD ((k+1)%n) [] = []
    · have : (seeds.getD ((k+1)%n) []).isEmpty = true := by rw [he]; rfl
      rw [if_pos this]
      simp only
      rw [ih _ (Nat.mod_lt _ (by omega))]
      constructor
      · intro h i hi
        cases i with
        | zero => exact he
        | succ i =>
          have := h i (by omega)
          rw [show (k+1+(i+1)) % n = ((k+1)%n + 1 + i) % n by rw [show (k+1)%n+1+i = (k+1)%n + (1+i) by omega, Nat.mod_add_mod]; congr 1; omega]
          exact this
      · intro h i hi
        have := h (i+1) (by omega)
        rw [show (k+1+(i+1)) % n = ((k+1)%n + 1 + i) % n by rw [show (k+1)%n+1+i = (k+1)%n + (1+i) by omega, Nat.mod_add_mod]; congr 1; omega] at this
        exact this
    · have : ¬ (seeds.getD ((k+1)%n) []).isEmpty = true := by rw [List.isEmpty_iff]; exact he
      rw [if_neg this]
      simp only [Bool.false_eq_true, false_iff]
      intro h; exact he (h 0 (by omega))

end Sys2Proof.Machine
end

