-- ==== Sys2Proof/Laws/Decode.lean ====
section
/-! SUPPORT. What the tables of the decoder and the encoder answer (spec/30_encoding.md R84, R86, R89, R100). -/

namespace Sys2Proof

theorem opOfCode_code (op : Op) : opOfCode op.code = some op := by cases op <;> decide

theorem opOfCode_some {n : Int} {op : Op} (h : opOfCode n = some op) : n = op.code := by
  unfold opOfCode at h
  repeat' split at h
  all_goals first | (cases h; assumption) | cases h

theorem opOfCode_none {n : Int} (h : ∀ op : Op, n ≠ op.code) : opOfCode n = none := by
  cases ho : opOfCode n with
  | none => rfl
  | some op => exact absurd (opOfCode_some ho) (h op)

theorem modeOfDigit_digit (m : Mode) : modeOfDigit m.toDigit = some m := by cases m <;> decide

theorem modeOfDigit_some {d : Int} {m : Mode} (h : modeOfDigit d = some m) : d = m.toDigit := by
  unfold modeOfDigit at h
  repeat' split at h
  all_goals first | (cases h; assumption) | cases h

theorem modeOfDigit_none {d : Int} (h : ∀ m : Mode, d ≠ m.toDigit) : modeOfDigit d = none := by
  cases ho : modeOfDigit d with
  | none => rfl
  | some m => exact absurd (modeOfDigit_some ho) (h m)

theorem code_range (op : Op) : 1 ≤ op.code ∧ op.code ≤ 99 := by cases op <;> decide

theorem digit_range (m : Mode) : 0 ≤ m.toDigit ∧ m.toDigit ≤ 2 := by cases m <;> decide

theorem toInt_encode (i : Instr) : (encode i).toInt = instrNumber i := by
  unfold encode
  have h1 := code_range i.op
  have h2 := digit_range i.m0
  have h3 := digit_range i.m1
  have h4 := digit_range i.m2
  apply toInt_wrap64_of_range <;> unfold instrNumber <;> omega

theorem toInstr_fields (i : Instr) : i.op.toInstr i.m0 i.m1 i.m2 = i := by cases i <;> rfl

theorem fields_toInstr (op : Op) (a b c : Mode) : (op.toInstr a b c).op = op ∧ (op.toInstr a b c).m0 = a ∧ (op.toInstr a b c).m1 = b ∧ (op.toInstr a b c).m2 = c := by cases op <;> exact ⟨rfl, rfl, rfl, rfl⟩

/-- As many parameter words as operands. -/
theorem mapM_length {α β} (f : α → Option β) : ∀ (l : List α) (r : List β), l.mapM f = some r → r.length = l.length
  | [], r, h => by simp at h; subst h; rfl
  | a :: l, r, h => by
    rw [List.mapM_cons] at h
    cases hf : f a with
    | none => simp [hf] at h
    | some b =>
      cases hr : l.mapM f with
      | none => simp [hf, hr] at h
      | some r' => simp [hf, hr] at h; subst h; simp [mapM_length f l r' hr]

end Sys2Proof
end

