-- ==== Sys2Proof/Laws/Invariants.lean ====
section
/-! SUPPORT. The invariants of Safety.lean said of `State.inst` and `State.port`, and what one change of an instance or a port does to
them. -/

namespace Sys2Proof.Machine

/-- Every memory is canonical exactly when every instance, the fresh ones included, has a canonical one. -/
theorem memoryCanonical_iff (s : State) : MemoryCanonical s ↔ ∀ k, Memory.wf (s.inst k).mem = true := by
  constructor
  · intro h k
    by_cases hk : k < s.insts.length
    · exact h _ (List.mem_of_getElem? (State.getElem?_inst hk))
    · rw [State.inst_ge (by omega)]; rfl
  · intro h I hI
    obtain ⟨k, hk⟩ := List.mem_iff_getElem?.mp hI
    rw [← State.inst_of_getElem? hk]; exact h k

/-- A change of an instance keeps its memory canonical. -/
theorem instChange_mem_wf {s : State} {k : Nat} {J : Inst} (h : InstChange s k J) (hw : Memory.wf (s.inst k).mem = true) : Memory.wf J.mem = true := by
  cases h with
  | same => exact hw
  | own J i pick running fetch status frec bindings mem rb =>
    rcases mem with h | ⟨ea, v, hle, h⟩
    · rw [h]; exact hw
    · rw [h]; exact Memory.wf_write _ hw hle
  | faults c pick running => exact hw
  | halts m0 m1 m2 pick running fetch => exact hw
  | sends v running ready => exact hw
  | receives ea v running ready => exact Memory.wf_write _ hw ready.le

/-- What holds of every instance and of a fresh one holds after instances are created. -/
theorem State.padded_forall {Q : Inst → Prop} (hf : ∀ t n k, Q (Inst.fresh.bind t n k)) (hf0 : Q Inst.fresh) {s : State} (h : ∀ k, Q (s.inst k)) (n k : Nat) : Q ((s.padded n).inst k) := by
  by_cases hk : k < s.insts.length
  · rw [State.inst_padded _ _ hk]; exact h k
  · by_cases hn : k < n
    · rw [State.inst_padded_new _ _ (by omega) hn]; exact hf _ _ _
    · rw [State.inst_ge (by rw [State.length_padded]; omega)]; exact hf0

/-- What a change of a port leaves, and the length of its queue after it. -/
theorem portChange_params {P Q : Port} {s : State} {p : Nat} (h : PortChange s p P Q) : Q.cap = P.cap ∧ Q.seed = P.seed ∧ Q.prod = P.prod ∧ Q.cons = P.cons ∧ (Q.q.length ≤ P.q.length ∨ Q.q.length ≤ P.cap) := by
  cases h with
  | same => exact ⟨rfl, rfl, rfl, rfl, .inl (Nat.le_refl _)⟩
  | pops v rest q => exact ⟨rfl, rfl, rfl, rfl, .inl (by rw [q]; simp)⟩
  | pushes v room who => exact ⟨rfl, rfl, rfl, rfl, .inr (by simp; omega)⟩
  | closes => exact ⟨rfl, rfl, rfl, rfl, .inl (Nat.le_refl _)⟩

/-- Every port after a change comes from one before it. -/
theorem portChange_back {s t : State} (hl : t.ports.length = s.ports.length)
    (h : ∀ p P, s.port p = some P → ∃ Q, t.port p = some Q ∧ PortChange s p P Q) {p : Nat} {Q : Port} (hQ : t.port p = some Q) :
    ∃ P, s.port p = some P ∧ PortChange s p P Q := by
  have hp := State.lt_of_port hQ
  rw [hl] at hp
  obtain ⟨Q', hQ', hc⟩ := h p _ (List.getElem?_eq_getElem hp)
  rw [hQ] at hQ'; cases hQ'
  exact ⟨_, List.getElem?_eq_getElem hp, hc⟩

/-- `QueuesBounded`, by port number. -/
theorem queuesBounded_iff (s : State) : QueuesBounded s ↔ ∀ p P, s.port p = some P → P.q.length ≤ P.cap := by
  constructor
  · intro h p P hP; exact h P (List.mem_of_getElem? hP)
  · intro h P hP
    obtain ⟨p, hp⟩ := List.mem_iff_getElem?.mp hP
    exact h p P hp

/-- `FaultsRecorded`, by instance number. -/
theorem faultsRecorded_iff (s : State) : FaultsRecorded s ↔ ∀ k, ((s.inst k).frec.isSome = true ↔ (s.inst k).status = .faulted) ∧ ∀ r, (s.inst k).frec = some r → r.inst = k := by
  constructor
  · intro h k
    by_cases hk : k < s.insts.length
    · exact h k _ (State.getElem?_inst hk)
    · rw [State.inst_ge (by omega)]; simp [Inst.fresh]
  · intro h k I hI
    rw [← State.inst_of_getElem? hI]; exact h k

/-- A record names its instance. -/
theorem Cause.toRecord_inst (c : Cause) (pc : Word) (k : Nat) : (c.toRecord pc k).inst = k := by cases c <;> rfl

/-- `StartConsistent`, by instance number. -/
theorem startConsistent_iff (s : State) : StartConsistent s ↔ (s.started = true → 1 ≤ s.nInst ∧ (s.topo = .single → s.nInst = 1) ∧ ∀ k, k < s.nInst → (s.inst k).status ≠ .idle) ∧
  ∀ k, (s.inst k).status = .running ∨ (s.inst k).status = .halted → s.started = true ∧ k < s.nInst := by
  unfold StartConsistent
  refine and_congr Iff.rfl ⟨fun h k hk => ?_, fun h k I hI hk => ?_⟩
  · have hl : k < s.insts.length := State.lt_of_status (by rcases hk with h | h <;> rw [h] <;> simp)
    exact h k _ (State.getElem?_inst hl) hk
  · rw [← State.inst_of_getElem? hI] at hk; exact h k hk

/-- A change of an instance leaves its bindings. -/
theorem instChange_bindings {s : State} {k : Nat} {J : Inst} (h : InstChange s k J) : SameBindings (s.inst k) J := by
  cases h with
  | own J i pick running fetch status frec bindings mem rb => exact bindings
  | _ => exact ⟨rfl, rfl, rfl⟩

/-- How a change of an instance changes its status. -/
theorem instChange_status {s : State} {k : Nat} {J : Inst} (h : InstChange s k J) : J.status = (s.inst k).status ∨ (s.inst k).status = .running ∧ (J.status = .halted ∨ J.status = .faulted) := by
  cases h with
  | same => exact .inl rfl
  | own J i pick running fetch status frec bindings mem rb => exact .inl status
  | faults c pick running => exact .inr ⟨running, .inr rfl⟩
  | halts m0 m1 m2 pick running fetch => exact .inr ⟨running, .inl rfl⟩
  | sends v running ready => exact .inl rfl
  | receives ea v running ready => exact .inl rfl

end Sys2Proof.Machine
end

