-- ==== Sys2Proof/Laws/PerInstr.lean ====
section
/-! SUPPORT. The family `Fields`: for each constructor, that its instruction word carries its fields
(spec/30_encoding.md R81, R84, R100). -/

namespace Sys2Proof.Laws.Fields

/-- The digits of the instruction word are the opcode and the three modes, and the opcode with the modes is the
instruction; every instruction takes one word and its parameters. -/
def Statement (i : Instr) : Prop :=
  trem (encode i).toInt 100 = i.op.code ∧ digit (encode i) 2 = i.m0.toDigit ∧ digit (encode i) 3 = i.m1.toDigit ∧
    digit (encode i) 4 = i.m2.toDigit ∧ i.op.toInstr i.m0 i.m1 i.m2 = i ∧ i.length = 1 + i.op.nparam

/-- The digits of the encoder's number. -/
theorem of_instr (i : Instr) : Statement i := by
  have h₁ := code_range i.op
  have h₂ := digit_range i.m0
  have h₃ := digit_range i.m1
  have h₄ := digit_range i.m2
  have he := toInt_encode i
  unfold instrNumber at he
  have hn : 0 ≤ (encode i).toInt := by omega
  refine ⟨?_, ?_, ?_, ?_, toInstr_fields i, rfl⟩
  · rw [trem_of_nonneg hn]; omega
  · rw [digit_of_nonneg hn]; simp [pow10]; omega
  · rw [digit_of_nonneg hn]; simp [pow10]; omega
  · rw [digit_of_nonneg hn]; simp [pow10]; omega

theorem add (m0 m1 m2 : Mode) : Statement (.add m0 m1 m2) := of_instr _
theorem mul (m0 m1 m2 : Mode) : Statement (.mul m0 m1 m2) := of_instr _
theorem inp (m0 m1 m2 : Mode) : Statement (.inp m0 m1 m2) := of_instr _
theorem out (m0 m1 m2 : Mode) : Statement (.out m0 m1 m2) := of_instr _
theorem jt (m0 m1 m2 : Mode) : Statement (.jt m0 m1 m2) := of_instr _
theorem jf (m0 m1 m2 : Mode) : Statement (.jf m0 m1 m2) := of_instr _
theorem lt (m0 m1 m2 : Mode) : Statement (.lt m0 m1 m2) := of_instr _
theorem eq (m0 m1 m2 : Mode) : Statement (.eq m0 m1 m2) := of_instr _
theorem arb (m0 m1 m2 : Mode) : Statement (.arb m0 m1 m2) := of_instr _
theorem hlt (m0 m1 m2 : Mode) : Statement (.hlt m0 m1 m2) := of_instr _

end Sys2Proof.Laws.Fields
end

