-- ==== Sys2Proof/Laws/PortIO.lean ====
section
/-! SUPPORT. The two sides of a rendezvous of two instances (spec/41_port_io.md R146), and what an instruction leaves of the system and of
the closed ports. -/

namespace Sys2Proof.Machine

/-- OUT in a rendezvous with another instance. -/
theorem execOut_rendezvous {s : State} {j k p ea : Nat} {v : Word} {P : Port} (m0 m1 m2 : Mode) (hjk : j ≠ k)
    (hp : s.port p = some P) (hcap : P.cap = 0) (hcl : P.closed = false) (hcur : s.cur = j)
    (hoj : (s.inst j).outPort = p) (hv : (s.inst j).readParam 0 m0 = .ok v)
    (hr : s.readyConsumer p P = some (.inst k ea)) :
    exec (.out m0 m1 m2) s = .next ((s.setInst j ((s.inst j).advance 1)).setInst k
      { (s.inst k).advance 1 with mem := Memory.write (s.inst k).mem ea v }) := by
  subst hcur hoj
  have hh : s.pushHow s.self.outPort = .rendezvous (.inst k ea) := by
    show s.pushHow (s.inst s.cur).outPort = _
    simp [State.pushHow, hp, hcl, hcap, hr]
  have hv' : s.self.readParam 0 m0 = .ok v := hv
  simp only [exec, execOut, hv', hh, State.giveValue, Option.getD_some, State.release, State.deliver, State.inst_setInst_ne _ _ hjk.symm]

/-- IN in a rendezvous with another instance. -/
theorem execIn_rendezvous {s : State} {j k p ea : Nat} {v : Word} {P : Port} (m0 m1 m2 : Mode) (hjk : j ≠ k)
    (hp : s.port p = some P) (hcap : P.cap = 0) (hcl : P.closed = false) (hq : P.q = []) (hcur : s.cur = k)
    (hoj : (s.inst k).inPort = p) (hv : (s.inst k).writeAddr 0 m0 = .ok ea)
    (hr : s.readyProducer p P = some (.inst j, v)) :
    exec (.inp m0 m1 m2) s = .next ((s.setInst j ((s.inst j).advance 1)).setInst k
      { (s.inst k).advance 1 with mem := Memory.write (s.inst k).mem ea v }) := by
  subst hcur hoj
  have hh : s.popHow s.self.inPort = .rendezvous (.inst j) v := by
    show s.popHow (s.inst s.cur).inPort = _
    simp [State.popHow, hp, hcl, hcap, hr, hq]
  have hv' : s.self.writeAddr 0 m0 = .ok ea := hv
  simp only [exec, execIn, hv', hh, State.takeValue, Option.getD_some, State.release, State.deliver, State.inst_setInst_ne _ _ hjk.symm]

/-- Which instance is the executing one does not matter to two updates. -/
theorem State.setInst_setInst_cur (s : State) (j k : Nat) (c : Nat) (I J : Inst): ((State.setInst {s with cur := c} j I).setInst k J) = { (s.setInst j I).setInst k J with cur := c } := rfl

/-- An instruction leaves the system, and the numbers of instances and ports. -/
theorem effect_system {i : Instr} {s t : State} (e : Effect i s t) : SameSystem s t ∧ t.insts.length = s.insts.length ∧ t.ports.length = s.ports.length := by
  cases e <;> refine ⟨⟨?_, ?_, ?_, ?_, ?_, ?_, ?_, ?_, ?_, ?_⟩, ?_, ?_⟩ <;> simp

/-- What an instruction makes of the host's mode. -/
theorem effect_hmode {i : Instr} {s t : State} (e : Effect i s t) : t.hmode = s.hmode ∨ t.hmode = .active := by
  cases e with
  | takesQueued => left; simp [State.deliver]
  | takesHanded ea v P src le port ready => cases src with
    | host => right; rfl
    | inst j => left; rfl
  | givesBuffered => left; simp [State.release]
  | givesHanded v P dst => cases dst with
    | host => right; rfl
    | inst j => left; rfl
  | halts => left; simp
  | _ => left; rfl

/-- Only HLT closes a port: the output port of an instance that is then HALTED. -/
theorem effect_closed {i : Instr} {s t : State} (e : Effect i s t) {p : Nat} {Q : Port} (hQ : t.port p = some Q) :
    ∃ P, s.port p = some P ∧ Q.prod = P.prod ∧ (Q.closed = P.closed ∨ (p = s.self.outPort ∧ (s.cur < s.insts.length → (t.inst s.cur).status = .halted))) := by
  cases e with
  | completes I status frec bindings mem rb => exact ⟨Q, hQ, rfl, .inl rfl⟩
  | faults c pc => exact ⟨Q, hQ, rfl, .inl rfl⟩
  | holds => exact ⟨Q, hQ, rfl, .inl rfl⟩
  | takesQueued ea v P rest le port q =>
    rw [State.port_deliver, State.port_dequeue] at hQ
    split at hQ
    · rename_i h; subst h; rw [port] at hQ; cases hQ; exact ⟨P, port, rfl, .inl rfl⟩
    · exact ⟨Q, hQ, rfl, .inl rfl⟩
  | takesHanded ea v P src le port ready => rw [State.port_deliver, State.port_release] at hQ; exact ⟨Q, hQ, rfl, .inl rfl⟩
  | givesBuffered v P port room =>
    rw [State.port_enqueue, State.port_release, State.port_release] at hQ
    split at hQ
    · rename_i h; subst h; rw [port] at hQ; cases hQ; exact ⟨P, port, rfl, .inl rfl⟩
    · exact ⟨Q, hQ, rfl, .inl rfl⟩
  | givesHanded v P dst port io ready => rw [State.port_deliver, State.port_release] at hQ; exact ⟨Q, hQ, rfl, .inl rfl⟩
  | halts m0 m1 m2 e =>
    rw [State.port_setInst, State.port_closePort] at hQ
    split at hQ
    · rename_i h; subst h
      cases hP : s.port s.self.outPort with
      | none => rw [hP] at hQ; cases hQ
      | some P => rw [hP] at hQ; cases hQ; exact ⟨P, rfl, rfl, .inr ⟨rfl, fun hl => by rw [State.inst_setInst_self _ _ _ (by simpa using hl)]⟩⟩
    · exact ⟨Q, hQ, rfl, .inl rfl⟩

end Sys2Proof.Machine
end

