-- ==== Sys2Proof/Laws/Text.lean ====
section
/-! SUPPORT. What the parts of the program-text reader answer (spec/70_reset_and_hazards.md R305). -/

namespace Sys2Proof.Machine

theorem dropSpaces_append {a : List Char} (h : ∀ c ∈ a, isSpace c = true) (t : List Char) : dropSpaces (a ++ t) = dropSpaces t := by
  induction a with
  | nil => rfl
  | cons c a ih =>
    rw [List.cons_append, dropSpaces, if_pos (h c (by simp))]
    exact ih (fun c hc => h c (by simp [hc]))

theorem dropSpaces_split (t : List Char) : ∃ a, t = a ++ dropSpaces t ∧ ∀ c ∈ a, isSpace c = true := by
  induction t with
  | nil => exact ⟨[], rfl, by simp⟩
  | cons c t ih =>
    rw [dropSpaces]
    split
    · rename_i h
      obtain ⟨a, h1, h2⟩ := ih
      refine ⟨c :: a, by rw [List.cons_append, ← h1], ?_⟩
      intro d hd; rcases List.mem_cons.mp hd with rfl | hd
      · exact h
      · exact h2 d hd
    · exact ⟨[], rfl, by simp⟩

theorem dropSpaces_nil {t : List Char} : dropSpaces t = [] ↔ ∀ c ∈ t, isSpace c = true := by
  constructor
  · intro h
    obtain ⟨a, h1, h2⟩ := dropSpaces_split t
    rw [h, List.append_nil] at h1; subst h1; exact h2
  · intro h
    have := dropSpaces_append h []
    simpa [dropSpaces] using this

def foldDigits (acc : Nat) (ds : List Char) : Nat := ds.foldl (fun acc c => 10 * acc + (c.toNat - 48)) acc

theorem readDigits_split (acc : Nat) (t : List Char) : ∃ ds, t = ds ++ (readDigits acc t).2 ∧ (∀ c ∈ ds, isDigit c = true) ∧ (readDigits acc t).1 = foldDigits acc ds ∧ startsWithDigit (readDigits acc t).2 = false := by
  induction t generalizing acc with
  | nil => exact ⟨[], rfl, by simp, rfl, rfl⟩
  | cons c t ih =>
    rw [readDigits]
    split
    · rename_i h
      obtain ⟨ds, h1, h2, h3, h4⟩ := ih (10 * acc + (c.toNat - 48))
      refine ⟨c :: ds, by rw [List.cons_append, ← h1], ?_, h3, h4⟩
      intro d hd; rcases List.mem_cons.mp hd with rfl | hd
      · exact h
      · exact h2 d hd
    · rename_i h; exact ⟨[], rfl, by simp, rfl, by simpa [startsWithDigit] using h⟩

theorem readDigits_append (acc : Nat) {ds : List Char} (h : ∀ c ∈ ds, isDigit c = true) {r : List Char} (hr : startsWithDigit r = false) : readDigits acc (ds ++ r) = (foldDigits acc ds, r) := by
  induction ds generalizing acc with
  | nil => cases r with
    | nil => rfl
    | cons c r => simp [startsWithDigit] at hr; simp [readDigits, hr]; rfl
  | cons c ds ih =>
    rw [List.cons_append, readDigits, if_pos (h c (by simp)), ih _ (fun c hc => h c (by simp [hc]))]; rfl

theorem space_not_digit {c : Char} (h : isSpace c = true) : isDigit c = false := by
  simp [isSpace] at h
  rcases h with ((rfl | rfl) | rfl) | rfl <;> decide

theorem digit_not_space {c : Char} (h : isDigit c = true) : isSpace c = false := by
  cases hs : isSpace c with
  | false => rfl
  | true => rw [space_not_digit hs] at h; cases h

theorem spaces_start {a : List Char} (h : ∀ c ∈ a, isSpace c = true) : startsWithDigit a = false := by
  cases a with
  | nil => rfl
  | cons c a => exact space_not_digit (h c (by simp))

theorem wordOfInt_iff (x : Int) (w : Word) : wordOfInt x = some w ↔ w.toInt = x := by
  unfold wordOfInt
  constructor
  · intro h
    split at h
    · rename_i hx; cases h; exact toInt_wrap64_of_range hx.1 hx.2
    · cases h
  · rintro rfl
    rw [if_pos (toInt_range w), wrap64_toInt]

theorem splitCommas_nocomma {t : List Char} (h : ',' ∉ t) : splitCommas t = [t] := by
  induction t with
  | nil => rfl
  | cons c t ih =>
    have hc : c ≠ ',' := by rintro rfl; simp at h
    rw [splitCommas, if_neg hc, ih (fun hh => h (by simp [hh]))]

theorem splitCommas_append {t : List Char} (h : ',' ∉ t) (r : List Char) : splitCommas (t ++ ',' :: r) = t :: splitCommas r := by
  induction t with
  | nil => rfl
  | cons c t ih =>
    have hc : c ≠ ',' := by rintro rfl; simp at h
    rw [List.cons_append, splitCommas, if_neg hc, ih (fun hh => h (by simp [hh]))]

theorem splitCommas_intercalate : ∀ (ts : List (List Char)), ts ≠ [] → (∀ t ∈ ts, ',' ∉ t) → splitCommas (List.intercalate [','] ts) = ts
  | [], h, _ => absurd rfl h
  | [t], _, h => by simpa [List.intercalate] using splitCommas_nocomma (h t (by simp))
  | t :: u :: r, _, h => by
    have : List.intercalate [','] (t :: u :: r) = t ++ ',' :: List.intercalate [','] (u :: r) := by simp [List.intercalate, List.intersperse]
    rw [this, splitCommas_append (h t (by simp)), splitCommas_intercalate (u :: r) (by simp) (fun t ht => h t (by simp [ht]))]

end Sys2Proof.Machine
end

