-- ==== Sys2Proof/Tests/Slice0.lean ====
section
/-! SUPPORT. Tests of the model by evaluation. Every expected value is the spec's own: the vectors of
spec/95_test_vectors.md (V-L2-...), the worked examples of 30_encoding R99 to R101, or the rule named beside the test. -/

namespace Sys2Proof.Tests

open Sys2Proof.Machine

/-! ### WellFormed: each check refuses an ill-formed term -/

theorem test_wellFormed_refuses_immediate_targets :
    (Instr.add .position .position .immediate).wellFormed = false ∧
    (Instr.mul .position .position .immediate).wellFormed = false ∧
    (Instr.lt .immediate .immediate .immediate).wellFormed = false ∧
    (Instr.eq .relative .position .immediate).wellFormed = false ∧
    (Instr.inp .immediate .position .position).wellFormed = false := by decide

/-- R97: modes of absent parameters are legal. -/
theorem test_wellFormed_accepts :
    (Instr.add .immediate .immediate .relative).wellFormed = true ∧
    (Instr.inp .relative .immediate .immediate).wellFormed = true ∧
    (Instr.hlt .immediate .immediate .immediate).wellFormed = true ∧
    (Instr.out .immediate .immediate .immediate).wellFormed = true := by decide

/-! ### Decode: the words of V-L2-DEC and of the rules -/

/-- V-L2-DEC 1 to 5 and R99: every RRW opcode, with the three modes. -/
theorem test_decode_rrw :
    decode 1101 = .ok (.add .immediate .immediate .position) ∧
    decode 20101 = .ok (.add .immediate .position .relative) ∧
    decode 21101 = .ok (.add .immediate .immediate .relative) ∧
    decode 22201 = .ok (.add .relative .relative .relative) ∧
    decode 1002 = .ok (.mul .position .immediate .position) ∧
    decode 1107 = .ok (.lt .immediate .immediate .position) ∧
    decode 1008 = .ok (.eq .position .immediate .position) := by decide

/-- V-L2-DEC 5, 6, 11 and the worked examples of 41, 42, 44. -/
theorem test_decode_others :
    decode 203 = .ok (.inp .relative .position .position) ∧
    decode 3 = .ok (.inp .position .position .position) ∧
    decode 1104 = .ok (.out .immediate .immediate .position) ∧
    decode 204 = .ok (.out .relative .position .position) ∧
    decode 2105 = .ok (.jt .immediate .relative .position) ∧
    decode 1006 = .ok (.jf .position .immediate .position) ∧
    decode 109 = .ok (.arb .immediate .position .position) := by decide

/-- V-L2-DEC 7 to 10: ignored digits. -/
theorem test_decode_ignored :
    decode 100001 = .ok (.add .position .position .position) ∧
    decode 199 = .ok (.hlt .immediate .position .position) ∧
    decode 2099 = .ok (.hlt .position .relative .position) ∧
    decode 10099 = .ok (.hlt .position .position .immediate) := by decide

/-- V-L2-DEC 12 to 19. -/
theorem test_decode_unknown :
    decode 0 = .error (.unknownOpcode 0) ∧ decode 100 = .error (.unknownOpcode 0) ∧
    decode 98 = .error (.unknownOpcode 98) ∧ decode 39998 = .error (.unknownOpcode 98) ∧
    decode (-1) = .error (.unknownOpcode (-1)) ∧ decode (-99) = .error (.unknownOpcode (-99)) ∧
    decode (-101) = .error (.unknownOpcode (-1)) ∧ decode (-1101) = .error (.unknownOpcode (-1)) := by decide

/-- V-L2-DEC 20 to 30. -/
theorem test_decode_bad_modes :
    decode 301 = .error (.invalidAddressingMode 301 0) ∧ decode 3001 = .error (.invalidAddressingMode 3001 1) ∧
    decode 30001 = .error (.invalidAddressingMode 30001 2) ∧ decode 90001 = .error (.invalidAddressingMode 90001 2) ∧
    decode 399 = .error (.invalidAddressingMode 399 0) ∧ decode 30004 = .error (.invalidAddressingMode 30004 2) ∧
    decode 10001 = .error (.invalidAddressingMode 10001 2) ∧
    decode 11107 = .error (.invalidAddressingMode 11107 2) ∧ decode 103 = .error (.invalidAddressingMode 103 0) ∧
    decode 10301 = .error (.invalidAddressingMode 10301 0) ∧
    decode 31101 = .error (.invalidAddressingMode 31101 2) := by decide

/-- The opcode table's numbering: one word, or a word with parameter words above it. -/
theorem test_decodeTableWord :
    decodeTableWord 64 1101 = some (.add .immediate .immediate .position) ∧
    decodeTableWord 128 (99 + 7 * 2 ^ 64) = some (.hlt .position .position .position) ∧
    decodeTableWord 64 0 = none := by decide

/-! ### The assembler notation -/

/-- R100: `ADD [9], #5, [rb+2]` has `op = 1`, `m0 = 0`, `m1 = 1`, `m2 = 2`, so that the rule's formula gives `21001`; the
`20101` printed beside it is the word of other modes (V-L2-DEC 2). See log 22. -/
theorem test_assemble_example :
    (AsmLine.instr .add [.position (.number 9), .immediate (.number 5), .relPlus (.number 2)]).words [] =
      some [21001, 9, 5, 2] := by decide

/-- V-L3-3: the image of a whole program. -/
theorem test_assemble_program :
    assemble [.instr .arb [.immediate (.number 10)],
      .instr .add [.immediate (.number 3), .immediate (.number 4), .relPlus (.number 0)],
      .instr .out [.relPlus (.number 0)], .instr .hlt []] = some [109, 10, 21101, 3, 4, 0, 204, 0, 99] := by decide

/-- V-L3-1, the first six lines with their label: `JF [20], #14` and the jump back to address 2. -/
theorem test_assemble_label :
    assemble [.instr .inp [.position (.number 20)], .label ['l'],
      .instr .jf [.position (.number 20), .immediate (.label ['h'])], .jmp (.immediate (.label ['l'])),
      .label ['h'], .instr .hlt []] = some [3, 20, 1006, 20, 8, 1105, 1, 2, 99] := by decide

/-! ### Memory -/

/-- R62 to R65. -/
theorem test_memory :
    Memory.read (Memory.write [] 5 7) 5 = 7 ∧ Memory.read (Memory.write [] 5 7) 6 = 0 ∧
    Memory.write (Memory.write [] 5 7) 5 0 = [] ∧
    Memory.write (Memory.write [] 9 1) 3 2 = [(3, 2), (9, 1)] ∧
    Memory.ofImage 0 [4, 0, 6] = [(0, 4), (2, 6)] := by decide

/-- The greatest address of R61 is a legal one, and the next address is negative (V-L2-MEM 2, 3). -/
theorem test_memory_edges :
    checkAddress none 9223372036854775807 = .ok 9223372036854775807 ∧
    checkAddress none (wrap64 9223372036854775808) =
      .error (.negativeAddress (-9223372036854775808) none) := by decide

/-! ### One step of one instruction -/

/-- A RUNNING instance at `pc`. -/
def instAt (image : List Word) (pc rb : Word) (inPort outPort : Nat) : Inst :=
  { pc := pc, rb := rb, mem := Memory.ofImage 0 image, image := image, status := .running, frec := none
    inPort := inPort, outPort := outPort }

/-- An open port. -/
def mkPort (q : List Word) (cap : Nat) (prod cons : Endpoint) : Port :=
  { q := q, closed := false, cap := cap, seed := [], prod := prod, cons := cons }

/-- A started SINGLE at `pc`, with the queue `q` in its input port and room for `room` values in its output port. -/
def single (image : List Word) (pc rb : Word) (q : List Word) (room : Nat) : State :=
  { State.reset with
    started := true
    insts := [instAt image pc rb 0 1]
    ports := [mkPort q q.length .host (.inst 0), mkPort [] room (.inst 0) .host] }

/-- A started PIPELINE of two instances with the unbuffered port 1 between them; instance 0 is named to step. -/
def pair (image₀ image₁ : List Word) : State :=
  { State.reset with
    sched := [.inst 0]
    topo := .pipeline, nInst := 2, started := true
    insts := [instAt image₀ 0 0 0 1, instAt image₁ 0 0 1 2]
    ports := [mkPort [] 0 .host (.inst 0), mkPort [] 0 (.inst 0) (.inst 1), mkPort [] 0 (.inst 1) .host] }

/-- `pc`, `rb`, status and the word at `a` of instance `k` after a step. -/
def seen (s : State) (k a : Nat) : Option (Word × Word × Status × Word) :=
  (nextState? (step s)).map (fun t =>
    ((t.inst k).pc, (t.inst k).rb, (t.inst k).status, Memory.read (t.inst k).mem a))

/-- The fault record of instance `k` after a step. -/
def recorded (s : State) (k : Nat) : Option FaultRecord := (nextState? (step s)).bind (fun t => (t.inst k).frec)

/-- V-L2-ADD 1 (wrap) and 2 (the destination is both sources). -/
theorem test_add :
    seen (single [1101, 9223372036854775807, 1, 5, 99] 0 0 [] 1) 0 5 =
      some (4, 0, .running, -9223372036854775808) ∧
    seen (single [1, 5, 5, 5, 99, 7] 0 0 [] 1) 0 5 = some (4, 0, .running, 14) := by decide

/-- V-L2-ADD 8: the lowest parameter is reported, and nothing is written. -/
theorem test_add_fault :
    recorded (single [1, -1, -2, -3, 99] 0 0 [] 1) 0 = some
      { kind := .negativeAddress, pc := some 0, value := -1, param := some 0, port := none, inst := 0 } ∧
    seen (single [1, -1, -2, -3, 99] 0 0 [] 1) 0 0 = some (0, 0, .faulted, 1) := by decide

/-- V-L2-MUL 2, 3 and 5. -/
theorem test_mul :
    seen (single [1102, -9223372036854775808, -1, 7, 99] 0 0 [] 1) 0 7 =
      some (4, 0, .running, -9223372036854775808) ∧
    seen (single [1102, 4611686018427387904, 2, 7, 99] 0 0 [] 1) 0 7 =
      some (4, 0, .running, -9223372036854775808) ∧
    seen (single [1102, -3, 4, 7, 99] 0 0 [] 1) 0 7 = some (4, 0, .running, -12) := by decide

/-- V-L2-IN 1 and 6 (it writes its own parameter). -/
theorem test_in :
    seen (single [3, 5, 99] 0 0 [42] 1) 0 5 = some (2, 0, .running, 42) ∧
    seen (single [3, 1, 99] 0 0 [7] 1) 0 1 = some (2, 0, .running, 7) := by decide

/-- V-L2-IN 2: the fault leaves the value in the port. -/
theorem test_in_fault :
    recorded (single [203, -1, 99] 0 0 [42] 1) 0 = some
      { kind := .negativeAddress, pc := some 0, value := -1, param := some 0, port := none, inst := 0 } ∧
    (nextState? (step (single [203, -1, 99] 0 0 [42] 1))).map (fun t => t.ports.map Port.q) = some [[42], []] := by
  decide

/-- V-L2-OUT 1 and 3. -/
theorem test_out :
    (nextState? (step (single [104, -5, 99] 0 0 [] 1))).map (fun t => (t.self.pc, t.ports.map Port.q)) =
      some (2, [[], [-5]]) ∧
    (nextState? (step (single [204, 1, 99] 0 0 [] 1))).map (fun t => (t.self.pc, t.ports.map Port.q)) =
      some (2, [[], [1]]) := by decide

/-- R146: OUT and IN on an unbuffered port complete in one step. -/
theorem test_rendezvous :
    seen (pair [104, 7, 99] [3, 0, 99]) 0 0 = some (2, 0, .running, 104) ∧
    seen (pair [104, 7, 99] [3, 0, 99]) 1 0 = some (2, 0, .running, 7) := by decide

/-- V-L2-JT 3 (a negative condition is true) and 9 (a relative target). -/
theorem test_jt :
    seen (single [1105, -1, 5, 0, 0, 99] 0 0 [] 1) 0 0 = some (5, 0, .running, 1105) ∧
    seen (single [109, 5, 2105, 1, 0, 8, 0, 0, 99] 2 5 [] 1) 0 0 = some (8, 5, .running, 109) := by decide

/-- V-L2-JF 4 (not taken), 5 (a negative target is no fault) and 6 (a target not taken is evaluated). -/
theorem test_jf :
    seen (single [1106, -1, 7, 99] 0 0 [] 1) 0 0 = some (3, 0, .running, 1106) ∧
    seen (single [1106, 0, -1] 0 0 [] 1) 0 0 = some (-1, 0, .running, 1106) ∧
    recorded (single [106, 1, -1, 99] 0 0 [] 1) 0 = some
      { kind := .negativeAddress, pc := some 0, value := -1, param := some 1, port := none, inst := 0 } := by decide

/-- V-L2-JT 5: the fetch at a negative `pc`. -/
theorem test_fetch_fault :
    recorded (single [1106, 0, -1] (-1) 0 [] 1) 0 = some
      { kind := .negativeAddress, pc := some (-1), value := -1, param := none, port := none, inst := 0 } := by decide

/-- V-L2-LT 3, 4 and 5. -/
theorem test_lt :
    seen (single [1107, 5, 5, 9, 99] 0 0 [] 1) 0 9 = some (4, 0, .running, 0) ∧
    seen (single [1107, -1, 0, 9, 99] 0 0 [] 1) 0 9 = some (4, 0, .running, 1) ∧
    seen (single [1107, -9223372036854775808, 9223372036854775807, 9, 99] 0 0 [] 1) 0 9 =
      some (4, 0, .running, 1) := by decide

/-- V-L2-EQ 6, 7 and 8. -/
theorem test_eq :
    seen (single [1108, -1, -1, 9, 99] 0 0 [] 1) 0 9 = some (4, 0, .running, 1) ∧
    seen (single [1108, 0, 1, 9, 99] 0 0 [] 1) 0 9 = some (4, 0, .running, 0) ∧
    seen (single [8, 5, 5, 5, 99, 3] 0 0 [] 1) 0 5 = some (4, 0, .running, 1) := by decide

/-- V-L2-ARB 2 (the operand is read through the old base) and 3 (wrap). -/
theorem test_arb :
    seen (single [109, 10, 209, 3, 99, 0, 0, 0, 0, 0, 0, 0, 0, -4] 2 10 [] 1) 0 0 = some (4, 6, .running, 109) ∧
    seen (single [109, 9223372036854775807, 109, 1, 99] 2 9223372036854775807 [] 1) 0 0 =
      some (4, -9223372036854775808, .running, 109) := by decide

/-- V-L2-HLT 1: `pc` stays, the output port is closed, the input port is not. -/
theorem test_hlt :
    seen (single [99] 0 0 [] 1) 0 0 = some (0, 0, .halted, 99) ∧
    (nextState? (step (single [99] 0 0 [] 1))).map (fun t => t.ports.map Port.closed) = some [false, true] := by decide

/-! ### Load and configuration -/

/-- V-L2-TXT 2 to 7 and 9. -/
theorem test_program_text :
    parseText [' ', '1', ',', ' ', '-', '2', ' ', ',', '+', '3', '\n'] = .ok [1, -2, 3] ∧
    parseText [] = .error 0 ∧ parseText ['1', ',', ',', '2'] = .error 1 ∧ parseText ['1', ',', '2', ','] = .error 2 ∧
    parseText ['1', ' ', '2'] = .error 0 ∧ parseText ['1', ',', 'x'] = .error 1 := by decide

/-- V-L2-TXT 3 and 8: the edges of the range of a word. -/
theorem test_program_text_range :
    wordOfInt 9223372036854775807 = some 9223372036854775807 ∧
    wordOfInt (-9223372036854775808) = some (-9223372036854775808) ∧ wordOfInt 9223372036854775808 = none ∧
    wordOfInt (-9223372036854775809) = none := by decide

/-- V-L2-PIC 4: a seed that exceeds its capacity; and V-L2-PIC 6: an unseeded ring of one. -/
theorem test_configuration :
    (State.reset.config .ring 2 [] [[0]]).checkConfig = some .seedExceedsCapacity ∧
    (State.reset.config .ring 1 [] []).checkConfig = none ∧
    (State.reset.config .ring 1 [] []).hasUnseededCycle = true ∧
    (State.reset.config .ring 1 [1] [[5]]).hasUnseededCycle = false := by decide

/-- R306: the image of an instance that did not exist at its LOAD is in its memory after the CONFIG. -/
theorem test_load_before_config :
    let t := ((State.reset.load 1 ['9', '9', ',', '7']).config .ring 2 [1] [[5]])
    (t.inst 1).mem = [(0, 99), (1, 7)] ∧ (t.inst 1).status = .idle ∧ (t.inst 1).inPort = 1 ∧ (t.inst 1).outPort = 0 ∧
    t.checkConfig = none := by decide

/-! ### The interface -/

/-- The placed word runs in the next step: `99` halts, `104` writes the word at its parameter, `3` reads one. -/
theorem test_withFetchWord :
    seen (State.reset.withFetchWord 64 99) 0 0 = some (0, 0, .halted, 99) ∧
    seen (State.reset.withFetchWord 64 1101) 0 0 = some (4, 0, .running, 0) ∧
    seen (State.reset.withFetchWord 64 104) 0 0 = some (2, 0, .running, 104) ∧
    seen (State.reset.withFetchWord 64 3) 0 0 = some (2, 0, .running, 0) := by decide

end Sys2Proof.Tests
end

