-- ==== Sys2Proof/Tests/Witness.lean ====
section
/-! SUPPORT. For every obligation that has hypotheses, a concrete state and operands that meet all of them together, for
each of its clauses: the theorem `witness_<Name>`. -/

namespace Sys2Proof.Tests

open Sys2Proof.Machine

/-! ### Helpers -/

/-- A step whose next state satisfies a test. -/
theorem next_of {r : Result} (f : State → Bool) (h : (nextState? r).map f = some true) : ∃ t, r = .next t ∧ f t = true := by
  cases r with
  | next t => exact ⟨t, rfl, by simpa [nextState?] using h⟩
  | fault e => simp [nextState?] at h
  | refused e => simp [nextState?] at h

/-- A step that gives a next state. -/
theorem next_exists {r : Result} (h : (nextState? r).isSome = true) : ∃ t, r = .next t := by
  cases r with
  | next t => exact ⟨t, rfl⟩
  | fault e => simp [nextState?] at h
  | refused e => simp [nextState?] at h

/-- A property of every entry of a concrete list, by its position. -/
theorem forall_entries {α : Type} {l : List α} {Q : Nat → α → Prop} (h : ∀ x ∈ l.zipIdx, Q x.2 x.1) :
    ∀ p P, l[p]? = some P → Q p P := by
  intro p P hP
  exact h (P, p) (List.mem_zipIdx_iff_getElem?.mpr hP)

theorem atIn_of {I : Inst} {ea : Nat} (h : I.inTarget = some ea) : AtIn I ea := (Inst.inTarget_eq_some _ _).mp h

theorem atOut_of {I : Inst} {v : Word} (h : I.outValue = some v) : AtOut I v := (Inst.outValue_eq_some _ _).mp h

theorem not_atIn_of {I : Inst} (h : I.inTarget = none) (ea : Nat) : ¬ AtIn I ea := by
  intro h'; rw [(Inst.inTarget_eq_some _ _).mpr h'] at h; cases h

theorem not_atOut_of {I : Inst} (h : I.outValue = none) (v : Word) : ¬ AtOut I v := by
  intro h'; rw [(Inst.outValue_eq_some _ _).mpr h'] at h; cases h

theorem wired_of {s : State} (h₁ : s.ports.length = s.topo.portCount s.nInst) (h₂ : s.nInst ≤ s.insts.length)
    (h₃ : ∀ x ∈ s.ports.zipIdx, x.1.prod = s.topo.producer s.nInst x.2 ∧ x.1.cons = s.topo.consumer s.nInst x.2)
    (h₄ : ∀ x ∈ s.insts.zipIdx, x.1.inPort = s.topo.inPort x.2 ∧ x.1.outPort = s.topo.outPort s.nInst x.2) : Wired s :=
  ⟨h₁, h₂, forall_entries (Q := fun p (P : Port) => P.prod = s.topo.producer s.nInst p ∧ P.cons = s.topo.consumer s.nInst p) h₃,
    forall_entries (Q := fun k (I : Inst) => I.inPort = s.topo.inPort k ∧ I.outPort = s.topo.outPort s.nInst k) h₄⟩

theorem systemInv_of {s : State} (h : Wired s) (hn : 1 ≤ s.nInst) (hs : s.topo = .single → s.nInst = 1)
    (hi : ∀ k, k < s.nInst → (s.inst k).status ≠ .idle) (hst : s.started = true) (hl : s.insts.length = s.nInst)
    (hm : s.hmode = .active) (hc : ∀ x ∈ s.ports.zipIdx, x.1.closed = true → x.1.prod = .host) : SystemInv s := by
  refine ⟨h, ⟨fun _ => ⟨hn, hs, hi⟩, fun k I hI _ => ⟨hst, ?_⟩⟩, fun p P hP hcl => ?_⟩
  · by_contra hk
    rw [List.getElem?_eq_none (by omega)] at hI
    cases hI
  · have := forall_entries (Q := fun _ (P : Port) => P.closed = true → P.prod = .host) hc p P hP hcl
    rw [this, hm]
    exact ⟨fun k hk => (by cases hk), fun _ v hv => (by cases hv)⟩

/-- `single` with the port `p` in place of its input port. -/
def singleIn (image : List Word) (p : Port) : State :=
  { single image 0 0 [] 1 with ports := [p, mkPort [] 1 (.inst 0) .host] }

/-- `single` with the output port `p`. -/
def singleOut (image : List Word) (p : Port) : State :=
  { single image 0 0 [] 1 with ports := [mkPort [] 0 .host (.inst 0), p] }

/-- A started RING of one instance with an unbuffered port, the host in JOIN. -/
def loop (image : List Word) : State :=
  { State.reset with
    topo := .ring, nInst := 1, started := true, hmode := .join
    insts := [instAt image 0 0 0 0]
    ports := [mkPort [] 0 (.inst 0) (.inst 0)] }

/-! ### Decode and encode -/

theorem witness_DecodeFollowsTheChecks :
    ((-1 : Word).toInt < 0 ∧ (-9223372036854775808 : Word).toInt < 0) ∧
    ((∀ op : Op, trem (98 : Word).toInt 100 ≠ op.code) ∧ (∀ op : Op, trem (10 : Word).toInt 100 ≠ op.code) ∧
      (∀ op : Op, trem (-1 : Word).toInt 100 ≠ op.code)) ∧
    (trem (301 : Word).toInt 100 = Op.add.code ∧ ∀ m : Mode, digit 301 2 ≠ m.toDigit) ∧
    (trem (3001 : Word).toInt 100 = Op.add.code ∧ digit 3001 2 = Mode.position.toDigit ∧
      ∀ m : Mode, digit 3001 3 ≠ m.toDigit) ∧
    (trem (30099 : Word).toInt 100 = Op.hlt.code ∧ digit 30099 2 = Mode.position.toDigit ∧
      digit 30099 3 = Mode.position.toDigit ∧ ∀ m : Mode, digit 30099 4 ≠ m.toDigit) ∧
    (trem (11101 : Word).toInt 100 = Op.add.code ∧ digit 11101 2 = Mode.immediate.toDigit ∧
      digit 11101 3 = Mode.immediate.toDigit ∧ digit 11101 4 = Mode.immediate.toDigit ∧
      Op.add.writeTarget = some 2) ∧
    (trem (103 : Word).toInt 100 = Op.inp.code ∧ digit 103 2 = Mode.immediate.toDigit ∧
      digit 103 3 = Mode.position.toDigit ∧ digit 103 4 = Mode.position.toDigit ∧ Op.inp.writeTarget = some 0) ∧
    (trem (12101 : Word).toInt 100 = Op.add.code ∧ digit 12101 2 = Mode.immediate.toDigit ∧
      digit 12101 3 = Mode.relative.toDigit ∧ digit 12101 4 = Mode.immediate.toDigit) ∧
    (trem (2101 : Word).toInt 100 = Op.add.code ∧ digit 2101 2 = Mode.immediate.toDigit ∧
      digit 2101 3 = Mode.relative.toDigit ∧ digit 2101 4 = Mode.position.toDigit ∧
      ∀ i, Op.add.writeTarget = some i → [Mode.immediate, .relative, .position][i]? ≠ some .immediate) := by
  refine ⟨by decide, ⟨fun op => by cases op <;> decide, fun op => by cases op <;> decide, fun op => by cases op <;> decide⟩,
    ⟨by decide, fun m => by cases m <;> decide⟩, ⟨by decide, by decide, fun m => by cases m <;> decide⟩,
    ⟨by decide, by decide, by decide, fun m => by cases m <;> decide⟩, by decide, by decide, by decide,
    ⟨by decide, by decide, by decide, by decide, fun i hi => by cases hi; decide⟩⟩

/-- Both sides of the equivalence, with an ignored digit and with a negative word. -/
theorem witness_DecodeInvertsEncode :
    (Instr.add .immediate .immediate .position).wellFormed = true ∧ 0 ≤ (101101 : Word).toInt ∧
    (101101 : Word).toInt % 100000 = (encode (.add .immediate .immediate .position)).toInt ∧
    decode 101101 = .ok (.add .immediate .immediate .position) ∧
    decode (-98899) ≠ .ok (.add .immediate .immediate .position) := by decide

theorem witness_AssembledLineDecodes :
    [AsmOperand.position (.number 9), .immediate (.label ['a']), .relMinus (.number 2)].length = Op.add.nparam ∧
    [AsmOperand.position (.number 9), .immediate (.label ['a']), .relMinus (.number 2)].mapM
      (AsmOperand.word [(['a'], 5)]) = some [9, 5, -2] ∧
    (∀ i, Op.add.writeTarget = some i →
      operandMode [.position (.number 9), .immediate (.label ['a']), .relMinus (.number 2)] i ≠ .immediate) ∧
    ([] : List AsmOperand).length = Op.hlt.nparam ∧ [].mapM (AsmOperand.word []) = some ([] : List Word) := by
  refine ⟨by decide, by decide, fun i hi => by cases hi; decide, by decide, by decide⟩

/-! ### Steps and scheduling -/

theorem witness_StepFetchesDecodesDispatches :
    ((single [99] (-1) 0 [] 1).pick = some (.inst 0) ∧ ((single [99] (-1) 0 [] 1).inst 0).pc.toInt < 0) ∧
    ((single [98] 0 0 [] 1).pick = some (.inst 0) ∧ 0 ≤ ((single [98] 0 0 [] 1).inst 0).pc.toInt ∧
      decode (Memory.read ((single [98] 0 0 [] 1).inst 0).mem 0) = .error (.unknownOpcode 98)) ∧
    ((single [301] 0 0 [] 1).pick = some (.inst 0) ∧ 0 ≤ ((single [301] 0 0 [] 1).inst 0).pc.toInt ∧
      decode (Memory.read ((single [301] 0 0 [] 1).inst 0).mem 0) = .error (.invalidAddressingMode 301 0)) ∧
    ((single [99] 0 0 [] 1).pick = some (.inst 0) ∧ 0 ≤ ((single [99] 0 0 [] 1).inst 0).pc.toInt ∧
      decode (Memory.read ((single [99] 0 0 [] 1).inst 0).mem 0) = .ok (.hlt .position .position .position)) := by
  decide

theorem reset_none_enabled (a : Agent) : State.reset.agentEnabled a = false := by
  cases a with
  | inst k =>
    cases k with
    | zero => decide
    | succ n => simp [State.agentEnabled, State.reset]
  | hostMove => decide
  | hostWait => decide
  | arbiter => decide

theorem witness_AnyEnabledAgentMayStep :
    ((single [99] 0 0 [] 1).pick = some (.inst 0) ∧ (single [99] 0 0 [] 1).agentEnabled (.inst 0) = true) ∧
    ((pair [99] [99]).agentEnabled (.inst 0) = true ∧ (pair [99] [99]).agentEnabled (.inst 1) = true) ∧
    (∀ a, State.reset.agentEnabled a = false) ∧ ∀ t, step State.reset ≠ .next t := by
  refine ⟨by decide, by decide, reset_none_enabled, fun t h => ?_⟩
  have : (nextState? (step State.reset)).isSome = true := by rw [h]; rfl
  revert this
  decide

theorem witness_OnlyPortInstructionsHold :
    (0 < (single [99] 0 0 [] 1).nInst ∧ (single [99] 0 0 [] 1).agentEnabled (.inst 0) = true) ∧
    (0 < (single [3, 5] 0 0 [] 1).nInst ∧ (single [3, 5] 0 0 [] 1).held 0 = true ∧
      AtIn ((single [3, 5] 0 0 [] 1).inst 0) 5) ∧
    (0 < (single [104, 7] 0 0 [] 0).nInst ∧ (single [104, 7] 0 0 [] 0).held 0 = true ∧
      AtOut ((single [104, 7] 0 0 [] 0).inst 0) 7) ∧
    (((singleOut [104, 7] (mkPort [1, 2] 2 (.inst 0) .host)).inst 0).status = .running ∧
      AtOut ((singleOut [104, 7] (mkPort [1, 2] 2 (.inst 0) .host)).inst 0) 7 ∧
      (singleOut [104, 7] (mkPort [1, 2] 2 (.inst 0) .host)).pushHow 1 = .notReady) :=
  ⟨by decide, ⟨by decide, by decide, atIn_of (by decide)⟩, ⟨by decide, by decide, atOut_of (by decide)⟩,
    ⟨by decide, atOut_of (by decide), by decide⟩⟩

/-! ### Faults -/

theorem witness_FaultEntry : 0 < (single [99] 0 0 [] 1).insts.length := by decide

theorem witness_FaultsArePrecise :
    (single [1, -1] 0 0 [] 1).pick = some (.inst 0) ∧
    ∃ t, step (single [1, -1] 0 0 [] 1) = .next t ∧ (t.inst 0).status = .faulted := by
  refine ⟨by decide, ?_⟩
  obtain ⟨t, h, ht⟩ := next_of (r := step (single [1, -1] 0 0 [] 1)) (fun t => (t.inst 0).status == .faulted) (by decide)
  exact ⟨t, h, by simpa using ht⟩

/-! ### Operands and memory -/

theorem witness_ParametersByMode :
    (wrap64 ((9223372036854775807 : Word).toInt + 1 + 0)).toInt < 0 ∧
    (0 ≤ (wrap64 ((instAt [109, 0] 0 0 0 1).pc.toInt + 1 + 0)).toInt ∧
      0 ≤ (Memory.read (instAt [109, 0] 0 0 0 1).mem 1).toInt ∧
      0 ≤ (wrap64 ((instAt [109, 0] 0 0 0 1).rb.toInt + (Memory.read (instAt [109, 0] 0 0 0 1).mem 1).toInt)).toInt) ∧
    (0 ≤ (wrap64 ((instAt [109, -1] 0 0 0 1).pc.toInt + 1 + 0)).toInt ∧
      (Memory.read (instAt [109, -1] 0 0 0 1).mem 1).toInt < 0 ∧
      (wrap64 ((instAt [109, -1] 0 0 0 1).rb.toInt + (Memory.read (instAt [109, -1] 0 0 0 1).mem 1).toInt)).toInt < 0) := by
  decide

theorem witness_MemoryReadsWhatWasWritten :
    (-1 : Word).toInt < 0 ∧ (-9223372036854775808 : Word).toInt < 0 ∧ 0 ≤ (0 : Word).toInt ∧
    0 ≤ (9223372036854775807 : Word).toInt ∧ 9223372036854775807 ≤ Config.addrMax := by decide

theorem witness_MemoryIsWhatItReads :
    Memory.wf (Memory.write [] 9223372036854775807 1) = true ∧ Memory.wf [(9223372036854775807, 1)] = true ∧
    (∀ a, a ≤ Config.addrMax →
      Memory.read (Memory.write [] 9223372036854775807 1) a = Memory.read [(9223372036854775807, 1)] a) :=
  ⟨by decide, by decide, fun _ _ => rfl⟩

/-! ### The instructions -/

/-- The clauses of `RuleRRW`, for the four instructions of that shape. -/
theorem witness_AddResult_MulResult_LtResult_EqResult :
    (single [1, -1, 0, 5] 0 0 [] 1).self.readParam 0 .position = .error (.negativeAddress (-1) (some 0)) ∧
    ((single [1, 0, -1, 5] 0 0 [] 1).self.readParam 0 .position = .ok 1 ∧
      (single [1, 0, -1, 5] 0 0 [] 1).self.readParam 1 .position = .error (.negativeAddress (-1) (some 1))) ∧
    ((single [1, 0, 0, -1] 0 0 [] 1).self.readParam 0 .position = .ok 1 ∧
      (single [1, 0, 0, -1] 0 0 [] 1).self.readParam 1 .position = .ok 1 ∧
      (single [1, 0, 0, -1] 0 0 [] 1).self.writeAddr 2 .position = .error (.negativeAddress (-1) (some 2))) ∧
    ((single [1101, 3, 4, 0] 0 0 [] 1).self.readParam 0 .immediate = .ok 3 ∧
      (single [1101, 3, 4, 0] 0 0 [] 1).self.readParam 1 .immediate = .ok 4 ∧
      (single [1101, 3, 4, 0] 0 0 [] 1).self.writeAddr 2 .position = .ok 0) := by decide

/-- The clauses of `RuleJump`, for JT and JF: a condition that is not zero and one that is. -/
theorem witness_JtResult_JfResult :
    (single [5, -1, 0] 0 0 [] 1).self.readParam 0 .position = .error (.negativeAddress (-1) (some 0)) ∧
    ((single [105, 1, -1] 0 0 [] 1).self.readParam 0 .immediate = .ok 1 ∧
      (single [105, 1, -1] 0 0 [] 1).self.readParam 1 .position = .error (.negativeAddress (-1) (some 1))) ∧
    ((single [1105, -1, 7] 0 0 [] 1).self.readParam 0 .immediate = .ok (-1) ∧ (-1 : Word).toInt ≠ 0 ∧
      (single [1105, -1, 7] 0 0 [] 1).self.readParam 1 .immediate = .ok 7) ∧
    ((single [1105, 0, 7] 0 0 [] 1).self.readParam 0 .immediate = .ok 0 ∧ (0 : Word).toInt = 0 ∧
      (single [1105, 0, 7] 0 0 [] 1).self.readParam 1 .immediate = .ok 7) := by decide

theorem witness_ArbResult :
    (single [9, -1] 0 0 [] 1).self.readParam 0 .position = .error (.negativeAddress (-1) (some 0)) ∧
    (single [109, 5] 0 0 [] 1).self.readParam 0 .immediate = .ok 5 := by decide

theorem witness_HltResult :
    (single [99] 0 0 [] 1).port (single [99] 0 0 [] 1).self.outPort = some (mkPort [] 1 (.inst 0) .host) := by decide

/-- Every clause of IN: its fault, a queued value, end of stream, the two kinds of rendezvous, and the two ways to be
held. -/
theorem witness_InResult :
    (single [203, -1] 0 0 [42] 1).self.writeAddr 0 .relative = .error (.negativeAddress (-1) (some 0)) ∧
    ((single [3, 5] 0 0 [42] 1).self.writeAddr 0 .position = .ok 5 ∧
      (single [3, 5] 0 0 [42] 1).port 0 = some (mkPort [42] 1 .host (.inst 0))) ∧
    ((singleIn [3, 5] { mkPort [] 1 .host (.inst 0) with closed := true }).self.writeAddr 0 .position = .ok 5 ∧
      (singleIn [3, 5] { mkPort [] 1 .host (.inst 0) with closed := true }).port 0 =
        some { mkPort [] 1 .host (.inst 0) with closed := true }) ∧
    (({ single [3, 5] 0 0 [] 1 with hmode := .waitPush 0 8 } : State).self.writeAddr 0 .position = .ok 5 ∧
      ({ single [3, 5] 0 0 [] 1 with hmode := .waitPush 0 8 } : State).port 0 = some (mkPort [] 0 .host (.inst 0)) ∧
      State.readyProducer { single [3, 5] 0 0 [] 1 with hmode := .waitPush 0 8 } 0 (mkPort [] 0 .host (.inst 0)) =
        some (.host, 8)) ∧
    (0 ≠ ({ pair [104, 7] [3, 5] with cur := 1 } : State).cur ∧
      ({ pair [104, 7] [3, 5] with cur := 1 } : State).self.writeAddr 0 .position = .ok 5 ∧
      ({ pair [104, 7] [3, 5] with cur := 1 } : State).port 1 = some (mkPort [] 0 (.inst 0) (.inst 1)) ∧
      State.readyProducer { pair [104, 7] [3, 5] with cur := 1 } 1 (mkPort [] 0 (.inst 0) (.inst 1)) =
        some (.inst 0, 7)) ∧
    ((single [3, 5] 0 0 [] 1).port 0 = some (mkPort [] 0 .host (.inst 0)) ∧
      (single [3, 5] 0 0 [] 1).readyProducer 0 (mkPort [] 0 .host (.inst 0)) = none) ∧
    ((singleIn [3, 5] (mkPort [] 1 .host (.inst 0))).self.writeAddr 0 .position = .ok 5 ∧
      (singleIn [3, 5] (mkPort [] 1 .host (.inst 0))).port 0 = some (mkPort [] 1 .host (.inst 0))) := by decide

/-- Every clause of OUT. -/
theorem witness_OutResult :
    (single [204, -1] 0 0 [] 1).self.readParam 0 .relative = .error (.negativeAddress (-1) (some 0)) ∧
    ((singleOut [104, 7] (mkPort [1] 2 (.inst 0) .host)).self.readParam 0 .immediate = .ok 7 ∧
      (singleOut [104, 7] (mkPort [1] 2 (.inst 0) .host)).port 1 = some (mkPort [1] 2 (.inst 0) .host)) ∧
    ((singleOut [104, 7] (mkPort [1, 2] 2 (.inst 0) .host)).self.readParam 0 .immediate = .ok 7 ∧
      (singleOut [104, 7] (mkPort [1, 2] 2 (.inst 0) .host)).port 1 = some (mkPort [1, 2] 2 (.inst 0) .host)) ∧
    (({ single [104, 7] 0 0 [] 0 with hmode := .waitPop 1 } : State).self.readParam 0 .immediate = .ok 7 ∧
      ({ single [104, 7] 0 0 [] 0 with hmode := .waitPop 1 } : State).port 1 = some (mkPort [] 0 (.inst 0) .host) ∧
      State.readyConsumer { single [104, 7] 0 0 [] 0 with hmode := .waitPop 1 } 1 (mkPort [] 0 (.inst 0) .host) =
        some .host) ∧
    (1 ≠ (pair [104, 7] [3, 5]).cur ∧ (pair [104, 7] [3, 5]).self.readParam 0 .immediate = .ok 7 ∧
      (pair [104, 7] [3, 5]).port 1 = some (mkPort [] 0 (.inst 0) (.inst 1)) ∧
      (pair [104, 7] [3, 5]).readyConsumer 1 (mkPort [] 0 (.inst 0) (.inst 1)) = some (.inst 1 5)) ∧
    ((single [104, 7] 0 0 [] 0).self.readParam 0 .immediate = .ok 7 ∧
      (single [104, 7] 0 0 [] 0).port 1 = some (mkPort [] 0 (.inst 0) .host) ∧
      (single [104, 7] 0 0 [] 0).readyConsumer 1 (mkPort [] 0 (.inst 0) .host) = none) ∧
    ((singleOut [104, 7] { mkPort [] 0 (.inst 0) .host with closed := true }).self.readParam 0 .immediate = .ok 7 ∧
      (singleOut [104, 7] { mkPort [] 0 (.inst 0) .host with closed := true }).port 1 =
        some { mkPort [] 0 (.inst 0) .host with closed := true }) := by decide

/-! ### The port IPC controller -/

/-- A drain: the consumer instance is HALTED. -/
def drained (q : List Word) (h : HostMode) : State :=
  { single [99] 0 0 q 1 with hmode := h, insts := [{ instAt [99] 0 0 0 1 with status := .halted }] }

/-- The left side of each equivalence. -/
theorem witness_ReadyEndpoints :
    (pair [104, 7] [3, 5]).readyConsumer 1 (mkPort [] 0 (.inst 0) (.inst 1)) = some (.inst 1 5) ∧
    (drained [] (.waitPop 0)).readyConsumer 0 (mkPort [] 0 .host (.inst 0)) = some .host ∧
    (pair [104, 7] [3, 5]).readyProducer 1 (mkPort [] 0 (.inst 0) (.inst 1)) = some (.inst 0, 7) ∧
    State.readyProducer { single [3, 5] 0 0 [] 1 with hmode := .waitPush 0 8 } 0 (mkPort [] 0 .host (.inst 0)) =
      some (.host, 8) := by decide

theorem witness_PortOperations :
    (single [99] 0 0 [4, 5] 1).port 0 = some (mkPort [4, 5] 2 .host (.inst 0)) ∧
    (singleIn [99] { mkPort [] 0 .host (.inst 0) with closed := true }).port 0 =
      some { mkPort [] 0 .host (.inst 0) with closed := true } ∧
    ((pair [104, 7] [3, 5]).port 1 = some (mkPort [] 0 (.inst 0) (.inst 1)) ∧
      (pair [104, 7] [3, 5]).readyProducer 1 (mkPort [] 0 (.inst 0) (.inst 1)) = some (.inst 0, 7) ∧
      (pair [104, 7] [3, 5]).readyConsumer 1 (mkPort [] 0 (.inst 0) (.inst 1)) = some (.inst 1 5)) ∧
    (singleIn [99] (mkPort [] 1 .host (.inst 0))).port 0 = some (mkPort [] 1 .host (.inst 0)) ∧
    ((single [99] 0 0 [] 1).port 0 = some (mkPort [] 0 .host (.inst 0)) ∧
      (single [99] 0 0 [] 1).readyProducer 0 (mkPort [] 0 .host (.inst 0)) = none ∧
      (single [99] 0 0 [] 1).readyConsumer 0 (mkPort [] 0 .host (.inst 0)) = none) ∧
    (singleOut [99] { mkPort [] 0 (.inst 0) .host with closed := true }).port 1 =
      some { mkPort [] 0 (.inst 0) .host with closed := true } ∧
    ([] : List Word).length < 1 ∧ 2 ≤ [(4 : Word), 5].length := by decide

theorem witness_RendezvousIsOneJointStep :
    (pair [104, 7] [3, 5]).port 1 = some (mkPort [] 0 (.inst 0) (.inst 1)) ∧
    (((pair [104, 7] [3, 5]).inst 0).status = .running ∧ ((pair [104, 7] [3, 5]).inst 0).outPort = 1 ∧
      0 ≤ ((pair [104, 7] [3, 5]).inst 0).pc.toInt ∧
      decode (Memory.read ((pair [104, 7] [3, 5]).inst 0).mem 0) = .ok (.out .immediate .position .position) ∧
      ((pair [104, 7] [3, 5]).inst 0).readParam 0 .immediate = .ok 7) ∧
    (((pair [104, 7] [3, 5]).inst 1).status = .running ∧ ((pair [104, 7] [3, 5]).inst 1).inPort = 1 ∧
      0 ≤ ((pair [104, 7] [3, 5]).inst 1).pc.toInt ∧
      decode (Memory.read ((pair [104, 7] [3, 5]).inst 1).mem 0) = .ok (.inp .position .position .position) ∧
      ((pair [104, 7] [3, 5]).inst 1).writeAddr 0 .position = .ok 5) := by decide

theorem loop_wired (image : List Word) : Wired (loop image) := by
  refine wired_of rfl (by simp [loop]) ?_ ?_
  · intro x hx
    have : x = (mkPort [] 0 (.inst 0) (.inst 0), 0) := by simpa [loop] using hx
    subst this; exact ⟨rfl, rfl⟩
  · intro x hx
    have : x = (instAt image 0 0 0 0, 0) := by simpa [loop] using hx
    subst this; exact ⟨rfl, (by decide : (0 : Nat) = (0 + 1) % 1)⟩

theorem witness_UnbufferedSelfLoopHolds :
    (LoopStuck (loop [3, 5]) 0 0 ∧ ∃ t, step (loop [3, 5]) = .next t) ∧
    (LoopStuck (loop [104, 7]) 0 0 ∧ ∃ t, step (loop [104, 7]) = .next t) :=
  ⟨⟨⟨loop_wired _, rfl, ⟨_, rfl, rfl, rfl, rfl, rfl, rfl⟩, rfl, ⟨rfl, rfl⟩, .inl ⟨5, atIn_of (by decide)⟩⟩, next_exists (by decide)⟩,
   ⟨⟨loop_wired _, rfl, ⟨_, rfl, rfl, rfl, rfl, rfl, rfl⟩, rfl, ⟨rfl, rfl⟩, .inr ⟨7, atOut_of (by decide)⟩⟩, next_exists (by decide)⟩⟩

/-- Closed ports, a value taken and a value put, and a step before START. -/
theorem witness_PortsAreFifo :
    (¬ ConfigStep { State.reset with moves := [.push 0 1] } ∧
      (∃ t, step { State.reset with moves := [.push 0 1] } = .next t) ∧
      ({ State.reset with moves := [.push 0 1] } : State).port 0 = some (mkPort [] 0 .host (.inst 0))) ∧
    ((single [3, 5] 0 0 [42] 1).started = true ∧ (∃ t, step (single [3, 5] 0 0 [42] 1) = .next t) ∧
      (single [3, 5] 0 0 [42] 1).port 0 = some (mkPort [42] 1 .host (.inst 0))) ∧
    ((single [104, 5] 0 0 [] 1).started = true ∧ (∃ t, step (single [104, 5] 0 0 [] 1) = .next t) ∧
      (single [104, 5] 0 0 [] 1).port 1 = some (mkPort [] 1 (.inst 0) .host)) ∧
    ((singleIn [3, 5] { mkPort [42] 1 .host (.inst 0) with closed := true }).started = true ∧
      (∃ t, step (singleIn [3, 5] { mkPort [42] 1 .host (.inst 0) with closed := true }) = .next t) ∧
      (singleIn [3, 5] { mkPort [42] 1 .host (.inst 0) with closed := true }).port 0 =
        some { mkPort [42] 1 .host (.inst 0) with closed := true }) :=
  ⟨⟨(by rintro ⟨_, topo, n, caps, seeds, h⟩; cases h), next_exists (by decide), by decide⟩,
    ⟨by decide, next_exists (by decide), by decide⟩, ⟨by decide, next_exists (by decide), by decide⟩,
    ⟨by decide, next_exists (by decide), by decide⟩⟩

/-! ### Frames -/

theorem witness_FrameOfMemoryWriters :
    ((∃ t, exec (.add .immediate .immediate .position) (single [1101, 3, 4, 0] 0 0 [] 1) = .next t) ∧
      (single [1101, 3, 4, 0] 0 0 [] 1).self.writeAddr 2 .position = .ok 0) ∧
    ((∃ t, exec (.add .immediate .immediate .position) (single [1101, 3, 4, -1] 0 0 [] 1) = .next t) ∧
      (single [1101, 3, 4, -1] 0 0 [] 1).self.writeAddr 2 .position = .error (.negativeAddress (-1) (some 2))) :=
  ⟨⟨⟨_, rfl⟩, by decide⟩, ⟨⟨_, rfl⟩, by decide⟩⟩

theorem witness_FrameOfRegisterWriters :
    (∃ t, exec (.jt .immediate .immediate .position) (single [1105, 1, 0] 0 0 [] 1) = .next t) ∧
    (∃ t, exec (.jf .immediate .immediate .position) (single [1106, 1, 0] 0 0 [] 1) = .next t) ∧
    (∃ t, exec (.arb .immediate .position .position) (single [109, 1] 0 0 [] 1) = .next t) ∧
    (Instr.jt .immediate .immediate .position).op ≠ .arb := ⟨⟨_, rfl⟩, ⟨_, rfl⟩, ⟨_, rfl⟩, by decide⟩

theorem witness_FrameOfHlt :
    (∃ t, exec (.hlt .position .position .position) (single [99] 0 0 [] 1) = .next t) ∧
    (single [99] 0 0 [] 1).port (single [99] 0 0 [] 1).self.outPort = some (mkPort [] 1 (.inst 0) .host) :=
  ⟨⟨_, rfl⟩, by decide⟩

theorem witness_FrameOfIn :
    ((∃ t, exec (.inp .position .position .position) (single [3, 5] 0 0 [42] 1) = .next t) ∧
      (single [3, 5] 0 0 [42] 1).self.writeAddr 0 .position = .ok 5 ∧
      (single [3, 5] 0 0 [42] 1).port (single [3, 5] 0 0 [42] 1).self.inPort = some (mkPort [42] 1 .host (.inst 0))) ∧
    ((∃ t, exec (.inp .position .position .position) (single [3, -1] 0 0 [42] 1) = .next t) ∧
      (single [3, -1] 0 0 [42] 1).self.writeAddr 0 .position = .error (.negativeAddress (-1) (some 0))) :=
  ⟨⟨next_exists (by decide), by decide, by decide⟩, ⟨next_exists (by decide), by decide⟩⟩

theorem witness_FrameOfOut :
    (∀ ea, ¬ AtIn (single [104, 7] 0 0 [] 1).self ea) ∧
    (∃ t, exec (.out .immediate .position .position) (single [104, 7] 0 0 [] 1) = .next t) ∧
    (single [104, 7] 0 0 [] 1).port (single [104, 7] 0 0 [] 1).self.outPort = some (mkPort [] 1 (.inst 0) .host) :=
  ⟨not_atIn_of (by decide), next_exists (by decide), by decide⟩

/-! ### Invariants that every step keeps -/

theorem single_systemInv (image : List Word) (pc rb : Word) (q : List Word) (room : Nat) :
    SystemInv (single image pc rb q room) := by
  refine systemInv_of (wired_of rfl (by simp [single, State.reset]) ?_ ?_) (by simp [single, State.reset]) (fun _ => rfl) ?_ rfl rfl rfl ?_
  · intro x hx
    have : x = (mkPort q q.length .host (.inst 0), 0) ∨ x = (mkPort [] room (.inst 0) .host, 1) := by simpa [single] using hx
    rcases this with rfl | rfl <;> exact ⟨rfl, rfl⟩
  · intro x hx
    have : x = (instAt image pc rb 0 1, 0) := by simpa [single] using hx
    subst this; exact ⟨rfl, rfl⟩
  · intro k hk
    have : k = 0 := by simp [single, State.reset] at hk; omega
    subst this; simp [single, State.inst, instAt]
  · intro x hx
    have : x = (mkPort q q.length .host (.inst 0), 0) ∨ x = (mkPort [] room (.inst 0) .host, 1) := by simpa [single] using hx
    rcases this with rfl | rfl <;> simp [mkPort]

theorem witness_StepKeepsMemoryCanonical :
    MemoryCanonical (single [1101, 3, 4, 0] 0 0 [] 1) ∧ ∃ t, step (single [1101, 3, 4, 0] 0 0 [] 1) = .next t :=
  ⟨by unfold MemoryCanonical; decide, next_exists (by decide)⟩

theorem witness_StepKeepsQueuesBounded :
    QueuesBounded (single [104, 7] 0 0 [42] 1) ∧ mkPort [] 0 (.inst 0) (.inst 1) ∈ (pair [99] [99]).ports ∧
    QueuesBounded (pair [99] [99]) ∧ ∃ t, step (single [104, 7] 0 0 [42] 1) = .next t :=
  ⟨by unfold QueuesBounded; decide, by decide, by unfold QueuesBounded; decide, next_exists (by decide)⟩

theorem witness_StepKeepsFaultsRecorded :
    FaultsRecorded (single [1, -1] 0 0 [] 1) ∧ ∃ t, step (single [1, -1] 0 0 [] 1) = .next t := by
  refine ⟨fun k I hI => ?_, next_exists (by decide)⟩
  have : I = instAt [1, -1] 0 0 0 1 := by
    cases k with
    | zero => simpa [single] using hI.symm
    | succ n => simp [single] at hI
  subst this
  exact ⟨by decide, fun r hr => by cases hr⟩

theorem witness_StepKeepsSystemInv :
    SystemInv (single [99] 0 0 [] 1) ∧ ∃ t, step (single [99] 0 0 [] 1) = .next t :=
  ⟨single_systemInv .., next_exists (by decide)⟩

theorem witness_ClosedPortsTakeNoValue :
    SystemInv (singleIn [3, 5] { mkPort [42] 1 .host (.inst 0) with closed := true }) ∧
    ¬ ConfigStep (singleIn [3, 5] { mkPort [42] 1 .host (.inst 0) with closed := true }) ∧
    (∃ t, step (singleIn [3, 5] { mkPort [42] 1 .host (.inst 0) with closed := true }) = .next t) ∧
    (singleIn [3, 5] { mkPort [42] 1 .host (.inst 0) with closed := true }).port 0 =
      some { mkPort [42] 1 .host (.inst 0) with closed := true } :=
  ⟨systemInv_of (wired_of (by decide) (by decide) (by decide) (by decide)) (by decide) (by decide) (by decide)
      (by decide) (by decide) (by decide) (by decide),
    not_configStep rfl, next_exists (by decide), by decide⟩

/-! ### Rules of the whole machine -/

/-- `pair` with instance 0 at the end `st`; instance 1 is RUNNING and named to step. -/
def pairEnded (st : Status) (frec : Option FaultRecord) (image₁ : List Word) : State :=
  { pair [99] image₁ with
    sched := [.inst 1]
    insts := [{ instAt [99] 0 0 0 1 with status := st, frec := frec }, instAt image₁ 0 0 1 2] }

theorem witness_TerminatedInstancesAreFinal :
    (((pairEnded .halted none [109, 1]).inst 0).status = .halted ∧
      ∃ t, step (pairEnded .halted none [109, 1]) = .next t) ∧
    (((pairEnded .faulted (some ((Cause.unknownOpcode 0).toRecord 0 0)) [109, 1]).inst 0).status = .faulted ∧
      ∃ t, step (pairEnded .faulted (some ((Cause.unknownOpcode 0).toRecord 0 0)) [109, 1]) = .next t) :=
  ⟨⟨by decide, next_exists (by decide)⟩, ⟨by decide, next_exists (by decide)⟩⟩

theorem status_changes {s : State} (k : Nat)
    (h : (nextState? (step s)).map (fun t => decide ((t.inst k).status ≠ (s.inst k).status)) = some true) :
    ∃ t, step s = .next t ∧ (t.inst k).status ≠ (s.inst k).status := by
  obtain ⟨t, ht, hd⟩ := next_of _ h
  exact ⟨t, ht, by simpa using hd⟩

/-- The four changes of the table: START, HLT, a fault, and a malformed text. -/
theorem witness_StatusChangesAreTheTables :
    (∃ t, step { State.reset with moves := [.start] } = .next t ∧ (t.inst 0).status ≠ .idle) ∧
    (∃ t, step (single [99] 0 0 [] 1) = .next t ∧ (t.inst 0).status ≠ .running) ∧
    (∃ t, step (single [0] 0 0 [] 1) = .next t ∧ (t.inst 0).status ≠ .running) ∧
    (∃ t, step { State.reset with moves := [.load 0 ['x']] } = .next t ∧ (t.inst 0).status ≠ .idle) ∧
    (single [99] 0 0 [] 1).pick = some (.inst 0) :=
  ⟨status_changes 0 (by decide), status_changes 0 (by decide), status_changes 0 (by decide),
    status_changes 0 (by decide), by decide⟩

theorem witness_OnlyArbMovesTheRelativeBase :
    (single [109, 5] 0 0 [] 1).started = true ∧
    ∃ t, step (single [109, 5] 0 0 [] 1) = .next t ∧ (t.inst 0).rb ≠ ((single [109, 5] 0 0 [] 1).inst 0).rb := by
  obtain ⟨t, h, hd⟩ := next_of (r := step (single [109, 5] 0 0 [] 1)) (fun t => (t.inst 0).rb == 5) (by decide)
  have hd : (t.inst 0).rb = 5 := by simpa using hd
  exact ⟨rfl, t, h, by rw [hd]; decide⟩

/-- In its own step, and by its own IN in the step of the producer. -/
theorem witness_MemoryIsPrivate :
    ((single [1101, 3, 4, 0] 0 0 [] 1).started = true ∧ ∃ t, step (single [1101, 3, 4, 0] 0 0 [] 1) = .next t ∧
      (t.inst 0).mem ≠ ((single [1101, 3, 4, 0] 0 0 [] 1).inst 0).mem) ∧
    ((pair [104, 7] [3, 5]).started = true ∧ (pair [104, 7] [3, 5]).pick = some (.inst 0) ∧
      ∃ t, step (pair [104, 7] [3, 5]) = .next t ∧ (t.inst 1).mem ≠ ((pair [104, 7] [3, 5]).inst 1).mem) := by
  obtain ⟨t, h, hd⟩ := next_of (r := step (single [1101, 3, 4, 0] 0 0 [] 1))
    (fun t => decide ((t.inst 0).mem ≠ ((single [1101, 3, 4, 0] 0 0 [] 1).inst 0).mem)) (by decide)
  obtain ⟨u, h', hd'⟩ := next_of (r := step (pair [104, 7] [3, 5]))
    (fun t => decide ((t.inst 1).mem ≠ ((pair [104, 7] [3, 5]).inst 1).mem)) (by decide)
  exact ⟨⟨rfl, t, h, of_decide_eq_true hd⟩, ⟨rfl, by decide, u, h', of_decide_eq_true hd'⟩⟩

theorem witness_ParametersAreConstant :
    (single [99] 0 0 [] 1).started = true ∧ (∃ t, step (single [99] 0 0 [] 1) = .next t) ∧
    (single [99] 0 0 [] 1).port 1 = some (mkPort [] 1 (.inst 0) .host) :=
  ⟨by decide, next_exists (by decide), by decide⟩

/-- The run of `JT #1, #0` at address 0. -/
def jumpRun (n : Nat) : State := { single [1105, 1, 0] 0 0 [] 1 with tick := n }

theorem jumpRun_agentEnabled (n : Nat) (a : Agent) :
    (jumpRun n).agentEnabled a = (single [1105, 1, 0] 0 0 [] 1).agentEnabled a := by
  cases a with
  | inst k =>
    have h := (State.ready_congr (s := single [1105, 1, 0] 0 0 [] 1) (t := jumpRun n) rfl rfl rfl).2.2 k
    simp only [State.agentEnabled, h]
    rfl
  | hostMove => rfl
  | hostWait => rfl
  | arbiter =>
    have h := State.quiescent_congr (s := single [1105, 1, 0] 0 0 [] 1) (t := jumpRun n) rfl rfl rfl rfl rfl
    simp only [State.agentEnabled, h]
    rfl

theorem jumpRun_enabled (n : Nat) (a : Agent) (h : (jumpRun n).agentEnabled a = true) : a = .inst 0 := by
  rw [jumpRun_agentEnabled] at h
  cases a with
  | inst k =>
    cases k with
    | zero => rfl
    | succ m => simp [State.agentEnabled, single, State.reset] at h
  | hostMove => revert h; decide
  | hostWait => revert h; decide
  | arbiter => revert h; decide

theorem jumpRun_pick (n : Nat) : (jumpRun n).pick = some (.inst 0) := by
  cases h : (jumpRun n).pick with
  | none =>
    have := State.pick_none h (.inst 0)
    rw [jumpRun_agentEnabled] at this
    revert this
    decide
  | some a => rw [jumpRun_enabled n a (State.pick_enabled h)]

theorem jumpRun_isRun : IsRun jumpRun := by
  intro n
  have hf : ((jumpRun n).inst 0).fetchInstr = .ok (.jt .immediate .immediate .position) := by
    show (instAt [1105, 1, 0] 0 0 0 1).fetchInstr = _
    decide
  have hj : (instAt [1105, 1, 0] 0 0 0 1).runJump (fun a => !isZero a) .immediate .immediate =
      .ok (instAt [1105, 1, 0] 0 0 0 1) := by decide
  rw [step_inst (jumpRun_pick n) hf]
  show Host.Outcome.next (((jumpRun n).begin (.inst 0)).complete
    ((instAt [1105, 1, 0] 0 0 0 1).runJump (fun a => !isZero a) .immediate .immediate)) = _
  rw [hj]
  rfl

theorem witness_FairRunsReachEveryRunningInstance :
    IsRun jumpRun ∧ WeaklyFair jumpRun ∧ (jumpRun 0).started = true ∧ 0 < (jumpRun 0).nInst ∧
    ((jumpRun 0).inst 0).status = .running ∧ (∀ ea, ¬ AtIn ((jumpRun 0).inst 0) ea) ∧
    (∀ v, ¬ AtOut ((jumpRun 0).inst 0) v) := by
  refine ⟨jumpRun_isRun, fun a n h => ⟨n, Nat.le_refl n, ?_⟩, by decide, by decide, by decide, not_atIn_of (by decide),
    not_atOut_of (by decide)⟩
  rw [jumpRun_enabled n a (h n (Nat.le_refl n))]
  exact jumpRun_pick n

/-! ### Configuration, start and load -/

theorem witness_ProgramTextGrammar :
    [['1'], [' ', '-', '2', '\n']] ≠ ([] : List (List Char)) ∧
    (∀ t ∈ [['1'], [' ', '-', '2', '\n'], []], ',' ∉ t) ∧
    [['1'], [' ', '-', '2', '\n']].map parseToken = [1, -2].map some ∧
    ([['1'], []][1]? = some [] ∧ parseToken [] = none ∧ parseToken ['1'] ≠ none) := by decide

/-- An instance that exists, and one that does not exist yet. -/
theorem witness_LoadResetsOrFaults :
    (State.reset.inst 2).status = .idle ∧ (State.reset.insts.length ≤ 1 ∧ 1 ≤ 2 ∧ 1 ≠ 2) ∧
    (0 ≠ 2 ∧ 0 < State.reset.insts.length) ∧ (State.reset.inst 0).status = .idle ∧
    parseText ['9', '9', ',', '0'] = .ok [99, 0] ∧ parseText ['9', '9', ','] = .error 1 := by decide

theorem witness_ConfigWiresTheTopology :
    (State.reset.config .pipeline 2 [0, 1] [[], [7]]).port 1 =
      some { q := [7], closed := false, cap := 1, seed := [7], prod := .inst 0, cons := .inst 1 } ∧
    (State.reset.config .pipeline 2 [0, 1] [[], [7, 8]]).port 1 =
      some { q := [7], closed := false, cap := 1, seed := [7, 8], prod := .inst 0, cons := .inst 1 } ∧
    1 ≤ 1 ∧ (State.reset.config .pipeline 1 [] []).ports.length = 2 ∧ (State.reset.config .ring 1 [] []).ports.length = 1 ∧
    (1 < 2 ∧ 1 ≤ 1) ∧ 0 < State.reset.insts.length := by decide

/-- A state for each reason, in order, and one that passes, which is wired. -/
theorem witness_ConfigCheckInOrder :
    (State.reset.load 0 ['x']).checkConfig = some .loadFailed ∧
    (State.reset.config .ring 0 [] []).checkConfig = some .noInstances ∧
    (State.reset.config .single 2 [] []).checkConfig = some .badWiring ∧
    (State.reset.config .ring 2 [1] [[0, 0]]).checkConfig = some .seedExceedsCapacity ∧
    (State.reset.config .ring 2 [1] [[0]]).checkConfig = none ∧
    Wired (State.reset.config .ring 2 [1] [[0]]) ∧ 1 ≤ (State.reset.config .ring 2 [1] [[0]]).nInst ∧
    ((State.reset.config .ring 2 [1] [[0]]).topo = .single → (State.reset.config .ring 2 [1] [[0]]).nInst = 1) :=
  ⟨by decide, by decide, by decide, by decide, by decide,
    wired_of (by decide) (by decide) (by decide) (by decide), by decide, by decide⟩

/-- Where the check passes, and where it fails. -/
theorem witness_StartStartsEveryInstance :
    (({ State.reset with moves := [.start] } : State).pick = some .hostMove ∧
      ({ State.reset with moves := [.start] } : State).checkConfig = none ∧
      0 < ({ State.reset with moves := [.start] } : State).nInst ∧
      0 < ({ State.reset with moves := [.start] } : State).insts.length ∧
      (({ State.reset with moves := [.start] } : State).inst 0).status = .idle) ∧
    (({ State.reset.config .ring 2 [] [[1]] with moves := [.start] } : State).pick = some .hostMove ∧
      ({ State.reset.config .ring 2 [] [[1]] with moves := [.start] } : State).checkConfig =
        some .seedExceedsCapacity) := by decide

theorem witness_UnseededCycleOnlyInUnseededRing :
    1 ≤ 1 ∧ (State.reset.config .ring 1 [] []).hasUnseededCycle = true ∧
    (State.reset.config .ring 3 [0, 0, 1] [[], [], [5]]).hasUnseededCycle = false ∧
    (State.reset.config .ring 3 [0, 0, 1] []).hasUnseededCycle = true := by decide

/-! ### Deadlock and the ends of a run -/

/-- A deadlock with the host in JOIN, and one with the host waiting to pop a port it may not drain. -/
theorem witness_DeadlockDeclared :
    ((loop [3, 5]).quiescent = true ∧ (loop [3, 5]).pick = some .arbiter ∧ (loop [3, 5]).configError = none) ∧
    (({ loop [3, 5] with hmode := .waitPop 0 } : State).quiescent = true ∧
      ({ loop [3, 5] with hmode := .waitPop 0 } : State).pick = some .arbiter) := by decide

/-- The arbiter's step, and a MEMREAD of a HALTED instance. -/
theorem witness_QuiescentStaysQuiescent :
    ((loop [3, 5]).quiescent = true ∧ ∃ t, step (loop [3, 5]) = .next t) ∧
    (({ pairEnded .halted none [104, 7] with hmode := .join, moves := [.memRead 0 0], sched := [.hostMove] } :
        State).quiescent = true ∧
      ({ pairEnded .halted none [104, 7] with hmode := .join, moves := [.memRead 0 0], sched := [.hostMove] } :
        State).pick = some .hostMove ∧
      ∃ t, step { pairEnded .halted none [104, 7] with
        hmode := .join, moves := [.memRead 0 0], sched := [.hostMove] } = .next t) :=
  ⟨⟨by decide, next_exists (by decide)⟩, ⟨by decide, by decide, next_exists (by decide)⟩⟩

theorem witness_UnseededRingDeadlocks :
    Wired (loop [3, 5]) ∧ (loop [3, 5]).topo = .ring ∧ 1 ≤ (loop [3, 5]).nInst ∧ (loop [3, 5]).started = true ∧
    (loop [3, 5]).deadlock = none ∧ (loop [3, 5]).hmode = .join ∧ (loop [3, 5]).moves = [] ∧
    (∀ k, k < (loop [3, 5]).nInst → ((loop [3, 5]).inst k).status = .running ∧ ∃ ea, AtIn ((loop [3, 5]).inst k) ea) ∧
    (∀ P ∈ (loop [3, 5]).ports, P.q = [] ∧ P.closed = false) := by
  refine ⟨loop_wired _, rfl, by decide, rfl, rfl, rfl, rfl, fun k hk => ?_, by decide⟩
  have : k = 0 := by
    have : k < 1 := hk
    omega
  subst this
  exact ⟨rfl, 5, atIn_of (by decide)⟩

/-- Each outcome occurs. -/
theorem witness_RunOutcomes :
    ({ State.reset with configError := some .badWiring } : State).outcome = some .configError ∧
    ({ loop [3, 5] with deadlock := some [0] } : State).outcome = some (.deadlock [0]) ∧
    (drained [] .active).outcome = some .success ∧
    (pairEnded .faulted none [99]).outcome = none ∧
    ({ drained [] .active with insts := [{ instAt [0] 0 0 0 1 with status := .faulted }] } : State).outcome =
      some .fault := by decide

/-! ### The host -/

/-- No move, a move that is a step and one that is none; and each move is enabled somewhere, a POP that drains included. -/
theorem witness_HostMovesEnabled :
    State.reset.moves = [] ∧
    (({ State.reset with moves := [.start] } : State).agentEnabled .hostMove = true ∧
      ({ State.reset with moves := [.memRead 0 0] } : State).agentEnabled .hostMove = false ∧
      ({ drained [] .active with moves := [.memRead 0 (-1)] } : State).agentEnabled .hostMove = false ∧
      ({ single [99] 0 0 [] 1 with moves := [.pop 0], sched := [.hostMove] } : State).agentEnabled .hostMove = false) ∧
    State.reset.moveEnabled (.load 0 []) = true ∧ State.reset.moveEnabled (.config .ring 1 [] []) = true ∧
    State.reset.moveEnabled .start = true ∧ (single [99] 0 0 [] 1).moveEnabled (.push 0 1) = true ∧
    (single [99] 0 0 [] 1).moveEnabled (.pop 1) = true ∧ (drained [] .active).moveEnabled (.pop 0) = true ∧
    (single [99] 0 0 [] 1).moveEnabled (.close 0) = true ∧ (single [99] 0 0 [] 1).moveEnabled .join = true ∧
    (drained [] .active).moveEnabled (.memRead 0 9223372036854775807) = true := by decide

theorem witness_HostMoveEffects :
    ({ State.reset with moves := [.load 0 ['9', '9']] } : State).pick = some .hostMove ∧
    ({ State.reset with moves := [.config .ring 3 [] []] } : State).pick = some .hostMove ∧
    ({ drained [] .active with moves := [.push 0 1] } : State).pick = some .hostMove ∧
    ({ drained [] .active with moves := [.pop 1] } : State).pick = some .hostMove ∧
    ({ drained [] .active with moves := [.join] } : State).pick = some .hostMove ∧
    (({ drained [] .active with moves := [.close 0] } : State).pick = some .hostMove ∧
      ({ drained [] .active with moves := [.close 0] } : State).port 0 = some (mkPort [] 0 .host (.inst 0))) ∧
    ({ drained [] .active with moves := [.memRead 0 0] } : State).pick = some .hostMove := by decide

/-- A push into a buffer and into a rendezvous, which can complete, and into a full buffer, which cannot; a pop of a queued value, of the end of stream and in a rendezvous. -/
theorem witness_HostWaitsComplete :
    (({ singleIn [99] (mkPort [] 1 .host (.inst 0)) with hmode := .waitPush 0 4, sched := [.hostWait] } : State).pick =
        some .hostWait ∧ 0 < (mkPort [] 1 .host (.inst 0)).cap) ∧
    (({ singleIn [3, 5] (mkPort [] 0 .host (.inst 0)) with hmode := .waitPush 0 4, sched := [.hostWait] } : State).pick =
        some .hostWait ∧ (mkPort [] 0 .host (.inst 0)).cap = 0) ∧
    (drained [8, 9] (.waitPop 0)).pick = some .hostWait ∧
    (({ drained [] (.waitPop 0) with
        ports := [{ mkPort [] 0 .host (.inst 0) with closed := true }, mkPort [] 1 (.inst 0) .host] } : State).pick =
      some .hostWait) ∧
    (({ single [104, 7] 0 0 [] 0 with hmode := .waitPop 1, sched := [.hostWait] } : State).pick = some .hostWait ∧
      ({ single [104, 7] 0 0 [] 0 with hmode := .waitPop 1, sched := [.hostWait] } : State).port 1 =
        some (mkPort [] 0 (.inst 0) .host)) ∧
    (({ singleIn [99] (mkPort [1] 1 .host (.inst 0)) with hmode := .waitPush 0 4 } : State).agentEnabled .hostWait =
        false ∧
      ({ singleIn [99] (mkPort [1] 1 .host (.inst 0)) with hmode := .waitPush 0 4 } : State).port 0 =
        some (mkPort [1] 1 .host (.inst 0))) ∧
    (({ single [99] 0 0 [] 0 with hmode := .waitPop 1 } : State).agentEnabled .hostWait = false ∧
      ({ single [99] 0 0 [] 0 with hmode := .waitPop 1 } : State).port 1 = some (mkPort [] 0 (.inst 0) .host)) := by
  decide

theorem witness_JoinReturnsEveryEnd :
    ((drained [] .join).hmode = .join ∧ (drained [] .join).pick = some .hostWait) ∧
    ((loop [3, 5]).hmode = .join ∧ (loop [3, 5]).agentEnabled .hostWait = false) := by decide

end Sys2Proof.Tests
end

section
/-! PROOFS of 00_scope: which agents may step (R11; 60_exceptions R286). -/

namespace Sys2Proof.Machine

/-! ### The scheduler's list chooses among the enabled agents and enables none -/

@[simp] theorem State.agentEnabled_withSched (s : State) (l : List Agent) (a : Agent) :
    State.agentEnabled { s with sched := l } a = s.agentEnabled a := rfl

/-- An enabled agent that the scheduler names steps next. -/
theorem State.pick_named {s : State} {a : Agent} {l : List Agent} (hs : s.sched = a :: l)
    (he : s.agentEnabled a = true) : s.pick = some a := by
  simp [State.pick, hs, (State.mem_enabledAgents s a).mpr he]

/-! ### The machine stops exactly when it picks no agent -/

theorem State.pick_eq_none_iff (s : State) : s.pick = none ↔ ∀ a, s.agentEnabled a = false := by
  refine ⟨State.pick_none, fun h => ?_⟩
  cases hp : s.pick with
  | none => rfl
  | some a => exact absurd (State.pick_enabled hp) (by simp [h a])

theorem step_ne_next_iff (s : State) : (∀ t, step s ≠ .next t) ↔ s.pick = none := by
  cases hp : s.pick with
  | none => simp [step, hp, stop_ne_next]
  | some a =>
    obtain ⟨t, ht⟩ := step_next_of_pick hp
    simp [ht]

/-- Settles O7: a pick is enabled, a named enabled agent is picked, and a step has a next state exactly when some agent is
picked. -/
theorem anyEnabledAgentMayStep : Obligations.AnyEnabledAgentMayStep := by
  intro s
  refine ⟨fun a hp => State.pick_enabled hp, fun a he => ?_, ?_⟩
  · exact State.pick_named rfl (by rwa [State.agentEnabled_withSched])
  · rw [step_ne_next_iff, State.pick_eq_none_iff]

end Sys2Proof.Machine
end

section
/-! PROOFS of 10_state, the facts they share: a step is a LOAD, a CONFIG or a START, or it leaves the setup of the system
(`step_split`), and what any step can make of one instance (`step_instStep`). -/

namespace Sys2Proof.Machine

/-! ### The three moves that set the system up, and all other steps -/

/-- What only LOAD, CONFIG and START can change, besides the instances and the ports themselves. -/
structure SameSetup (s t : State) : Prop where
  topo : t.topo = s.topo
  nInst : t.nInst = s.nInst
  started : t.started = s.started
  unseededCycle : t.unseededCycle = s.unseededCycle
  configError : t.configError = s.configError
  insts : t.insts.length = s.insts.length
  ports : t.ports.length = s.ports.length

theorem SameSetup.of_begin {s t : State} {a : Agent} (h : SameSetup (s.begin a) t) : SameSetup s t :=
  ⟨h.topo, h.nInst, h.started, h.unseededCycle, h.configError, h.insts, h.ports⟩

theorem effect_sameSetup {i : Instr} {s t : State} (e : Effect i s t) : SameSetup s t := by
  obtain ⟨system, insts, ports⟩ := effect_system e
  exact ⟨system.topo, system.nInst, system.started, system.unseededCycle, system.configError, insts, ports⟩

theorem wait_sameSetup {s t : State} (e : WaitEffect s t) : SameSetup s t := by
  cases e <;> constructor <;> simp

/-- The state in which the host makes a move that leaves it the moves `rest`. -/
def State.atMove (s : State) (rest : List HostMove) : State := { s.begin .hostMove with moves := rest }

@[simp] theorem State.atMove_ports (s : State) (rest : List HostMove) : (s.atMove rest).ports = s.ports := rfl
@[simp] theorem State.inst_atMove (s : State) (rest : List HostMove) (k : Nat) : (s.atMove rest).inst k = s.inst k := rfl

/-- What a step does to the setup of the system. -/
inductive StepSplit (s : State) : State → Prop where
  /-- It is none of the three moves: it leaves the setup, and runs the instances. -/
  | runs (t : State) (setup : SameSetup s t) (inst : ∀ k, InstChange s k (t.inst k)) : StepSplit s t
  /-- It is a LOAD. -/
  | loads (k : Nat) (text : List Char) (rest : List HostMove) (pick : s.pick = some .hostMove)
      (moves : s.moves = .load k text :: rest) (notStarted : s.started = false) :
      StepSplit s ((s.atMove rest).load k text)
  /-- It is a CONFIG. -/
  | configures (topo : Topo) (n : Nat) (caps : List Nat) (seeds : List (List Word)) (rest : List HostMove)
      (config : ConfigStep s) (notStarted : s.started = false) :
      StepSplit s ((s.atMove rest).config topo n caps seeds)
  /-- It is a START. -/
  | starts (rest : List HostMove) (pick : s.pick = some .hostMove) (moves : s.moves = .start :: rest)
      (notStarted : s.started = false) : StepSplit s (s.atMove rest).start

theorem not_started_of_configurable {s : State} (h : s.configurable = true) : s.started = false := by
  simp only [State.configurable, Bool.and_eq_true, Bool.not_eq_true'] at h
  exact h.1

/-- A host move that leaves the setup and every instance. -/
theorem StepSplit.of_same_insts {s t : State} (setup : SameSetup s t) (insts : t.insts = s.insts) : StepSplit s t :=
  .runs t setup fun k => State.inst_congr insts k ▸ .same

/-- An enabled host move, by its kind. -/
theorem move_split {s : State} {m : HostMove} {rest : List HostMove} (pick : s.pick = some .hostMove)
    (moves : s.moves = m :: rest) (enabled : s.moveEnabled m = true) :
    StepSplit s (State.makeMove (s.atMove rest) m) := by
  cases m with
  | load k text => exact .loads k text rest pick moves (not_started_of_configurable enabled)
  | config topo n caps seeds =>
    exact .configures topo n caps seeds rest ⟨pick, topo, n, caps, seeds, by rw [moves]; rfl⟩
      (not_started_of_configurable enabled)
  | start =>
    simp only [State.moveEnabled, Bool.and_eq_true] at enabled
    exact .starts rest pick moves (not_started_of_configurable enabled.1)
  | push p v => exact .of_same_insts ⟨rfl, rfl, rfl, rfl, rfl, rfl, rfl⟩ rfl
  | pop p => exact .of_same_insts ⟨rfl, rfl, rfl, rfl, rfl, rfl, rfl⟩ rfl
  | close p =>
    refine .of_same_insts ?_ (State.closePort_insts _ p)
    constructor <;> simp only [State.makeMove, State.closePort_topo, State.closePort_nInst, State.closePort_started,
      State.closePort_unseededCycle, State.closePort_configError, State.closePort_insts, State.length_closePort] <;> rfl
  | join => exact .of_same_insts ⟨rfl, rfl, rfl, rfl, rfl, rfl, rfl⟩ rfl
  | memRead k a => exact .of_same_insts ⟨rfl, rfl, rfl, rfl, rfl, rfl, rfl⟩ rfl

/-- Every step is a LOAD, a CONFIG or a START, or leaves the setup. -/
theorem step_split {s t : State} (h : step s = .next t) : StepSplit s t := by
  cases step_cases h with
  | fetchFault j c pick lt running fetch =>
    refine .runs _ (by constructor <;> simp) fun k => ?_
    rcases State.inst_setInst_or (s.begin (.inst j)) j ((s.inst j).fail j c) k with h | ⟨rfl, h⟩
    · exact h ▸ .same
    · exact h ▸ .faults c pick running
  | instr j i t pick lt running fetch run effect =>
    exact .runs t (effect_sameSetup effect).of_begin fun k => instr_instChange k pick running fetch effect
  | move m rest pick moves enabled => exact move_split pick moves enabled
  | wait t pick ready effect =>
    exact .runs t (wait_sameSetup effect).of_begin fun k => wait_instChange k effect
  | deadlock pick quiescent first => exact .of_same_insts ⟨rfl, rfl, rfl, rfl, rfl, rfl, rfl⟩ rfl

/-- A step of a started system leaves the setup. -/
theorem step_sameSetup {s t : State} (hs : s.started = true) (h : step s = .next t) : SameSetup s t := by
  cases step_split h with
  | runs t setup inst => exact setup
  | loads k text rest pick moves notStarted => simp [hs] at notStarted
  | configures topo n caps seeds rest config notStarted => simp [hs] at notStarted
  | starts rest pick moves notStarted => simp [hs] at notStarted

/-- Only a CONFIG changes the number of ports. -/
theorem step_length_ports {s t : State} (hc : ¬ ConfigStep s) (h : step s = .next t) :
    t.ports.length = s.ports.length := by
  cases step_split h with
  | runs t setup inst => exact setup.ports
  | loads k text rest pick moves notStarted => rw [State.ports_load, State.atMove_ports]
  | configures topo n caps seeds rest config notStarted => exact absurd config hc
  | starts rest pick moves notStarted => rw [State.ports_start, State.atMove_ports]

/-- Every port after a step that is no CONFIG comes from one before it. -/
theorem step_portChange_back {s t : State} (hc : ¬ ConfigStep s) (h : step s = .next t) {p : Nat} {Q : Port}
    (hQ : t.port p = some Q) : ∃ P, s.port p = some P ∧ PortChange s p P Q :=
  portChange_back (step_length_ports hc h) (fun _ _ hP => step_portChange hc h hP) hQ

/-- What a CONFIG step answers. -/
theorem step_config {s t : State} (hc : ConfigStep s) (h : step s = .next t) :
    ∃ topo n caps seeds rest, t = (s.atMove rest).config topo n caps seeds := by
  obtain ⟨pick, topo, n, caps, seeds, hm⟩ := hc
  obtain ⟨rest, moves⟩ := List.head?_eq_some_iff.mp hm
  simp only [step, pick, stepAgent, State.nextMove, State.begin_moves, moves] at h
  cases h
  exact ⟨topo, n, caps, seeds, rest, rfl⟩

/-- Every port after a CONFIG is one it made. -/
theorem step_config_port {s t : State} (hc : ConfigStep s) (h : step s = .next t) {p : Nat} {Q : Port}
    (hQ : t.port p = some Q) : ∃ topo n caps seeds, Q = makePort topo n caps seeds p := by
  obtain ⟨topo, n, caps, seeds, rest, rfl⟩ := step_config hc h
  rw [State.port_config] at hQ
  split at hQ
  · cases hQ; exact ⟨topo, n, caps, seeds, rfl⟩
  · cases hQ

end Sys2Proof.Machine
end

section
/-! PROOFS of 10_state, one instance: what any step can make of it, before the start too (`step_instStep`), and what that
leaves of its status and its record (R24, R25; 60_exceptions R243, R244). -/

namespace Sys2Proof.Machine

/-! ### What LOAD, CONFIG and START make of one instance -/

/-- What any step can make of instance `k`. -/
inductive InstStep (s : State) (k : Nat) : Inst → Prop where
  /-- The step is none of LOAD, CONFIG and START. -/
  | runs (J : Inst) (change : InstChange s k J) : InstStep s k J
  /-- LOAD or CONFIG creates it or binds it. -/
  | binds (a b : Nat) : InstStep s k { s.inst k with inPort := a, outPort := b }
  /-- LOAD gives it an image. -/
  | loads (a b : Nat) (ws : List Word) : InstStep s k (Inst.load { s.inst k with inPort := a, outPort := b } ws)
  /-- LOAD faults it. -/
  | loadFails (a b i : Nat) (text : List Char) (pick : s.pick = some .hostMove)
      (moves : s.moves.head? = some (.load k text)) (idle : (s.inst k).status = .idle) :
      InstStep s k (Inst.fail { s.inst k with inPort := a, outPort := b } k (.malformedProgram i))
  /-- START starts it. -/
  | starts (pick : s.pick = some .hostMove) (moves : s.moves.head? = some .start) (idle : (s.inst k).status = .idle) :
      InstStep s k { s.inst k with status := .running }

theorem InstStep.same (s : State) (k : Nat) : InstStep s k (s.inst k) := .runs _ .same

/-- The creation of instances does no more than bind. -/
theorem State.inst_padded_binds (s : State) (n k : Nat) :
    ∃ a b, (s.padded n).inst k = { s.inst k with inPort := a, outPort := b } := by
  by_cases hk : k < s.insts.length
  · exact ⟨_, _, State.inst_padded s n hk⟩
  · by_cases hn : k < n
    · rw [State.inst_padded_new s n (Nat.le_of_not_lt hk) hn, State.inst_ge (Nat.le_of_not_lt hk)]
      exact ⟨_, _, rfl⟩
    · rw [State.inst_ge (by rw [State.length_padded]; omega), State.inst_ge (Nat.le_of_not_lt hk)]
      exact ⟨_, _, rfl⟩

/-- CONFIG does no more than bind. -/
theorem State.inst_config_binds (s : State) (topo : Topo) (n : Nat) (caps : List Nat) (seeds : List (List Word)) (k : Nat) :
    ∃ a b, (s.config topo n caps seeds).inst k = { s.inst k with inPort := a, outPort := b } := by
  by_cases hk : k < max s.insts.length n
  · obtain ⟨a, b, hp⟩ := State.inst_padded_binds s n k
    rw [State.inst_config s topo n caps seeds hk, hp]
    exact ⟨_, _, rfl⟩
  · rw [State.inst_ge (by rw [State.length_config]; omega), State.inst_ge (by omega)]
    exact ⟨_, _, rfl⟩

theorem load_instStep {s : State} {j : Nat} {text : List Char} {rest : List HostMove} (pick : s.pick = some .hostMove)
    (moves : s.moves = .load j text :: rest) (k : Nat) : InstStep s k (((s.atMove rest).load j text).inst k) := by
  obtain ⟨a, b, hp⟩ := State.inst_padded_binds (s.atMove rest) (j + 1) k
  rw [State.inst_atMove] at hp
  rcases State.inst_load (s.atMove rest) j text k with h | ⟨rfl, ws, _, h⟩ | ⟨rfl, idle, i, _, h⟩
  · rw [h, hp]; exact .binds a b
  · rw [h, hp]; exact .loads a b ws
  · rw [hp] at idle
    rw [h, hp]; exact .loadFails a b i text pick (by rw [moves]; rfl) idle

theorem start_instStep {s : State} {rest : List HostMove} (pick : s.pick = some .hostMove)
    (moves : s.moves = .start :: rest) (k : Nat) : InstStep s k ((s.atMove rest).start.inst k) := by
  unfold State.start
  split
  · exact .same s k
  · rw [State.inst_startAll, State.inst_atMove]
    split
    · unfold Inst.start
      split
      · exact .starts pick (by rw [moves]; rfl) (by assumption)
      · exact .same s k
    · exact .same s k

/-- Everything a step can make of one instance. -/
theorem step_instStep {s t : State} (h : step s = .next t) (k : Nat) : InstStep s k (t.inst k) := by
  cases step_split h with
  | runs t setup inst => exact .runs _ (inst k)
  | loads j text rest pick moves notStarted => exact load_instStep pick moves k
  | configures topo n caps seeds rest config notStarted =>
    obtain ⟨a, b, hb⟩ := State.inst_config_binds (s.atMove rest) topo n caps seeds k
    exact hb ▸ .binds a b
  | starts rest pick moves notStarted => exact start_instStep pick moves k

/-! ### What a LOAD leaves of an instance -/

theorem Inst.load_of_ne_idle {I : Inst} (h : I.status ≠ .idle) (ws : List Word) : I.load ws = { I with image := ws } :=
  if_neg h

@[simp] theorem Inst.load_status (I : Inst) (ws : List Word) : (I.load ws).status = I.status := by
  unfold Inst.load
  split
  · rename_i h; exact h.symm
  · rfl

theorem Inst.load_frec (I : Inst) (ws : List Word) : (I.load ws).frec = if I.status = .idle then none else I.frec := by
  unfold Inst.load
  split <;> rfl

/-! ### R25: records -/

/-- The instance has a fault record exactly when it is FAULTED, and the record names it as `k`. -/
def Inst.Recorded (I : Inst) (k : Nat) : Prop :=
  (I.frec.isSome = true ↔ I.status = .faulted) ∧ ∀ r, I.frec = some r → r.inst = k

theorem Inst.Recorded.congr {I J : Inst} {k : Nat} (h : I.Recorded k) (status : J.status = I.status)
    (frec : J.frec = I.frec) : J.Recorded k := by
  unfold Inst.Recorded; rw [status, frec]; exact h

theorem Inst.Recorded.frec_none {I : Inst} {k : Nat} (h : I.Recorded k) (hs : I.status ≠ .faulted) : I.frec = none :=
  Option.not_isSome_iff_eq_none.mp fun hr => hs (h.1.mp hr)

/-- An instance without a record is well recorded where it is not FAULTED. -/
theorem Inst.recorded_of_none {I : Inst} (k : Nat) (frec : I.frec = none) (status : I.status ≠ .faulted) :
    I.Recorded k := by
  simp [Inst.Recorded, frec, status]

theorem Inst.recorded_fail (I : Inst) (k : Nat) (c : Cause) : (I.fail k c).Recorded k := by
  simp [Inst.Recorded, Inst.fail, Cause.toRecord_inst]

theorem instChange_recorded {s : State} {k : Nat} {J : Inst} (hr : (s.inst k).Recorded k) (h : InstChange s k J) :
    J.Recorded k := by
  cases h with
  | own J i pick running fetch status frec bindings mem rb => exact hr.congr status frec
  | faults c pick running => exact Inst.recorded_fail _ k c
  | halts m0 m1 m2 pick running fetch =>
    exact Inst.recorded_of_none k (hr.frec_none (by simp [running])) (by simp)
  | _ => exact hr.congr rfl rfl

theorem instStep_recorded {s : State} {k : Nat} {J : Inst} (hr : (s.inst k).Recorded k) (h : InstStep s k J) :
    J.Recorded k := by
  cases h with
  | runs J change => exact instChange_recorded hr change
  | binds a b => exact hr.congr rfl rfl
  | loads a b ws =>
    by_cases hi : (s.inst k).status = .idle
    · exact Inst.recorded_of_none k (by simp [Inst.load_frec, hi]) (by simp [hi])
    · exact hr.congr (Inst.load_status _ ws) (by simp [Inst.load_frec, hi])
  | loadFails a b i text pick moves idle => exact Inst.recorded_fail _ k _
  | starts pick moves idle => exact Inst.recorded_of_none k (hr.frec_none (by simp [idle])) (by simp)

/-- Settles O37: a fault writes the record with the status, and no other change of an instance makes or leaves FAULTED. -/
theorem stepKeepsFaultsRecorded : Obligations.StepKeepsFaultsRecorded := by
  intro s t hs h
  rw [faultsRecorded_iff] at hs ⊢
  exact fun k => instStep_recorded (hs k) (step_instStep h k)

/-! ### R24: statuses -/

/-- A step leaves a terminated instance but for its image and its bindings, which LOAD and CONFIG may set. -/
theorem instStep_terminated {s : State} {k : Nat} {J : Inst} (hk : (s.inst k).status = .halted ∨ (s.inst k).status = .faulted)
    (h : InstStep s k J) : ∃ image a b, J = { s.inst k with image := image, inPort := a, outPort := b } := by
  have not_running : (s.inst k).status ≠ .running := by rcases hk with hk | hk <;> simp [hk]
  have not_idle : (s.inst k).status ≠ .idle := by rcases hk with hk | hk <;> simp [hk]
  cases h with
  | runs J change =>
    cases change with
    | same => exact ⟨_, _, _, rfl⟩
    | own J i pick running => exact absurd running not_running
    | faults c pick running => exact absurd running not_running
    | halts m0 m1 m2 pick running => exact absurd running not_running
    | sends v running => exact absurd running not_running
    | receives ea v running => exact absurd running not_running
  | binds a b => exact ⟨_, a, b, rfl⟩
  | loads a b ws => exact ⟨ws, a, b, Inst.load_of_ne_idle (I := { s.inst k with inPort := a, outPort := b }) not_idle ws⟩
  | loadFails a b i text pick moves idle => exact absurd idle not_idle
  | starts pick moves idle => exact absurd idle not_idle

/-- Settles O40: what can still be set is the image and the bindings. -/
theorem terminatedInstancesAreFinal : Obligations.TerminatedInstancesAreFinal := by
  intro s t k hk h
  obtain ⟨image, a, b, hJ⟩ := instStep_terminated hk (step_instStep h k)
  rw [hJ]
  exact ⟨rfl, rfl, rfl, rfl, rfl⟩

/-- The status changes of R24's table, with the step that makes each. -/
inductive StatusRow (s : State) (k : Nat) (J : Inst) : Prop where
  | starts (idle : (s.inst k).status = .idle) (status : J.status = .running) (pick : s.pick = some .hostMove)
      (moves : s.moves.head? = some .start)
  | halts (running : (s.inst k).status = .running) (status : J.status = .halted) (pick : s.pick = some (.inst k))
      (fetch : ∃ m0 m1 m2, (s.inst k).fetchInstr = .ok (.hlt m0 m1 m2))
  | faults (running : (s.inst k).status = .running) (status : J.status = .faulted) (pick : s.pick = some (.inst k))
      (frec : ∃ r, J.frec = some r)
  | loadFails (idle : (s.inst k).status = .idle) (status : J.status = .faulted) (pick : s.pick = some .hostMove)
      (moves : ∃ text, s.moves.head? = some (.load k text))

/-- A step leaves the status of an instance or changes it as a row of the table says. -/
theorem instStep_statusRow {s : State} {k : Nat} {J : Inst} (h : InstStep s k J) :
    J.status = (s.inst k).status ∨ StatusRow s k J := by
  cases h with
  | runs J change =>
    cases change with
    | own J i pick running fetch status => exact .inl status
    | faults c pick running => exact .inr (.faults running rfl pick ⟨_, rfl⟩)
    | halts m0 m1 m2 pick running fetch => exact .inr (.halts running rfl pick ⟨m0, m1, m2, fetch⟩)
    | _ => exact .inl rfl
  | binds a b => exact .inl rfl
  | loads a b ws => exact .inl (Inst.load_status _ ws)
  | loadFails a b i text pick moves idle => exact .inr (.loadFails idle rfl pick ⟨text, moves⟩)
  | starts pick moves idle => exact .inr (.starts idle rfl pick moves)

/-- Settles O41: the table is `StatusRow`; a picked instance has a step, so it is RUNNING. -/
theorem statusChangesAreTheTables : Obligations.StatusChangesAreTheTables := by
  refine ⟨rfl, by simp [State.reset, Inst.fresh], fun s k hp => ?_, fun s t k h hne => ?_⟩
  · exact ((State.agentEnabled_inst s k).mp (State.pick_enabled hp)).2.1
  · cases (instStep_statusRow (step_instStep h k)).resolve_left hne with
    | starts idle status pick moves => exact .inl ⟨idle, status, pick, moves⟩
    | halts running status pick fetch => exact .inr (.inl ⟨running, status, pick, fetch⟩)
    | faults running status pick frec => exact .inr (.inr (.inl ⟨running, status, pick, frec⟩))
    | loadFails idle status pick moves => exact .inr (.inr (.inr ⟨idle, status, pick, moves⟩))

end Sys2Proof.Machine
end

section
/-! PROOFS of 10_state, the ports: the bound of a queue (R32) and the order of its values (41_port_io R145). -/

namespace Sys2Proof.Machine

/-! ### What a change of a port leaves -/

theorem portChange_samePortParams {s : State} {p : Nat} {P Q : Port} (h : PortChange s p P Q) : SamePortParams P Q := by
  cases h <;> exact ⟨rfl, rfl, rfl, rfl⟩

theorem portChange_closed {s : State} {p : Nat} {P Q : Port} (h : PortChange s p P Q) (hc : P.closed = true) :
    Q.closed = true := by
  cases h with
  | closes => rfl
  | _ => exact hc

theorem portChange_queue {s : State} {p : Nat} {P Q : Port} (h : PortChange s p P Q) :
    Q.q = P.q ∨ (∃ v, P.q = v :: Q.q) ∨ ∃ v, Q.q = P.q ++ [v] := by
  cases h with
  | same => exact .inl rfl
  | pops v rest q => exact .inr (.inl ⟨v, q⟩)
  | pushes v room who => exact .inr (.inr ⟨v, rfl⟩)
  | closes => exact .inl rfl

theorem portChange_bounded {s : State} {p : Nat} {P Q : Port} (h : PortChange s p P Q) (hP : P.q.length ≤ P.cap) :
    Q.q.length ≤ Q.cap := by
  obtain ⟨cap, _, _, _, shorter | fits⟩ := portChange_params h <;> omega

/-- A step keeps every queue within its capacity: it changes a port as `PortChange` says, or CONFIG makes it with no more
seeds in its queue than fit. -/
theorem step_keeps_queuesBounded {s t : State} (hs : QueuesBounded s) (h : step s = .next t) : QueuesBounded t := by
  rw [queuesBounded_iff] at hs ⊢
  intro p Q hQ
  by_cases hc : ConfigStep s
  · obtain ⟨topo, n, caps, seeds, rfl⟩ := step_config_port hc h hQ
    exact makePort_q_length topo n caps seeds p
  · obtain ⟨P, hP, change⟩ := step_portChange_back hc h hQ
    exact portChange_bounded change (hs p P hP)

/-- Settles O36: the reset state has two empty queues, and every step keeps the bound. -/
theorem stepKeepsQueuesBounded : Obligations.StepKeepsQueuesBounded := by
  refine ⟨by simp [QueuesBounded, State.reset], fun s t hs h => step_keeps_queuesBounded hs h, fun s hs P hP => ?_⟩
  have bound : P.q.length ≤ P.cap := hs P hP
  exact ⟨bound, fun cap => List.length_eq_zero_iff.mp (by omega)⟩

/-- Settles O28: each part is one fact about `PortChange`. -/
theorem portsAreFifo : Obligations.PortsAreFifo := by
  refine ⟨fun s hs => not_configStep hs, fun s t hc h p P hP => ?_⟩
  obtain ⟨Q, hQ, change⟩ := step_portChange hc h hP
  exact ⟨Q, hQ, portChange_samePortParams change, portChange_closed change, portChange_queue change⟩

end Sys2Proof.Machine
end

section
/-! PROOFS of 10_state, the wiring, the start and the closed ports (R24, R26, R31, R32; 60_exceptions R260 to R262):
`SystemInv` is kept part by part. -/

namespace Sys2Proof.Machine

/-! ### The wiring -/

/-- The instance is bound to the ports that the topology of `s` gives instance `k`. -/
def State.Binds (s : State) (k : Nat) (I : Inst) : Prop :=
  I.inPort = s.topo.inPort k ∧ I.outPort = s.topo.outPort s.nInst k

theorem State.Binds.of_same {s : State} {k : Nat} {I J : Inst} (h : s.Binds k I) (same : SameBindings I J) :
    s.Binds k J :=
  ⟨same.inPort.trans h.1, same.outPort.trans h.2⟩

/-- A wired system stays wired where the topology, the ports' endpoints and the bindings stay. -/
theorem Wired.of_same {s t : State} (hw : Wired s) (topo : t.topo = s.topo) (nInst : t.nInst = s.nInst)
    (ports : t.ports.length = s.ports.length) (insts : s.insts.length ≤ t.insts.length)
    (back : ∀ p Q, t.port p = some Q → ∃ P, s.port p = some P ∧ SamePortParams P Q)
    (bound : ∀ k, k < t.insts.length → s.Binds k (t.inst k)) : Wired t := by
  obtain ⟨hports, hinsts, hends, _⟩ := hw
  refine ⟨by rw [ports, topo, nInst, hports], by omega, fun p Q hQ => ?_, fun k I hI => ?_⟩
  · obtain ⟨P, hP, same⟩ := back p Q hQ
    obtain ⟨prod, cons⟩ := hends p P hP
    rw [topo, nInst, same.prod, same.cons]
    exact ⟨prod, cons⟩
  · have hk : k < t.insts.length := (List.getElem?_eq_some_iff.mp hI).1
    rw [topo, nInst, ← State.inst_of_getElem? hI]
    exact bound k hk

theorem Wired.binds {s : State} (hw : Wired s) {k : Nat} (hk : k < s.insts.length) : s.Binds k (s.inst k) := hw.inst hk

/-- A created instance is bound as the topology says (log 9). -/
theorem Wired.binds_padded {s : State} (hw : Wired s) (n : Nat) {k : Nat} (hk : k < (s.padded n).insts.length) :
    s.Binds k ((s.padded n).inst k) := by
  rw [State.length_padded] at hk
  by_cases hl : k < s.insts.length
  · rw [State.inst_padded s n hl]; exact hw.binds hl
  · rw [State.inst_padded_new s n (by omega) (by omega)]; exact ⟨rfl, rfl⟩

theorem Inst.load_bound (I : Inst) (ws : List Word) :
    (I.load ws).inPort = I.inPort ∧ (I.load ws).outPort = I.outPort := by
  unfold Inst.load
  split <;> exact ⟨rfl, rfl⟩

theorem Wired.binds_load {s : State} (hw : Wired s) (j : Nat) (text : List Char) {k : Nat}
    (hk : k < (s.load j text).insts.length) : s.Binds k ((s.load j text).inst k) := by
  have padded := hw.binds_padded (j + 1) (k := k) (by rwa [State.length_padded, ← State.length_load s j text])
  rcases State.inst_load s j text k with h | ⟨rfl, ws, _, h⟩ | ⟨rfl, _, i, _, h⟩
  · rw [h]; exact padded
  · obtain ⟨inPort, outPort⟩ := Inst.load_bound ((s.padded (k + 1)).inst k) ws
    rw [h]; exact ⟨inPort.trans padded.1, outPort.trans padded.2⟩
  · rw [h]; exact padded

/-- CONFIG wires the system, whatever it was. -/
theorem wired_config (s : State) (topo : Topo) (n : Nat) (caps : List Nat) (seeds : List (List Word)) :
    Wired (s.config topo n caps seeds) := by
  refine ⟨State.length_ports_config s topo n caps seeds, ?_, fun p P hP => ?_, fun k I hI => ?_⟩
  · rw [State.length_config]; exact le_max_right _ _
  · have hp := State.port_config s topo n caps seeds p
    rw [State.port, hP] at hp
    split at hp
    · cases hp; exact ⟨rfl, rfl⟩
    · cases hp
  · rw [State.getElem?_config, Option.map_eq_some_iff] at hI
    obtain ⟨J, _, rfl⟩ := hI
    exact ⟨rfl, rfl⟩

/-- START leaves everything but the statuses, `started`, `unseeded_cycle` and `config_error`. -/
theorem State.start_keeps (s : State) :
    s.start.topo = s.topo ∧ s.start.nInst = s.nInst ∧ s.start.insts.length = s.insts.length ∧
      s.start.hmode = s.hmode ∧ ∀ k, SameBindings (s.inst k) (s.start.inst k) := by
  unfold State.start
  split
  · exact ⟨rfl, rfl, rfl, rfl, fun _ => ⟨rfl, rfl, rfl⟩⟩
  · refine ⟨rfl, rfl, State.length_startAll s, rfl, fun k => ?_⟩
    rw [State.inst_startAll]
    unfold Inst.start
    split
    · split <;> exact ⟨rfl, rfl, rfl⟩
    · exact ⟨rfl, rfl, rfl⟩

theorem step_keeps_wired {s t : State} (hw : Wired s) (h : step s = .next t) : Wired t := by
  by_cases hc : ConfigStep s
  · obtain ⟨topo, n, caps, seeds, rest, rfl⟩ := step_config hc h
    exact wired_config _ topo n caps seeds
  · have ports := step_length_ports hc h
    have back : ∀ p Q, t.port p = some Q → ∃ P, s.port p = some P ∧ SamePortParams P Q := fun p Q hQ =>
      let ⟨P, hP, change⟩ := step_portChange_back hc h hQ
      ⟨P, hP, portChange_samePortParams change⟩
    cases step_split h with
    | runs t setup inst =>
      exact hw.of_same setup.topo setup.nInst ports setup.insts.ge back fun k hk =>
        (hw.binds (setup.insts ▸ hk)).of_same (instChange_bindings (inst k))
    | loads j text rest pick moves notStarted =>
      have system := (State.load_system (s.atMove rest) j text).1
      refine hw.of_same system.topo system.nInst ports ?_ back fun k hk => ?_
      · rw [State.length_load]; exact le_max_left _ _
      · exact Wired.binds_load (s := s.atMove rest) hw j text hk
    | configures topo n caps seeds rest config notStarted => exact absurd config hc
    | starts rest pick moves notStarted =>
      obtain ⟨topo, nInst, insts, _, bindings⟩ := State.start_keeps (s.atMove rest)
      exact hw.of_same topo nInst ports insts.ge back fun k hk =>
        (hw.binds (insts ▸ hk)).of_same (bindings k)

/-! ### The start -/

theorem Inst.start_status_ne_idle (I : Inst) : I.start.status ≠ .idle := by
  unfold Inst.start
  split
  · simp
  · assumption

/-- What START makes of the statuses: the check that it passes gives the start's consequences. -/
theorem start_startConsistent {s : State} (hw : Wired s) (hs : StartConsistent s) (notStarted : s.started = false) :
    StartConsistent s.start := by
  unfold State.start
  cases hc : s.checkConfig with
  | some r => exact hs
  | none =>
    obtain ⟨pos, each, _⟩ := checkConfig_none hc
    obtain ⟨_, none_runs⟩ := (startConsistent_iff s).mp hs
    refine (startConsistent_iff _).mpr ⟨fun _ => ⟨pos, hw.single each pos, fun k hk => ?_⟩, fun k hk => ⟨rfl, ?_⟩⟩
    · rw [State.inst_startAll, if_pos ⟨hk, Nat.lt_of_lt_of_le hk hw.2.1⟩]
      exact Inst.start_status_ne_idle _
    · by_contra hge
      rw [State.inst_startAll, if_neg fun hlt => hge hlt.1] at hk
      have started := (none_runs k hk).1
      simp [notStarted] at started

/-- Where no instance is RUNNING or HALTED, none is after a step that is no START. -/
theorem step_keeps_notRunning {s t : State} (hs : StartConsistent s) (notStarted : s.started = false)
    (noStart : s.moves.head? ≠ some .start) (h : step s = .next t) (k : Nat) :
    ¬ ((t.inst k).status = .running ∨ (t.inst k).status = .halted) := by
  have before : ¬ ((s.inst k).status = .running ∨ (s.inst k).status = .halted) := fun hk => by
    have started := (((startConsistent_iff s).mp hs).2 k hk).1
    simp [notStarted] at started
  rcases instStep_statusRow (step_instStep h k) with same | row
  · rw [same]; exact before
  · cases row with
    | starts idle status pick moves => exact absurd moves noStart
    | halts running => exact absurd (.inl running) before
    | faults running status => simp [status]
    | loadFails idle status => simp [status]

theorem startConsistent_of_notStarted {s : State} (notStarted : s.started = false)
    (h : ∀ k, ¬ ((s.inst k).status = .running ∨ (s.inst k).status = .halted)) : StartConsistent s :=
  (startConsistent_iff s).mpr ⟨fun hs => by simp [notStarted] at hs, fun k hk => absurd hk (h k)⟩

/-- Running instances keep the start's consequences. -/
theorem StartConsistent.of_runs {s t : State} (hs : StartConsistent s) (setup : SameSetup s t)
    (inst : ∀ k, InstChange s k (t.inst k)) : StartConsistent t := by
  obtain ⟨after, only⟩ := (startConsistent_iff s).mp hs
  refine (startConsistent_iff t).mpr ⟨fun started => ?_, fun k hk => ?_⟩
  · obtain ⟨pos, single, awake⟩ := after (setup.started ▸ started)
    rw [setup.nInst, setup.topo]
    refine ⟨pos, single, fun k hk => ?_⟩
    rcases instChange_status (inst k) with same | ⟨_, halted | faulted⟩
    · rw [same]; exact awake k hk
    · simp [halted]
    · simp [faulted]
  · rw [setup.started, setup.nInst]
    rcases instChange_status (inst k) with same | ⟨running, _⟩
    · exact only k (same ▸ hk)
    · exact only k (.inl running)

theorem step_keeps_startConsistent {s t : State} (hw : Wired s) (hs : StartConsistent s) (h : step s = .next t) :
    StartConsistent t := by
  cases step_split h with
  | runs t setup inst => exact hs.of_runs setup inst
  | loads j text rest pick moves notStarted =>
    refine startConsistent_of_notStarted ?_ (step_keeps_notRunning hs notStarted (by simp [moves]) h)
    exact (State.load_system (s.atMove rest) j text).1.started.trans notStarted
  | configures topo n caps seeds rest config notStarted =>
    obtain ⟨_, _, _, _, _, moves⟩ := config
    exact startConsistent_of_notStarted notStarted (step_keeps_notRunning hs notStarted (by simp [moves]) h)
  | starts rest pick moves notStarted => exact start_startConsistent (s := s.atMove rest) hw hs notStarted

/-! ### The closed ports -/

theorem State.closed_enqueue (s : State) (p : Nat) (v : Word) (j : Nat) :
    ((s.enqueue p v).port j).map Port.closed = (s.port j).map Port.closed := by
  rw [State.port_enqueue]
  split
  · subst j; rw [Option.map_map]; rfl
  · rfl

theorem State.closed_dequeue (s : State) (p j : Nat) :
    ((s.dequeue p).port j).map Port.closed = (s.port j).map Port.closed := by
  rw [State.port_dequeue]
  split
  · subst j; rw [Option.map_map]; rfl
  · rfl

/-- A completed wait closes no port. -/
theorem wait_closed {s t : State} (e : WaitEffect s t) (p : Nat) :
    (t.port p).map Port.closed = (s.port p).map Port.closed := by
  cases e with
  | pushBuffered j v P mode port host room => rw [State.closed_enqueue, State.port_release]
  | pushHanded j v P k ea mode port host unbuffered isOpen ready => rw [State.port_deliver, State.port_release]
  | popQueued j v P rest mode port host q => rw [State.port_deliver, State.closed_dequeue]
  | popHanded j v P k mode port host empty isOpen unbuffered ready => rw [State.port_deliver, State.port_release]
  | popEnds j P mode port host q closed => rfl
  | joins mode all => rfl

theorem wait_hmode {s t : State} (e : WaitEffect s t) : t.hmode = .active := by
  cases e with
  | pushBuffered p v P mode port host room => rw [State.enqueue_hmode]; rfl
  | _ => rfl

/-- Who closes a port in a step: the instance whose output port it is, which halts, or the host, which produces it. -/
theorem step_closes {s t : State} (h : step s = .next t) {p : Nat} {P Q : Port} (hP : s.port p = some P)
    (hQ : t.port p = some Q) (isOpen : P.closed = false) (closed : Q.closed = true) :
    (∃ k, (s.inst k).status = .running ∧ (s.inst k).outPort = p ∧ (t.inst k).status = .halted) ∨
      (P.prod = .host ∧ t.hmode = .active) := by
  have same : (t.port p).map Port.closed ≠ (s.port p).map Port.closed := by simp [hP, hQ, isOpen, closed]
  cases step_cases h with
  | fetchFault j c pick lt running fetch => exact absurd rfl same
  | instr j i t pick lt running fetch run effect =>
    obtain ⟨P', hP', _, unchanged | ⟨hp, halts⟩⟩ := effect_closed effect hQ
    · rw [State.port_begin] at hP'
      exact absurd (by simp [hQ, hP', unchanged]) same
    · exact .inl ⟨j, running, hp.symm, halts (State.lt_of_status (k := j) (by simp [running]))⟩
  | move m rest pick moves enabled =>
    cases m with
    | load k text => exact absurd (congrArg _ (State.port_congr (State.ports_load _ k text) p)) same
    | config topo n caps seeds =>
      obtain ⟨_, _, _, _, rfl⟩ := step_config_port ⟨pick, topo, n, caps, seeds, by rw [moves]; rfl⟩ h hQ
      cases closed
    | start => exact absurd (congrArg _ (State.port_congr (State.ports_start _) p)) same
    | push q v => exact absurd rfl same
    | pop q => exact absurd rfl same
    | close q =>
      by_cases hq : p = q
      · subst q
        simp only [State.moveEnabled, hP, Bool.and_eq_true, beq_iff_eq, hostPushes_iff] at enabled
        exact .inr ⟨enabled.2, by rw [State.makeMove, State.closePort_hmode]; exact enabled.1⟩
      · exact absurd (by rw [State.makeMove, State.port_closePort, if_neg hq]; rfl) same
    | join => exact absurd rfl same
    | memRead k a => exact absurd rfl same
  | wait t pick ready effect => exact absurd (wait_closed effect p) same
  | deadlock pick quiescent first => exact absurd rfl same

/-- The host comes to wait to push only on a port that is not closed. -/
theorem step_waitPush {s t : State} (h : step s = .next t) {p : Nat} {v : Word} (hm : t.hmode = .waitPush p v) :
    s.hmode = .waitPush p v ∨ ∃ P, s.port p = some P ∧ P.closed = false := by
  cases step_cases h with
  | fetchFault j c pick lt running fetch => exact .inl hm
  | instr j i t pick lt running fetch run effect =>
    rcases effect_hmode effect with same | active
    · exact .inl (same.symm.trans hm)
    · rw [active] at hm; cases hm
  | move m rest pick moves enabled =>
    cases m with
    | load k text => 
      obtain ⟨_, host⟩ := State.load_system (s.atMove rest) k text
      exact .inl (host.hmode.symm.trans hm)
    | config topo n caps seeds => exact .inl hm
    | start => 
      obtain ⟨_, _, _, hmode, _⟩ := State.start_keeps (s.atMove rest)
      exact .inl (hmode.symm.trans hm)
    | push q w =>
      cases hm
      cases hP : s.port p with
      | none => simp [State.moveEnabled, hP] at enabled
      | some P =>
        simp only [State.moveEnabled, hP, Bool.and_eq_true, Bool.not_eq_true'] at enabled
        exact .inr ⟨P, rfl, enabled.2.2⟩
    | pop q => cases hm
    | close q => rw [State.makeMove, State.closePort_hmode] at hm; exact .inl hm
    | join => cases hm
    | memRead k a => exact .inl hm
  | wait t pick ready effect => rw [wait_hmode effect] at hm; cases hm
  | deadlock pick quiescent first => cases hm

/-- In a system that meets the invariant the output port of a RUNNING instance is its own. -/
theorem SystemInv.prod_of_running {s : State} (hs : SystemInv s) {k : Nat} (running : (s.inst k).status = .running)
    {P : Port} (hP : s.port (s.inst k).outPort = some P) : P.prod = .inst k := by
  obtain ⟨wired, start, _⟩ := hs
  obtain ⟨after, only⟩ := (startConsistent_iff s).mp start
  obtain ⟨started, hk⟩ := only k (.inl running)
  obtain ⟨_, single, _⟩ := after started
  obtain ⟨P', hP', prod⟩ := wired.out single hk
  rw [hP] at hP'
  cases hP'
  exact prod

theorem step_keeps_closedPortsQuiet {s t : State} (hs : SystemInv s) (h : step s = .next t) : ClosedPortsQuiet t := by
  have ⟨_, _, quiet⟩ := hs
  intro p Q hQ closed
  by_cases hc : ConfigStep s
  · obtain ⟨_, _, _, _, rfl⟩ := step_config_port hc h hQ
    cases closed
  · obtain ⟨P, hP, change⟩ := step_portChange_back hc h hQ
    rw [(portChange_samePortParams change).prod]
    cases hcl : P.closed with
    | true =>
      obtain ⟨halted, noPush⟩ := quiet p P hP hcl
      refine ⟨fun k hk => ?_, fun host v hm => ?_⟩
      · obtain ⟨_, _, _, hJ⟩ := instStep_terminated (.inl (halted k hk)) (step_instStep h k)
        rw [hJ]; exact halted k hk
      · rcases step_waitPush h hm with waits | ⟨P', hP', isOpen⟩
        · exact noPush host v waits
        · rw [hP] at hP'; cases hP'
          simp [hcl] at isOpen
    | false =>
      rcases step_closes h hP hQ hcl closed with ⟨k, running, rfl, halted⟩ | ⟨host, active⟩
      · rw [hs.prod_of_running running hP]
        exact ⟨fun j hj => by cases hj; exact halted, fun host => by cases host⟩
      · exact ⟨fun k hk => by simp [host] at hk, fun _ v hm => by simp [active] at hm⟩

/-- Settles O38: each part is kept, the start's with the wiring and the closed ports' with both. -/
theorem stepKeepsSystemInv : Obligations.StepKeepsSystemInv := by
  intro s t hs h
  have ⟨wired, start, _⟩ := hs
  exact ⟨step_keeps_wired wired h, step_keeps_startConsistent wired start h, step_keeps_closedPortsQuiet hs h⟩

/-- Settles O39: the one change that adds a value is a push, and a RUNNING instance that pushes is the port's producer,
which is HALTED, or the host waits to push. -/
theorem closedPortsTakeNoValue : Obligations.ClosedPortsTakeNoValue := by
  intro s t hs hc h p P hP closed
  have ⟨_, _, quiet⟩ := hs
  obtain ⟨halted, noPush⟩ := quiet p P hP closed
  obtain ⟨Q, hQ, change⟩ := step_portChange hc h hP
  refine ⟨Q, hQ, portChange_closed change closed, ?_⟩
  cases change with
  | same => exact .inl rfl
  | pops v rest q => exact .inr ⟨v, q⟩
  | closes => exact .inl rfl
  | pushes v room who =>
    rcases who with ⟨k, running, rfl⟩ | ⟨host, waits⟩
    · have := halted k (hs.prod_of_running running hP)
      simp [running] at this
    · exact absurd waits (noPush host v)

end Sys2Proof.Machine
end

section
/-! PROOFS of 10_state, a started run: what changes memory (R39; 20_memory R60, R73, R74) and the relative base (R22), what
is constant (R26, R27, R31), and when an instance is held (R24; 41_port_io R148). -/

namespace Sys2Proof.Machine

/-- What changes the memory of `k`: its own step, or a word that it takes in a rendezvous at its IN. -/
theorem instChange_mem {s : State} {k : Nat} {J : Inst} (h : InstChange s k J) (hne : J.mem ≠ (s.inst k).mem) :
    s.pick = some (.inst k) ∨ ∃ ea v, AtIn (s.inst k) ea ∧ J.mem = Memory.write (s.inst k).mem ea v := by
  cases h with
  | same => exact absurd rfl hne
  | own J i pick => exact .inl pick
  | faults c pick => exact .inl pick
  | halts m0 m1 m2 pick => exact .inl pick
  | sends v running ready => exact absurd rfl hne
  | receives ea v running ready => exact .inr ⟨ea, v, ready, rfl⟩

/-- What changes the relative base of `k`: its own ARB. -/
theorem instChange_rb {s : State} {k : Nat} {J : Inst} (h : InstChange s k J) (hne : J.rb ≠ (s.inst k).rb) :
    s.pick = some (.inst k) ∧ ∃ m0 m1 m2 a, (s.inst k).fetchInstr = .ok (.arb m0 m1 m2) ∧
      (s.inst k).readParam 0 m0 = .ok a ∧ J.rb = wrap64 ((s.inst k).rb.toInt + a.toInt) := by
  cases h with
  | own J i pick running fetch status frec bindings mem rb =>
    obtain ⟨m0, m1, m2, a, rfl, read, hrb⟩ := rb.resolve_left hne
    exact ⟨pick, m0, m1, m2, a, fetch, read, hrb⟩
  | _ => exact absurd rfl hne

/-- Settles O43: a started system's step makes of `k` no more than `InstChange` says. -/
theorem memoryIsPrivate : Obligations.MemoryIsPrivate := fun _ _ k hs h hne =>
  instChange_mem (step_instChange hs h k) hne

/-- Settles O42, by the same case analysis as O43. -/
theorem onlyArbMovesTheRelativeBase : Obligations.OnlyArbMovesTheRelativeBase := fun _ _ k hs h hne =>
  instChange_rb (step_instChange hs h k) hne

/-- Settles O44: no step of a started system is a LOAD, a CONFIG or a START. -/
theorem parametersAreConstant : Obligations.ParametersAreConstant := by
  intro s t hs h
  obtain ⟨topo, nInst, started, unseededCycle, configError, insts, ports⟩ := step_sameSetup hs h
  refine ⟨topo, nInst, started.trans hs, unseededCycle, configError, insts, ports, fun k => ?_, fun p P hP => ?_⟩
  · exact instChange_bindings (step_instChange hs h k)
  · obtain ⟨Q, hQ, change⟩ := step_portChange (not_configStep hs) h hP
    exact ⟨Q, hQ, portChange_samePortParams change⟩

/-- Settles O8: `agentEnabled` adds to `canStep` only that the identifier exists; `held` is read through `AtIn` and `AtOut`. -/
theorem onlyPortInstructionsHold : Obligations.OnlyPortInstructionsHold := by
  intro s k hk
  refine ⟨?_, State.held_iff s k⟩
  rw [State.agentEnabled_inst]
  exact and_iff_right hk

end Sys2Proof.Machine
end

section
/-! PROOFS of 20_memory: what memory reads as (R62 to R66), that it is no more than what it reads as (R65), and that every
step keeps it in canonical form (R61, R65). -/

namespace Sys2Proof.Machine

/-! ### What memory reads as -/

/-- Settles O12: each part is a law of memory or of `checkAddress`. -/
theorem memoryReadsWhatWasWritten : Obligations.MemoryReadsWhatWasWritten := by
  refine ⟨fun m a b v => Memory.read_write m a v b, Memory.read_nil, fun I param a => ⟨fun neg => ?_, fun nonneg => ?_⟩,
    fun ws a ha => ⟨?_, Memory.wf_ofImage ws⟩⟩
  · exact ⟨Inst.memRead_neg I param neg, checkAddress_neg param neg⟩
  · exact ⟨Inst.memRead_nonneg I param nonneg, checkAddress_nonneg param nonneg⟩
  · simpa using Memory.read_ofImage 0 ws a ha

/-- Writing the word that an address already reads as changes nothing (R65). -/
theorem Memory.write_read {m : Memory} {a : Nat} (hm : Memory.wf m = true) (ha : a ≤ Config.addrMax) :
    Memory.write m a (Memory.read m a) = m := by
  refine Memory.ext_of_read (Memory.wf_write _ hm ha) hm fun b _ => ?_
  rw [Memory.read_write]
  split
  · next hb => rw [hb]
  · rfl

/-- Settles O13: the second part follows from the first, since both sides read the same. -/
theorem memoryIsWhatItReads : Obligations.MemoryIsWhatItReads :=
  ⟨fun _ _ hm hm' same => Memory.ext_of_read hm hm' same, fun _ _ hm ha => Memory.write_read hm ha⟩

/-! ### The canonical form -/

/-- LOAD lays out an image, or leaves the memory of an instance that has left IDLE. -/
theorem Inst.wf_load {I : Inst} (ws : List Word) (hI : Memory.wf I.mem = true) : Memory.wf (I.load ws).mem = true := by
  by_cases idle : I.status = .idle
  · rw [Inst.load, if_pos idle]; exact Memory.wf_ofImage ws
  · rw [Inst.load_of_ne_idle idle]; exact hI

/-- A step keeps the memory of every instance canonical: besides what runs the instance, only LOAD sets a memory. -/
theorem instStep_mem_wf {s : State} {k : Nat} {J : Inst} (hk : Memory.wf (s.inst k).mem = true) (h : InstStep s k J) :
    Memory.wf J.mem = true := by
  cases h with
  | runs J change => exact instChange_mem_wf change hk
  | binds a b => exact hk
  | loads a b ws => exact Inst.wf_load ws hk
  | loadFails a b i text pick moves idle => exact hk
  | starts pick moves idle => exact hk

/-- Settles O35, by what a step can make of each instance. -/
theorem stepKeepsMemoryCanonical : Obligations.StepKeepsMemoryCanonical := by
  intro s t hs h
  rw [memoryCanonical_iff] at hs ⊢
  exact fun k => instStep_mem_wf (hs k) (step_instStep h k)

end Sys2Proof.Machine
end

section
/-! PROOFS of 30_encoding, the decoder: one rule per check of R86 in their order, then the digits of an instruction as one
number (R81, R97, R100). -/

namespace Sys2Proof

/-! ### The checks of decode -/

/-- The first check: a number that is no opcode (R86). -/
theorem decode_unknownOpcode {w : Word} (h : ∀ op : Op, trem w.toInt 100 ≠ op.code) :
    decode w = .error (.unknownOpcode (wrap64 (trem w.toInt 100))) := by
  simp only [decode, opOfCode_none h]

/-- A negative word has a remainder that is not positive, and every opcode is positive. -/
theorem trem_ne_code_of_neg {w : Word} (h : w.toInt < 0) (op : Op) : trem w.toInt 100 ≠ op.code := by
  have hrem := (trem_of_neg h).1
  have hcode := (code_range op).1
  omega

/-- The second check: the first of the three digits that is no mode (R86). -/
theorem decode_badDigit {w : Word} {op : Op} (hop : trem w.toInt 100 = op.code) {i : Nat} (hi : i < 3)
    (modes : ∀ j, j < i → ∃ m : Mode, digit w (2 + j) = m.toDigit) (bad : ∀ m : Mode, digit w (2 + i) ≠ m.toDigit) :
    decode w = .error (.invalidAddressingMode w i) := by
  have hbad := modeOfDigit_none bad
  match i, hi with
  | 0, _ => simp [decode, hop, opOfCode_code, hbad]
  | 1, _ =>
    obtain ⟨m0, h0⟩ := modes 0 (by decide)
    simp [decode, hop, opOfCode_code, h0, modeOfDigit_digit, hbad]
  | 2, _ =>
    obtain ⟨m0, h0⟩ := modes 0 (by decide)
    obtain ⟨m1, h1⟩ := modes 1 (by decide)
    simp [decode, hop, opOfCode_code, h0, h1, modeOfDigit_digit, hbad]

/-- A word whose low digits are the opcode and the modes of an instruction (R81). -/
structure HasDigits (w : Word) (op : Op) (m0 m1 m2 : Mode) : Prop where
  op : trem w.toInt 100 = op.code
  m0 : digit w 2 = m0.toDigit
  m1 : digit w 3 = m1.toDigit
  m2 : digit w 4 = m2.toDigit

/-- The last check, where the digits are an opcode and three modes (R86). -/
theorem HasDigits.decode_eq {w : Word} {op : Op} {m0 m1 m2 : Mode} (h : HasDigits w op m0 m1 m2) :
    decode w = if op.immediateTarget m0 m1 m2 then .error (.invalidAddressingMode w (op.writeTarget.getD 0))
      else .ok (op.toInstr m0 m1 m2) := by
  simp [decode, h.op, h.m0, h.m1, h.m2, opOfCode_code, modeOfDigit_digit]

theorem immediateTarget_iff (op : Op) (m0 m1 m2 : Mode) :
    op.immediateTarget m0 m1 m2 = true ↔ ∃ i, op.writeTarget = some i ∧ [m0, m1, m2][i]? = some .immediate := by
  cases op <;> simp [Op.immediateTarget, Op.writeTarget]

theorem HasDigits.decode_immediateTarget {w : Word} {op : Op} {m0 m1 m2 : Mode} (h : HasDigits w op m0 m1 m2) {i : Nat}
    (target : op.writeTarget = some i) (immediate : [m0, m1, m2][i]? = some .immediate) :
    decode w = .error (.invalidAddressingMode w i) := by
  rw [h.decode_eq, if_pos ((immediateTarget_iff ..).mpr ⟨i, target, immediate⟩), target, Option.getD_some]

theorem HasDigits.decode_ok {w : Word} {op : Op} {m0 m1 m2 : Mode} (h : HasDigits w op m0 m1 m2)
    (target : ∀ i, op.writeTarget = some i → [m0, m1, m2][i]? ≠ some .immediate) :
    decode w = .ok (op.toInstr m0 m1 m2) := by
  have : ¬ op.immediateTarget m0 m1 m2 = true := fun himm =>
    let ⟨i, hi, himm⟩ := (immediateTarget_iff ..).mp himm
    target i hi himm
  rw [h.decode_eq, if_neg this]

/-- Settles O1: each clause is one check of the decoder. -/
theorem decodeFollowsTheChecks : Obligations.DecodeFollowsTheChecks := by
  refine ⟨by decide, by decide, fun w => ⟨fun neg => ?_, fun noOp => decode_unknownOpcode noOp, fun op hop => ⟨?_, ?_⟩⟩⟩
  · exact decode_unknownOpcode (trem_ne_code_of_neg neg)
  · exact fun i hi modes bad => decode_badDigit hop hi modes bad
  · intro m0 m1 m2 h0 h1 h2
    have digits : HasDigits w op m0 m1 m2 := ⟨hop, h0, h1, h2⟩
    exact ⟨fun i target immediate => digits.decode_immediateTarget target immediate, digits.decode_ok⟩

/-! ### The digits as one number -/

/-- An instruction is delivered exactly when it is well-formed and the word has its digits. -/
theorem decode_ok_iff_digits (w : Word) (i : Instr) :
    decode w = .ok i ↔ i.wellFormed = true ∧ HasDigits w i.op i.m0 i.m1 i.m2 := by
  constructor
  · intro h
    unfold decode at h
    split at h
    · cases h
    next op hop =>
      split at h
      · cases h
      · cases h
      · cases h
      next m0 m1 m2 h0 h1 h2 =>
        split at h
        · cases h
        next target =>
          obtain rfl : op.toInstr m0 m1 m2 = i := by simpa using h
          obtain ⟨eop, e0, e1, e2⟩ := fields_toInstr op m0 m1 m2
          rw [Instr.wellFormed, eop, e0, e1, e2]
          exact ⟨by simpa using target,
            ⟨opOfCode_some hop, modeOfDigit_some h0, modeOfDigit_some h1, modeOfDigit_some h2⟩⟩
  · rintro ⟨wf, digits⟩
    have target : ¬ i.op.immediateTarget i.m0 i.m1 i.m2 = true := by simpa [Instr.wellFormed] using wf
    rw [digits.decode_eq, if_neg target, toInstr_fields]

theorem HasDigits.nonneg {w : Word} {op : Op} {m0 m1 m2 : Mode} (h : HasDigits w op m0 m1 m2) : 0 ≤ w.toInt :=
  Int.not_lt.mp fun neg => trem_ne_code_of_neg neg op h.op

/-- The number of an instruction has five digits (R81). -/
theorem instrNumber_range (i : Instr) : 0 ≤ instrNumber i ∧ instrNumber i < 100000 := by
  have hop := code_range i.op
  have hm0 := digit_range i.m0
  have hm1 := digit_range i.m1
  have hm2 := digit_range i.m2
  unfold instrNumber
  omega

/-- The digits of an instruction are the word's five low digits, read as the number of R100. -/
theorem hasDigits_iff_number {w : Word} (hw : 0 ≤ w.toInt) (i : Instr) :
    HasDigits w i.op i.m0 i.m1 i.m2 ↔ w.toInt % 100000 = instrNumber i := by
  have rem : trem w.toInt 100 = w.toInt % 100 := trem_of_nonneg hw 100
  have digit2 : digit w 2 = w.toInt / 100 % 10 := digit_of_nonneg hw 2
  have digit3 : digit w 3 = w.toInt / 1000 % 10 := digit_of_nonneg hw 3
  have digit4 : digit w 4 = w.toInt / 10000 % 10 := digit_of_nonneg hw 4
  unfold instrNumber
  constructor
  · rintro ⟨op, m0, m1, m2⟩
    omega
  · intro number
    have hop := code_range i.op
    have hm0 := digit_range i.m0
    have hm1 := digit_range i.m1
    have hm2 := digit_range i.m2
    constructor <;> omega

/-- Settles O2: decode delivers the instruction whose digits the word has, a word with digits is not negative, and its five
low digits are the instruction's number. -/
theorem decodeInvertsEncode : Obligations.DecodeInvertsEncode := by
  intro w i
  rw [decode_ok_iff_digits, toInt_encode]
  refine and_congr_right fun _ => ⟨fun digits => ?_, fun ⟨nonneg, number⟩ => ?_⟩
  · exact ⟨digits.nonneg, (hasDigits_iff_number digits.nonneg i).mp digits⟩
  · exact (hasDigits_iff_number nonneg i).mpr number

/-- Settles O3: ten fixed words. -/
theorem workedDecodeExamples : Obligations.WorkedDecodeExamples := by
  unfold Obligations.WorkedDecodeExamples
  decide

/-- The encoder's words are read back as they are (R86, R100). -/
theorem decode_encode {i : Instr} (wf : i.wellFormed = true) : decode (encode i) = .ok i := by
  obtain ⟨nonneg, lt⟩ := instrNumber_range i
  refine (decodeInvertsEncode _ _).mpr ⟨wf, ?_, ?_⟩
  · rwa [toInt_encode]
  · rw [toInt_encode, Int.emod_eq_of_lt nonneg lt]

end Sys2Proof
end

section
/-! PROOFS of 30_encoding, the machine: the notation's words (R100, R101), the parameters under each mode (R90, R91), and the
step of an instance (R94). -/

namespace Sys2Proof.Machine

/-! ### The notation -/

theorem AsmLine.words_instr {op : Op} {operands : List AsmOperand} {labels : List (List Char × Word)} {ps : List Word}
    (arity : operands.length = op.nparam) (words : operands.mapM (AsmOperand.word labels) = some ps) :
    (AsmLine.instr op operands).words labels =
      some (encode (op.toInstr (operandMode operands 0) (operandMode operands 1) (operandMode operands 2)) :: ps) := by
  simp [AsmLine.words, AsmLine.expand, arity, words]

/-- The checks of R86 let the instruction of an opcode and three modes through exactly when its target is not immediate. -/
theorem wellFormed_toInstr_iff (op : Op) (mode : Nat → Mode) :
    (op.toInstr (mode 0) (mode 1) (mode 2)).wellFormed = true ↔ ∀ i, op.writeTarget = some i → mode i ≠ .immediate := by
  cases op <;> simp [Instr.wellFormed, Op.toInstr, Instr.op, Instr.m0, Instr.m2, Op.immediateTarget, Op.writeTarget]

/-- Settles O4: the instruction word is `encode` of the line's instruction, which decode reads back. -/
theorem assembledLineDecodes : Obligations.AssembledLineDecodes := by
  intro op operands labels ps arity words
  refine ⟨_, AsmLine.words_instr arity words, (mapM_length _ _ _ words).trans arity, ?_, fun target => ?_⟩
  · obtain ⟨eop, e0, e1, e2⟩ := fields_toInstr op (operandMode operands 0) (operandMode operands 1) (operandMode operands 2)
    rw [toInt_encode, instrNumber, eop, e0, e1, e2]
  · exact decode_encode ((wellFormed_toInstr_iff op (operandMode operands)).mpr target)

/-- Settles O5: each pseudo-instruction is its expansion, and the words of the fixed ones follow by `AsmLine.words_instr`. -/
theorem pseudoInstructionWords : Obligations.PseudoInstructionWords := by
  intro labels n t src dst
  exact ⟨rfl, AsmLine.words_instr rfl rfl, AsmLine.words_instr rfl rfl, rfl, AsmLine.words_instr rfl rfl,
    AsmLine.words_instr rfl rfl⟩

/-! ### The step of an instance -/

/-- A picked instance whose fetch or decode fails takes the fault. -/
theorem step_inst_error {s : State} {k : Nat} {c : Cause} (hp : s.pick = some (.inst k))
    (hf : (s.inst k).fetchInstr = .error c) : step s = .next ((s.begin (.inst k)).raise k c) := by
  simp [step, hp, stepAgent, hf]

/-- A word that does not decode is the cause of its decode fault (60_exceptions R241). -/
theorem Inst.fetchInstr_decodeFault {I : Inst} {d : DecodeFault} (hpc : 0 ≤ I.pc.toInt)
    (hd : decode (Memory.read I.mem I.pc.toNat) = .error d) : I.fetchInstr = .error (causeOfDecode d) := by
  rw [Inst.fetchInstr_nonneg hpc, hd]

/-- Settles O6: the fetch faults, the decode faults, or the instruction is executed. -/
theorem stepFetchesDecodesDispatches : Obligations.StepFetchesDecodesDispatches := by
  intro s k hp
  obtain ⟨-, running, -⟩ := (State.agentEnabled_inst s k).mp (State.pick_enabled hp)
  refine ⟨running, rfl, fun neg => ?_, fun nonneg => ⟨?_, ?_, ?_⟩⟩
  · exact step_inst_error hp (Inst.fetchInstr_neg neg)
  · exact fun v hd => step_inst_error hp (Inst.fetchInstr_decodeFault nonneg hd)
  · exact fun w i hd => step_inst_error hp (Inst.fetchInstr_decodeFault nonneg hd)
  · exact fun i hd => step_inst hp ((Inst.fetchInstr_ok_iff _ _).mpr ⟨nonneg, hd⟩)

/-! ### The parameters -/

section
variable {I : Inst} {i : Nat}

theorem Inst.rawParam_neg (h : (I.paramAddr i).toInt < 0) :
    I.rawParam i = .error (.negativeAddress (I.paramAddr i) (some i)) := I.memRead_neg _ h

theorem Inst.rawParam_nonneg (h : 0 ≤ (I.paramAddr i).toInt) :
    I.rawParam i = .ok (Memory.read I.mem (I.paramAddr i).toNat) := I.memRead_nonneg _ h

/-- A parameter whose raw word cannot be read faults in every mode. -/
theorem Inst.readParam_of_rawParam_error {c : Cause} (h : I.rawParam i = .error c) (m : Mode) :
    I.readParam i m = .error c := by
  simp [Inst.readParam, h]

theorem Inst.readParam_immediate {raw : Word} (h : I.rawParam i = .ok raw) : I.readParam i .immediate = .ok raw := by
  simp [Inst.readParam, h]

theorem Inst.readParam_position {raw : Word} (h : I.rawParam i = .ok raw) :
    I.readParam i .position = I.memRead (some i) raw := by
  simp [Inst.readParam, h]

theorem Inst.readParam_relative {raw : Word} (h : I.rawParam i = .ok raw) :
    I.readParam i .relative = I.memRead (some i) (I.relAddr raw) := by
  simp [Inst.readParam, h]

/-- A write target whose raw word cannot be read faults in every mode. -/
theorem Inst.writeAddr_of_rawParam_error {c : Cause} (h : I.rawParam i = .error c) (m : Mode) :
    I.writeAddr i m = .error c := by
  simp [Inst.writeAddr, h]

theorem Inst.writeAddr_position {raw : Word} (h : I.rawParam i = .ok raw) :
    I.writeAddr i .position = checkAddress (some i) raw := by
  simp [Inst.writeAddr, h]

theorem Inst.writeAddr_relative {raw : Word} (h : I.rawParam i = .ok raw) :
    I.writeAddr i .relative = checkAddress (some i) (I.relAddr raw) := by
  simp [Inst.writeAddr, h]

end

/-- Settles O11: each mode reads memory or checks an address at the raw word or relative to `rb`. -/
theorem parametersByMode : Obligations.ParametersByMode := by
  constructor
  · rintro I i _ _ rfl rfl
    refine ⟨fun neg => Inst.readParam_of_rawParam_error (Inst.rawParam_neg neg), fun nonneg => ?_⟩
    have raw := Inst.rawParam_nonneg nonneg
    refine ⟨Inst.readParam_immediate raw, fun h => ?_, fun h => ?_, fun h => ?_, fun h => ?_⟩
    · exact (Inst.readParam_position raw).trans (I.memRead_nonneg _ h)
    · exact (Inst.readParam_position raw).trans (I.memRead_neg _ h)
    · exact (Inst.readParam_relative raw).trans (I.memRead_nonneg _ h)
    · exact (Inst.readParam_relative raw).trans (I.memRead_neg _ h)
  · rintro I i _ _ rfl rfl
    refine ⟨fun neg => Inst.writeAddr_of_rawParam_error (Inst.rawParam_neg neg), fun nonneg => ?_⟩
    have raw := Inst.rawParam_nonneg nonneg
    refine ⟨fun h => ?_, fun h => ?_, fun h => ?_, fun h => ?_⟩
    · exact (Inst.writeAddr_position raw).trans (checkAddress_nonneg _ h)
    · exact (Inst.writeAddr_position raw).trans (checkAddress_neg _ h)
    · exact (Inst.writeAddr_relative raw).trans (checkAddress_nonneg _ h)
    · exact (Inst.writeAddr_relative raw).trans (checkAddress_neg _ h)

end Sys2Proof.Machine
end

section
/-! PROOFS of 40_arithmetic: the rule of the RRW instructions (R82, R121, R124), its encoding, and the frame that follows from
the rule. -/

namespace Sys2Proof

/-! ### The encoding -/

theorem Op.nparam_of_rrw {op : Op} (rrw : op.format = .rrw) : op.nparam = 3 := by
  revert rrw
  cases op <;> decide

theorem Op.writeTarget_of_rrw {op : Op} (rrw : op.format = .rrw) : op.writeTarget = some 2 := by
  revert rrw
  cases op <;> decide

theorem Instr.wellFormed_iff_of_rrw {i : Instr} (rrw : i.op.format = .rrw) :
    i.wellFormed = true ↔ i.m2 ≠ .immediate := by
  simp [Instr.wellFormed, Op.immediateTarget, Op.writeTarget_of_rrw rrw]

end Sys2Proof

namespace Sys2Proof.Machine

/-- The encoding of every RRW instruction (30_encoding R82, R86, R100). -/
theorem encodedAs_of_rrw {i : Instr} (rrw : i.op.format = .rrw) : EncodedAs i .rrw 4 i.op.code (i.m2 ≠ .immediate) :=
  ⟨rrw, by rw [Instr.length, Op.nparam_of_rrw rrw], toInt_encode i, Instr.wellFormed_iff_of_rrw rrw⟩

/-! ### The rule -/

section
variable {I : Inst} {m0 m1 m2 : Mode} {a b : Word} {c : Cause} (f : Word → Word → Word)

theorem Inst.runRRW_fault_zero (h0 : I.readParam 0 m0 = .error c) : I.runRRW f m0 m1 m2 = .error c := by
  simp [Inst.runRRW, h0]

theorem Inst.runRRW_fault_one (h0 : I.readParam 0 m0 = .ok a) (h1 : I.readParam 1 m1 = .error c) :
    I.runRRW f m0 m1 m2 = .error c := by
  simp [Inst.runRRW, h0, h1]

theorem Inst.runRRW_fault_two (h0 : I.readParam 0 m0 = .ok a) (h1 : I.readParam 1 m1 = .ok b)
    (h2 : I.writeAddr 2 m2 = .error c) : I.runRRW f m0 m1 m2 = .error c := by
  simp [Inst.runRRW, h0, h1, h2]

theorem Inst.runRRW_ok {ea : Nat} (h0 : I.readParam 0 m0 = .ok a) (h1 : I.readParam 1 m1 = .ok b)
    (h2 : I.writeAddr 2 m2 = .ok ea) :
    I.runRRW f m0 m1 m2 = .ok { I with mem := Memory.write I.mem ea (f a b), pc := wrap64 (I.pc.toInt + 4) } := by
  simp [Inst.runRRW, h0, h1, h2, Inst.advance, Inst.nextPc_three]

end

/-- An instruction that completes with the shared RRW shape follows the RRW rule. -/
theorem ruleRRW_of_exec {i : Instr} {m0 m1 m2 : Mode} {f : Word → Word → Word}
    (hexec : ∀ s, exec i s = .next (s.complete (s.self.runRRW f m0 m1 m2))) : RuleRRW i m0 m1 m2 f := by
  intro s
  refine ⟨fun c h0 => ?_, fun a c h0 h1 => ?_, fun a b c h0 h1 h2 => ?_, fun a b ea h0 h1 h2 => ?_⟩
  · rw [hexec, Inst.runRRW_fault_zero f h0, State.complete]
  · rw [hexec, Inst.runRRW_fault_one f h0 h1, State.complete]
  · rw [hexec, Inst.runRRW_fault_two f h0 h1 h2, State.complete]
  · rw [hexec, Inst.runRRW_ok f h0 h1 h2, State.complete]

theorem add_ruleRRW (m0 m1 m2 : Mode) : RuleRRW (.add m0 m1 m2) m0 m1 m2 addWord := ruleRRW_of_exec fun _ => rfl

theorem mul_ruleRRW (m0 m1 m2 : Mode) : RuleRRW (.mul m0 m1 m2) m0 m1 m2 mulWord := ruleRRW_of_exec fun _ => rfl

theorem lt_ruleRRW (m0 m1 m2 : Mode) : RuleRRW (.lt m0 m1 m2) m0 m1 m2 (fun a b => boolWord (lessThan a b)) :=
  ruleRRW_of_exec fun _ => rfl

theorem eq_ruleRRW (m0 m1 m2 : Mode) : RuleRRW (.eq m0 m1 m2) m0 m1 m2 (fun a b => boolWord (equalTo a b)) :=
  ruleRRW_of_exec fun _ => rfl

/-- Settles O14: the encoding of the RRW format and the RRW rule, with the sum as the result. -/
theorem addResult : Obligations.AddResult := fun m0 m1 m2 => ⟨encodedAs_of_rrw rfl, add_ruleRRW m0 m1 m2⟩

/-- Settles O15: the encoding of the RRW format and the RRW rule, with the product as the result. -/
theorem mulResult : Obligations.MulResult := fun m0 m1 m2 => ⟨encodedAs_of_rrw rfl, mul_ruleRRW m0 m1 m2⟩

/-! ### The frame -/

theorem State.sameSystem_setInst (s : State) (k : Nat) (I : Inst) : SameSystem s (s.setInst k I) := by
  constructor <;> rfl

theorem State.sameHost_setInst (s : State) (k : Nat) (I : Inst) : SameHost s (s.setInst k I) := ⟨rfl, rfl⟩

theorem Inst.sameButFault_fail (I : Inst) (k : Nat) (c : Cause) : SameButFault I (I.fail k c) :=
  ⟨rfl, rfl, rfl, rfl, rfl, rfl⟩

/-- What an RRW instruction with a destination in mode `m2` leaves of the executing instance: all but `pc`, the word at the
destination, and the status and record of a fault. -/
structure RRWFrame (m2 : Mode) (I J : Inst) : Prop where
  rb : J.rb = I.rb
  bindings : SameBindings I J
  ends : (J.status = I.status ∧ J.frec = I.frec) ∨ SameButFault I J
  elsewhere : ∀ ea, I.writeAddr 2 m2 = .ok ea → ∀ a, a ≠ ea → Memory.read J.mem a = Memory.read I.mem a
  noTarget : ∀ c, I.writeAddr 2 m2 = .error c → J.mem = I.mem

theorem RRWFrame.of_sameButFault {m2 : Mode} {I J : Inst} (same : SameButFault I J) : RRWFrame m2 I J where
  rb := same.rb
  bindings := same.bindings
  ends := .inr same
  elsewhere _ _ _ _ := by rw [same.mem]
  noTarget _ _ := same.mem

theorem RRWFrame.of_write {m2 : Mode} {I : Inst} {ea : Nat} (target : I.writeAddr 2 m2 = .ok ea) (v pc : Word) :
    RRWFrame m2 I { I with mem := Memory.write I.mem ea v, pc := pc } where
  rb := rfl
  bindings := ⟨rfl, rfl, rfl⟩
  ends := .inl ⟨rfl, rfl⟩
  elsewhere ea' h a ne := by
    obtain rfl : ea = ea' := Except.ok.inj (target.symm.trans h)
    exact Memory.read_write_ne _ _ ne
  noTarget c h := by cases target.symm.trans h

/-- The RRW rule replaces the executing instance within its frame, whichever of the rule's four clauses applies. -/
theorem RuleRRW.exec_frame {i : Instr} {m0 m1 m2 : Mode} {f : Word → Word → Word} (rule : RuleRRW i m0 m1 m2 f)
    (s : State) : ∃ J, exec i s = .next (s.setInst s.cur J) ∧ RRWFrame m2 s.self J := by
  obtain ⟨fault0, fault1, fault2, completes⟩ := rule s
  have faulted (c : Cause) : RRWFrame m2 s.self (s.self.fail s.cur c) :=
    .of_sameButFault (s.self.sameButFault_fail s.cur c)
  cases h0 : s.self.readParam 0 m0 with
  | error c => exact ⟨_, fault0 c h0, faulted c⟩
  | ok a =>
    cases h1 : s.self.readParam 1 m1 with
    | error c => exact ⟨_, fault1 a c h0 h1, faulted c⟩
    | ok b =>
      cases h2 : s.self.writeAddr 2 m2 with
      | error c => exact ⟨_, fault2 a b c h0 h1 h2, faulted c⟩
      | ok ea => exact ⟨_, completes a b ea h0 h1 h2, .of_write h2 _ _⟩

theorem memoryWriter_ruleRRW {i : Instr} {m0 m1 m2 : Mode}
    (writer : i = .add m0 m1 m2 ∨ i = .mul m0 m1 m2 ∨ i = .lt m0 m1 m2 ∨ i = .eq m0 m1 m2) :
    ∃ f, RuleRRW i m0 m1 m2 f := by
  obtain rfl | rfl | rfl | rfl := writer
  · exact ⟨_, add_ruleRRW m0 m1 m2⟩
  · exact ⟨_, mul_ruleRRW m0 m1 m2⟩
  · exact ⟨_, lt_ruleRRW m0 m1 m2⟩
  · exact ⟨_, eq_ruleRRW m0 m1 m2⟩

/-- Settles O29: the four instructions follow the RRW rule, which replaces the executing instance within its frame. -/
theorem frameOfMemoryWriters : Obligations.FrameOfMemoryWriters := by
  intro i m0 m1 m2 s t writer h
  obtain ⟨f, rule⟩ := memoryWriter_ruleRRW writer
  obtain ⟨J, hexec, frameJ⟩ := rule.exec_frame s
  obtain rfl : t = s.setInst s.cur J := Host.Outcome.next.inj (h.symm.trans hexec)
  have frame : RRWFrame m2 s.self ((s.setInst s.cur J).inst s.cur) := by
    obtain unchanged | ⟨-, replaced⟩ := State.inst_setInst_or s s.cur J s.cur
    · rw [unchanged]
      exact .of_sameButFault ⟨rfl, rfl, rfl, rfl, rfl, rfl⟩
    · rwa [replaced]
  exact ⟨rfl, s.sameSystem_setInst _ _, s.sameHost_setInst _ _, fun k ne => s.inst_setInst_ne J ne,
    frame.rb, frame.bindings, frame.ends, frame.elsewhere, frame.noTarget⟩

end Sys2Proof.Machine
end

section
/-! PROOFS of 41_port_io, the controller: the outcomes of a pop and of a push (R142 to R146), the ready endpoints (R140), and the
unbuffered self-loop, on which an IN or OUT is held for good (R155). -/

namespace Sys2Proof.Machine

/-! ### The outcomes of a pop and of a push -/

section
variable {s : State} {p : Nat} {P : Port} (hP : s.port p = some P)
include hP

theorem State.popHow_of_cons {v : Word} {rest : List Word} (hq : P.q = v :: rest) : s.popHow p = .queued v := by
  simp [State.popHow, hP, hq]

theorem State.popHow_of_closed (hq : P.q = []) (closed : P.closed = true) : s.popHow p = .endOfStream := by
  simp [State.popHow, hP, hq, closed]

theorem State.popHow_of_ready {src : Producer} {v : Word} (hq : P.q = []) (isOpen : P.closed = false) (cap : P.cap = 0)
    (ready : s.readyProducer p P = some (src, v)) : s.popHow p = .rendezvous src v := by
  simp [State.popHow, hP, hq, isOpen, cap, ready]

theorem State.popHow_of_not_ready (hq : P.q = []) (isOpen : P.closed = false)
    (h : P.cap ≠ 0 ∨ s.readyProducer p P = none) : s.popHow p = .notReady := by
  by_cases cap : P.cap = 0
  · simp [State.popHow, hP, hq, isOpen, cap, h.resolve_left (not_not_intro cap)]
  · simp [State.popHow, hP, hq, isOpen, cap]

theorem State.pushHow_of_room (room : P.q.length < P.cap) : s.pushHow p = .buffered := by
  have : 0 < P.cap := by omega
  simp [State.pushHow, hP, room, this]

theorem State.pushHow_of_full (cap : 0 < P.cap) (full : P.cap ≤ P.q.length) : s.pushHow p = .notReady := by
  simp [State.pushHow, hP, cap, Nat.not_lt.mpr full]

theorem State.pushHow_of_closed (cap : P.cap = 0) (closed : P.closed = true) : s.pushHow p = .notReady := by
  simp [State.pushHow, hP, cap, closed]

theorem State.pushHow_of_ready {dst : Consumer} (cap : P.cap = 0) (isOpen : P.closed = false)
    (ready : s.readyConsumer p P = some dst) : s.pushHow p = .rendezvous dst := by
  simp [State.pushHow, hP, cap, isOpen, ready]

theorem State.pushHow_of_not_ready (cap : P.cap = 0) (none : s.readyConsumer p P = none) : s.pushHow p = .notReady := by
  cases closed : P.closed <;> simp [State.pushHow, hP, cap, closed, none]

/-- When a pop completes (R142). -/
theorem State.popHow_ne_notReady_iff : s.popHow p ≠ .notReady ↔
    P.q ≠ [] ∨ P.closed = true ∨ P.cap = 0 ∧ ∃ src v, s.readyProducer p P = some (src, v) := by
  cases hq : P.q with
  | cons v rest => simp [State.popHow_of_cons hP hq]
  | nil =>
    cases closed : P.closed with
    | true => simp [State.popHow_of_closed hP hq closed]
    | false =>
      cases ready : s.readyProducer p P with
      | none => simp [State.popHow_of_not_ready hP hq closed (.inr ready)]
      | some offer =>
        obtain ⟨src, v⟩ := offer
        by_cases cap : P.cap = 0
        · simp [State.popHow_of_ready hP hq closed cap ready, cap]
        · simp [State.popHow_of_not_ready hP hq closed (.inl cap), cap]

/-- When a push completes (R143, R144). -/
theorem State.pushHow_ne_notReady_iff : s.pushHow p ≠ .notReady ↔
    P.q.length < P.cap ∨ P.cap = 0 ∧ P.closed = false ∧ ∃ dst, s.readyConsumer p P = some dst := by
  by_cases room : P.q.length < P.cap
  · simp [State.pushHow_of_room hP room, room]
  · by_cases cap : P.cap = 0
    · cases closed : P.closed with
      | true => simp [State.pushHow_of_closed hP cap closed, cap]
      | false =>
        cases ready : s.readyConsumer p P with
        | none => simp [State.pushHow_of_not_ready hP cap ready, cap]
        | some dst => simp [State.pushHow_of_ready hP cap closed ready, cap]
    · simp [State.pushHow_of_full hP (Nat.pos_of_ne_zero cap) (Nat.le_of_not_lt room), room, cap]

theorem State.dequeue_of_port {v : Word} {rest : List Word} (hq : P.q = v :: rest) :
    s.dequeue p = s.setPort p { P with q := rest } := by
  simp [State.dequeue, hP, hq]

theorem State.enqueue_of_port (v : Word) : s.enqueue p v = s.setPort p { P with q := P.q ++ [v] } := by
  simp [State.enqueue, hP]

end

/-- Settles O25: each outcome is one rule of `popHow` or `pushHow`, and the queue operations replace the one port. -/
theorem portOperations : Obligations.PortOperations := by
  refine ⟨fun s p P hP => ⟨fun v rest hq => ⟨?_, ?_, fun j hj => ?_⟩, ?_, fun hq isOpen => ⟨?_, ?_⟩⟩,
    fun s p P hP => ⟨fun room => ⟨?_, fun v => ⟨?_, fun j hj => ?_⟩⟩, ?_, fun cap isOpen => ⟨?_, ?_⟩, ?_⟩⟩
  · exact State.popHow_of_cons hP hq
  · rw [State.dequeue_of_port hP hq, State.port_setPort_self hP]
  · rw [State.port_dequeue, if_neg hj]
  · exact State.popHow_of_closed hP
  · exact fun src v cap ready => State.popHow_of_ready hP hq isOpen cap ready
  · exact State.popHow_of_not_ready hP hq isOpen
  · exact State.pushHow_of_room hP room
  · rw [State.enqueue_of_port hP, State.port_setPort_self hP]
  · rw [State.port_enqueue, if_neg hj]
  · exact State.pushHow_of_full hP
  · exact fun dst ready => State.pushHow_of_ready hP cap isOpen ready
  · exact State.pushHow_of_not_ready hP cap
  · exact State.pushHow_of_closed hP

/-- Settles O24: the readiness rules, with the drain of 60_exceptions R283 for the host as consumer. -/
theorem readyEndpoints : Obligations.ReadyEndpoints := fun s p P =>
  ⟨s.readyConsumer_inst_iff p P, by rw [State.readyConsumer_host_iff, State.hostPops_iff],
    s.readyProducer_inst_iff p P, s.readyProducer_host_iff p P⟩

/-! ### The unbuffered self-loop: its instance is held -/

/-- Of the topologies only a ring of one instance has a port from an instance to itself. -/
theorem Topo.eq_one_of_self_loop {topo : Topo} {n p k : Nat} (hp : p < topo.portCount n)
    (prod : topo.producer n p = .inst k) (cons : topo.consumer n p = .inst k) : n = 1 ∧ k = 0 := by
  cases topo with
  | single =>
    have : p = 0 ∨ p = 1 := by simp only [Topo.portCount] at hp; omega
    obtain rfl | rfl := this
    · simp [Topo.producer] at prod
    · simp [Topo.consumer] at cons
  | pipeline =>
    by_cases zero : p = 0
    · simp [Topo.producer, zero] at prod
    · by_cases last : p = n
      · simp [Topo.consumer, last] at cons
      · simp only [Topo.producer, Topo.consumer, zero, last, if_false, Endpoint.inst.injEq] at prod cons
        omega
  | ring =>
    simp only [Topo.consumer, Endpoint.inst.injEq] at cons
    simp only [Topo.portCount] at hp
    by_cases zero : p = 0
    · simp only [Topo.producer, zero, if_true, Endpoint.inst.injEq] at prod
      omega
    · simp only [Topo.producer, zero, if_false, Endpoint.inst.injEq] at prod
      omega

section
variable {s : State} {k p : Nat} (h : LoopStuck s k p)
include h

/-- The instance of the loop at IN is not at OUT, so the port has no ready producer. -/
theorem LoopStuck.popHow_notReady {ea : Nat} (atIn : AtIn (s.inst k) ea) : s.popHow p = .notReady := by
  obtain ⟨P, hP, prod, _, _, isOpen, empty⟩ := h.loop
  refine State.popHow_of_not_ready hP empty isOpen (.inr (Option.eq_none_iff_forall_ne_some.mpr ?_))
  rintro ⟨_ | _, v⟩ ready
  · obtain ⟨prod', -, -, atOut⟩ := (s.readyProducer_inst_iff p P _ v).mp ready
    obtain rfl := Endpoint.inst.inj (prod.symm.trans prod')
    exact atIn.not_atOut v atOut
  · obtain ⟨host, -⟩ := (s.readyProducer_host_iff p P v).mp ready
    cases prod.symm.trans host

/-- The host is not an endpoint of the loop: it does not produce its port, and its consumer is not terminated. -/
theorem LoopStuck.not_host {P : Port} (hP : s.port p = some P) : P.prod ≠ .host ∧ s.hostPops P ≠ true := by
  obtain ⟨P', hP', prod, cons, _⟩ := h.loop
  obtain rfl := Option.some.inj (hP.symm.trans hP')
  refine ⟨by simp [prod], ?_⟩
  rw [Ne, State.hostPops_iff]
  simp [cons, h.running]

/-- The instance of the loop at OUT is not at IN, so the port has no ready consumer. -/
theorem LoopStuck.pushHow_notReady {v : Word} (atOut : AtOut (s.inst k) v) : s.pushHow p = .notReady := by
  obtain ⟨P, hP, _, cons, cap, _⟩ := h.loop
  refine State.pushHow_of_not_ready hP cap (Option.eq_none_iff_forall_ne_some.mpr ?_)
  rintro (⟨j, ea⟩ | _) ready
  · obtain ⟨cons', -, -, atIn⟩ := (s.readyConsumer_inst_iff p P j ea).mp ready
    obtain rfl := Endpoint.inst.inj (cons.symm.trans cons')
    exact atIn.not_atOut v atOut
  · exact (h.not_host hP).2 ((s.readyConsumer_host_iff p P).mp ready).2

theorem LoopStuck.held : s.held k = true := by
  refine (s.held_iff k).mpr ⟨h.running, ?_⟩
  rw [h.bound.1, h.bound.2]
  exact h.waits.imp (fun ⟨ea, atIn⟩ => ⟨ea, atIn, h.popHow_notReady atIn⟩)
    fun ⟨v, atOut⟩ => ⟨v, atOut, h.pushHow_notReady atOut⟩

/-! ### The unbuffered self-loop: no step changes its instance or its port -/

/-- The loop's instance is the only one of the system, and it is held: no instance steps. -/
theorem LoopStuck.pick_ne_inst (j : Nat) : s.pick ≠ some (.inst j) := by
  intro pick
  obtain ⟨P, hP, prod, cons, _⟩ := h.loop
  obtain ⟨ports, _, ends, _⟩ := h.wired
  obtain ⟨prod', cons'⟩ := ends p P hP
  obtain ⟨one, zero⟩ := Topo.eq_one_of_self_loop (ports ▸ State.lt_of_port hP) (prod'.symm.trans prod)
    (cons'.symm.trans cons)
  obtain ⟨hj, -, free⟩ := (s.agentEnabled_inst j).mp (State.pick_enabled pick)
  obtain rfl : j = k := by omega
  cases h.held.symm.trans free

/-- No enabled host move changes the loop's instance or its port. -/
theorem LoopStuck.move_keeps {m : HostMove} (rest : List HostMove) (enabled : s.moveEnabled m = true) :
    (State.makeMove (s.atMove rest) m).inst k = s.inst k ∧ (State.makeMove (s.atMove rest) m).port p = s.port p := by
  refine ⟨State.inst_congr (move_started h.started enabled).1 k, ?_⟩
  cases m with
  | load j text => exact State.port_congr (State.ports_load _ j text) p
  | config topo n caps seeds => simp [State.moveEnabled, State.configurable, h.started] at enabled
  | start => exact State.port_congr (State.ports_start _) p
  | push q v => rfl
  | pop q => rfl
  | close q =>
    have other : p ≠ q := by
      rintro rfl
      obtain ⟨P, hP, _⟩ := h.loop
      simp only [State.moveEnabled, hP, Bool.and_eq_true, hostPushes_iff] at enabled
      exact (h.not_host hP).1 enabled.2
    rw [State.makeMove, State.port_closePort, if_neg other]
    rfl
  | join => rfl
  | memRead j a => rfl

/-- No completion of the host's wait changes them: it is on a port where the host is an endpoint. -/
theorem LoopStuck.wait_keeps {t : State} (effect : WaitEffect s t) : t.inst k = s.inst k ∧ t.port p = s.port p := by
  obtain ⟨inPort, outPort⟩ := h.bound
  cases effect with
  | pushBuffered q v Q mode port host room =>
    have other : p ≠ q := fun e => (h.not_host (e ▸ port)).1 host
    exact ⟨State.inst_enqueue _ q v k, by rw [State.port_enqueue, if_neg other, State.port_release]⟩
  | pushHanded q v Q j ea mode port host unbuffered isOpen ready =>
    have other : p ≠ q := fun e => (h.not_host (e ▸ port)).1 host
    have partner : k ≠ j := by
      rintro rfl
      exact other (inPort.symm.trans ((s.readyConsumer_inst_iff q Q k ea).mp ready).2.2.1)
    exact ⟨State.inst_setInst_ne _ _ partner, rfl⟩
  | popQueued q v Q rest mode port host queue =>
    have other : p ≠ q := fun e => (h.not_host (e ▸ port)).2 host
    exact ⟨State.inst_dequeue s q k, by rw [State.port_deliver, State.port_dequeue, if_neg other]⟩
  | popHanded q v Q j mode port host empty isOpen unbuffered ready =>
    have other : p ≠ q := fun e => (h.not_host (e ▸ port)).2 host
    have partner : k ≠ j := by
      rintro rfl
      exact other (outPort.symm.trans ((s.readyProducer_inst_iff q Q k v).mp ready).2.2.1)
    exact ⟨State.inst_setInst_ne s _ partner, rfl⟩
  | popEnds q Q mode port host empty closed => exact ⟨rfl, rfl⟩
  | joins mode all => exact ⟨rfl, rfl⟩

theorem LoopStuck.begin (a : Agent) : LoopStuck (s.begin a) k p :=
  ⟨h.wired, h.started, h.loop, h.running, h.bound, h.waits⟩

theorem LoopStuck.step_keeps {t : State} (ht : step s = .next t) : t.inst k = s.inst k ∧ t.port p = s.port p := by
  cases step_cases ht with
  | fetchFault j c pick => exact absurd pick (h.pick_ne_inst j)
  | instr j i t pick => exact absurd pick (h.pick_ne_inst j)
  | move m rest pick moves enabled => exact h.move_keeps rest enabled
  | wait t pick ready effect => exact (h.begin .hostWait).wait_keeps effect
  | deadlock pick quiescent first => exact ⟨rfl, rfl⟩

/-- What `LoopStuck` says of the instance and the port stays with them. -/
theorem LoopStuck.of_same {t : State} (wired : Wired t) (started : t.started = true) (inst : t.inst k = s.inst k)
    (port : t.port p = s.port p) : LoopStuck t k p :=
  ⟨wired, started, port ▸ h.loop, inst ▸ h.running, inst ▸ h.bound, inst ▸ h.waits⟩

end

/-- Settles O27: the loop's instance is the whole system and held, so only the host and the arbiter step, and they reach
neither it nor its port. -/
theorem unbufferedSelfLoopHolds : Obligations.UnbufferedSelfLoopHolds := by
  intro s k p h
  refine ⟨h.held, fun t ht => ?_⟩
  obtain ⟨inst, port⟩ := h.step_keeps ht
  have started := (step_sameSetup h.started ht).started.trans h.started
  exact ⟨h.of_same (step_keeps_wired h.wired ht) started inst port, inst⟩

end Sys2Proof.Machine
end

section
/-! PROOFS of 41_port_io, IN and OUT: their encoding and outcomes (R141, R151), the rendezvous as one joint step (R146), and what
IN, OUT and HLT leave unchanged (R147; 45_halt R231; 60_exceptions R243). -/

namespace Sys2Proof.Machine

/-! ### The two sides of a transfer -/

theorem Inst.advance_one (I : Inst) : I.advance 1 = { I with pc := wrap64 (I.pc.toInt + 2) } := by
  rw [Inst.advance, Inst.nextPc_one]

theorem State.release_inst (s : State) (k : Nat) :
    s.release (.inst k) = s.setInst k { s.inst k with pc := wrap64 ((s.inst k).pc.toInt + 2) } := by
  rw [State.release, Inst.advance_one]

theorem State.deliver_inst (s : State) (p k ea : Nat) (v : Word) :
    s.deliver p (.inst k ea) v = s.setInst k
      { s.inst k with mem := Memory.write (s.inst k).mem ea v, pc := wrap64 ((s.inst k).pc.toInt + 2) } := by
  rw [State.deliver, Inst.advance_one]

/-! ### IN -/

theorem encodedAs_inp (m0 m1 m2 : Mode) : EncodedAs (.inp m0 m1 m2) .w 2 3 (m0 ≠ .immediate) :=
  ⟨rfl, rfl, toInt_encode _, by simp [Instr.wellFormed, Op.immediateTarget, Op.writeTarget, Instr.op, Instr.m0]⟩

theorem exec_inp_fault {s : State} {m0 : Mode} {c : Cause} (m1 m2 : Mode) (target : s.self.writeAddr 0 m0 = .error c) :
    exec (.inp m0 m1 m2) s = .next (s.raise s.cur c) := by
  simp [exec, execIn, target]

section
variable {s : State} {m0 : Mode} {ea : Nat} (m1 m2 : Mode) (target : s.self.writeAddr 0 m0 = .ok ea)
include target

theorem exec_inp_queued {v : Word} (how : s.popHow s.self.inPort = .queued v) : exec (.inp m0 m1 m2) s =
    .next ((s.dequeue s.self.inPort).deliver s.self.inPort (.inst s.cur ea) v) := by
  simp [exec, execIn, target, how, State.takeValue]

theorem exec_inp_endOfStream (how : s.popHow s.self.inPort = .endOfStream) : exec (.inp m0 m1 m2) s =
    .next (s.raise s.cur (.inputEndOfStream s.self.inPort)) := by
  simp [exec, execIn, target, how]

theorem exec_inp_handed {src : Producer} {v : Word} (how : s.popHow s.self.inPort = .rendezvous src v) :
    exec (.inp m0 m1 m2) s = .next ((s.release src).deliver s.self.inPort (.inst s.cur ea) v) := by
  simp [exec, execIn, target, how, State.takeValue]

theorem exec_inp_held (how : s.popHow s.self.inPort = .notReady) : exec (.inp m0 m1 m2) s = .next s := by
  simp [exec, execIn, target, how, State.takeValue]

end

/-- Settles O22: by the outcome of the pop, after the destination. -/
theorem inResult : Obligations.InResult := by
  intro m0 m1 m2
  refine ⟨encodedAs_inp m0 m1 m2, fun s => ⟨fun c target => exec_inp_fault m1 m2 target, fun ea P target hP =>
    ⟨fun v rest hq => ?_, fun hq closed => ?_, fun hq isOpen cap => ⟨fun v ready => ?_, fun j v hj ready => ?_, fun none => ?_⟩,
      fun hq isOpen cap => ?_⟩⟩⟩
  · rw [exec_inp_queued m1 m2 target (State.popHow_of_cons hP hq), State.deliver_inst, State.dequeue_of_port hP hq]
    rfl
  · exact exec_inp_endOfStream m1 m2 target (State.popHow_of_closed hP hq closed)
  · rw [exec_inp_handed m1 m2 target (State.popHow_of_ready hP hq isOpen cap ready), State.deliver_inst]
    rfl
  · rw [exec_inp_handed m1 m2 target (State.popHow_of_ready hP hq isOpen cap ready), State.deliver_inst, State.release_inst,
      State.inst_setInst_ne _ _ hj.symm]
    rfl
  · exact exec_inp_held m1 m2 target (State.popHow_of_not_ready hP hq isOpen (.inr none))
  · exact exec_inp_held m1 m2 target (State.popHow_of_not_ready hP hq isOpen (.inl cap))

/-! ### OUT -/

theorem encodedAs_out (m0 m1 m2 : Mode) : EncodedAs (.out m0 m1 m2) .r 2 4 True :=
  ⟨rfl, rfl, toInt_encode _, by simp [Instr.wellFormed, Op.immediateTarget, Op.writeTarget, Instr.op]⟩

theorem exec_out_fault {s : State} {m0 : Mode} {c : Cause} (m1 m2 : Mode) (param : s.self.readParam 0 m0 = .error c) :
    exec (.out m0 m1 m2) s = .next (s.raise s.cur c) := by
  simp [exec, execOut, param]

section
variable {s : State} {m0 : Mode} {v : Word} (m1 m2 : Mode) (param : s.self.readParam 0 m0 = .ok v)
include param

theorem exec_out_buffered (how : s.pushHow s.self.outPort = .buffered) : exec (.out m0 m1 m2) s =
    .next ((s.release (.inst s.cur)).enqueue s.self.outPort v) := by
  simp [exec, execOut, param, how, State.giveValue]

theorem exec_out_handed {dst : Consumer} (how : s.pushHow s.self.outPort = .rendezvous dst) : exec (.out m0 m1 m2) s =
    .next ((s.release (.inst s.cur)).deliver s.self.outPort dst v) := by
  simp [exec, execOut, param, how, State.giveValue]

theorem exec_out_held (how : s.pushHow s.self.outPort = .notReady) : exec (.out m0 m1 m2) s = .next s := by
  simp [exec, execOut, param, how, State.giveValue]

end

/-- Settles O23: by the outcome of the push, after the parameter. -/
theorem outResult : Obligations.OutResult := by
  intro m0 m1 m2
  refine ⟨encodedAs_out m0 m1 m2, fun s => ⟨fun c param => exec_out_fault m1 m2 param, fun v P param hP =>
    ⟨fun room => ?_, fun cap full => ?_, fun cap isOpen => ⟨fun ready => ?_, fun k ea hk ready => ?_, fun none => ?_⟩,
      fun cap closed => ?_⟩⟩⟩
  · rw [exec_out_buffered m1 m2 param (State.pushHow_of_room hP room), State.release_inst,
      State.enqueue_of_port ((State.port_setInst s _ _ _).trans hP)]
    rfl
  · exact exec_out_held m1 m2 param (State.pushHow_of_full hP cap full)
  · rw [exec_out_handed m1 m2 param (State.pushHow_of_ready hP cap isOpen ready), State.release_inst]
    rfl
  · rw [exec_out_handed m1 m2 param (State.pushHow_of_ready hP cap isOpen ready), State.deliver_inst, State.release_inst,
      State.inst_setInst_ne _ _ hk]
    rfl
  · exact exec_out_held m1 m2 param (State.pushHow_of_not_ready hP cap none)
  · exact exec_out_held m1 m2 param (State.pushHow_of_closed hP cap closed)

/-! ### The rendezvous -/

/-- The state after the producer `j` hands `v` to the consumer `k`, which writes it to `ea`. -/
def State.rendezvous (s : State) (j k ea : Nat) (v : Word) : State :=
  (s.setInst j ((s.inst j).advance 1)).setInst k { (s.inst k).advance 1 with mem := Memory.write (s.inst k).mem ea v }

theorem State.inst_withCur (s : State) (c k : Nat) : State.inst { s with cur := c } k = s.inst k := rfl

theorem State.rendezvous_withCur (s : State) (c j k ea : Nat) (v : Word) :
    State.rendezvous { s with cur := c } j k ea v = { s.rendezvous j k ea v with cur := c } := by
  unfold State.rendezvous
  rw [s.inst_withCur c j, s.inst_withCur c k, State.setInst_setInst_cur]

/-- Settles O26: either instruction answers `State.rendezvous`. -/
theorem rendezvousIsOneJointStep : Obligations.RendezvousIsOneJointStep := by
  intro s j k p ea v P m0 m1 m2 n0 n1 n2 ne hP prod cons cap isOpen empty runningJ outPort pcJ decodeJ param runningK inPort pcK
    decodeK target
  have consumer : s.readyConsumer p P = some (.inst k ea) :=
    (s.readyConsumer_inst_iff p P k ea).mpr ⟨cons, runningK, inPort, pcK, n0, n1, n2, decodeK, target⟩
  have producer : s.readyProducer p P = some (.inst j, v) :=
    (s.readyProducer_inst_iff p P j v).mpr ⟨prod, runningJ, outPort, pcJ, m0, m1, m2, decodeJ, param⟩
  have hj : j < s.insts.length := State.lt_of_status (by simp [runningJ])
  have hk : k < s.insts.length := State.lt_of_status (by simp [runningK])
  refine ⟨s.rendezvous j k ea v, ?_, ?_, rfl, by constructor <;> rfl, ⟨rfl, rfl⟩, ?_, ?_, fun l hlj hlk => ?_⟩
  · rw [← State.rendezvous_withCur]
    exact execOut_rendezvous (s := { s with cur := j }) m0 m1 m2 ne hP cap isOpen rfl outPort param consumer
  · rw [← State.rendezvous_withCur]
    exact execIn_rendezvous (s := { s with cur := k }) n0 n1 n2 ne hP cap isOpen empty rfl inPort target producer
  · rw [State.rendezvous, State.inst_setInst_ne _ _ ne, State.inst_setInst_self _ _ _ hj, Inst.advance_one]
  · rw [State.rendezvous, State.inst_setInst_self _ _ _ (by rwa [State.length_setInst]), Inst.advance_one]
  · rw [State.rendezvous, State.inst_setInst_ne _ _ hlk, State.inst_setInst_ne _ _ hlj]

/-! ### The executing instance's frame -/

theorem SameButFault.refl (I : Inst) : SameButFault I I := ⟨rfl, rfl, rfl, rfl, rfl, rfl⟩

theorem State.raise_sameButFault (s : State) (k : Nat) (c : Cause) : SameButFault (s.inst k) ((s.raise k c).inst k) := by
  obtain unchanged | ⟨-, replaced⟩ := State.inst_setInst_or s k ((s.inst k).fail k c) k
  · rw [State.raise, unchanged]; exact .refl _
  · rw [State.raise, replaced]; exact (s.inst k).sameButFault_fail k c

/-- What a transfer leaves of the instances at its ends. -/
structure SameButTransfer (I J : Inst) : Prop where
  status : J.status = I.status
  frec : J.frec = I.frec
  rb : J.rb = I.rb
  bindings : SameBindings I J

theorem State.release_sameButTransfer (s : State) (src : Producer) (k : Nat) :
    SameButTransfer (s.inst k) ((s.release src).inst k) := by
  obtain ⟨status, frec, -, rb, bindings⟩ := s.release_keeps src k
  exact ⟨status, frec, rb, bindings⟩

theorem State.deliver_sameButTransfer {s t : State} (p : Nat) (dst : Consumer) (v : Word) {k : Nat}
    (h : SameButTransfer (s.inst k) (t.inst k)) : SameButTransfer (s.inst k) ((t.deliver p dst v).inst k) := by
  obtain ⟨status, frec, rb, image, inPort, outPort⟩ := t.deliver_keeps p dst v k
  exact ⟨status.trans h.status, frec.trans h.frec, rb.trans h.rb, image.trans h.bindings.image,
    inPort.trans h.bindings.inPort, outPort.trans h.bindings.outPort⟩

/-- The executing instance after a port instruction: a transfer, or a fault that changes no port. -/
def PortFrame (s t : State) : Prop :=
  SameButTransfer s.self (t.inst s.cur) ∨ SameButFault s.self (t.inst s.cur) ∧ t.ports = s.ports

theorem PortFrame.rb_bindings_ends {s t : State} (h : PortFrame s t) :
    (t.inst s.cur).rb = s.self.rb ∧ SameBindings s.self (t.inst s.cur) ∧
      ((t.inst s.cur).status = s.self.status ∧ (t.inst s.cur).frec = s.self.frec ∨
        SameButFault s.self (t.inst s.cur) ∧ t.ports = s.ports) := by
  obtain ⟨status, frec, rb, bindings⟩ | ⟨fault, ports⟩ := h
  · exact ⟨rb, bindings, .inl ⟨status, frec⟩⟩
  · exact ⟨fault.rb, fault.bindings, .inr ⟨fault, ports⟩⟩

/-! ### The frame of IN -/

/-- What IN with its destination in mode `m0` can do. -/
inductive InCase (m0 : Mode) (s : State) : State → Prop where
  | faults (c : Cause) : InCase m0 s (s.raise s.cur c)
  | holds : InCase m0 s s
  | queued (ea : Nat) (v : Word) (P : Port) (rest : List Word) (target : s.self.writeAddr 0 m0 = .ok ea)
      (port : s.port s.self.inPort = some P) (q : P.q = v :: rest) :
      InCase m0 s ((s.dequeue s.self.inPort).deliver s.self.inPort (.inst s.cur ea) v)
  | handed (ea : Nat) (v : Word) (P : Port) (src : Producer) (target : s.self.writeAddr 0 m0 = .ok ea)
      (ready : s.readyProducer s.self.inPort P = some (src, v)) :
      InCase m0 s ((s.release src).deliver s.self.inPort (.inst s.cur ea) v)

theorem exec_inp_cases {m0 m1 m2 : Mode} {s t : State} (h : exec (.inp m0 m1 m2) s = .next t) : InCase m0 s t := by
  cases target : s.self.writeAddr 0 m0 with
  | error c => cases (exec_inp_fault m1 m2 target).symm.trans h; exact .faults c
  | ok ea =>
    cases how : s.popHow s.self.inPort with
    | queued v =>
      obtain ⟨P, rest, port, q⟩ := State.popHow_queued how
      cases (exec_inp_queued m1 m2 target how).symm.trans h
      exact .queued ea v P rest target port q
    | endOfStream => cases (exec_inp_endOfStream m1 m2 target how).symm.trans h; exact .faults _
    | rendezvous src v =>
      obtain ⟨P, -, -, -, -, ready⟩ := State.popHow_rendezvous how
      cases (exec_inp_handed m1 m2 target how).symm.trans h
      exact .handed ea v P src target ready
    | notReady => cases (exec_inp_held m1 m2 target how).symm.trans h; exact .holds

section
variable {m0 : Mode} {s t : State} (h : InCase m0 s t)
include h

theorem InCase.host : t.results = s.results ∧
    (t.hmode = s.hmode ∨ t.hmode = .active ∧ ∃ v, s.hmode = .waitPush s.self.inPort v) := by
  cases h with
  | faults c => exact ⟨rfl, .inl rfl⟩
  | holds => exact ⟨rfl, .inl rfl⟩
  | queued ea v P rest target port q => exact ⟨State.dequeue_results s _, .inl (State.dequeue_hmode s _)⟩
  | handed ea v P src target ready =>
    cases src with
    | inst j => exact ⟨rfl, .inl rfl⟩
    | host => exact ⟨rfl, .inr ⟨rfl, v, ((s.readyProducer_host_iff _ P v).mp ready).2⟩⟩

theorem InCase.others {k : Nat} (hk : k ≠ s.cur) : t.inst k = s.inst k ∨
    ((∃ v, AtOut (s.inst k) v) ∧ (s.inst k).outPort = s.self.inPort ∧
      t.inst k = { s.inst k with pc := wrap64 ((s.inst k).pc.toInt + 2) }) := by
  cases h with
  | faults c => exact .inl (State.inst_setInst_ne s _ hk)
  | holds => exact .inl rfl
  | queued ea v P rest target port q =>
    rw [State.deliver_inst, State.inst_setInst_ne _ _ hk, State.inst_dequeue]
    exact .inl rfl
  | handed ea v P src target ready =>
    rw [State.deliver_inst, State.inst_setInst_ne _ _ hk]
    obtain unchanged | ⟨rfl, advanced⟩ := s.inst_release_or src k
    · exact .inl unchanged
    · obtain ⟨-, -, outPort, atOut⟩ := (s.readyProducer_inst_iff _ P k v).mp ready
      exact .inr ⟨⟨v, atOut⟩, outPort, by rw [advanced, Inst.advance_one]⟩

theorem InCase.portFrame : PortFrame s t := by
  cases h with
  | faults c => exact .inr ⟨s.raise_sameButFault s.cur c, rfl⟩
  | holds => exact .inr ⟨.refl _, rfl⟩
  | queued ea v P rest target port q =>
    have dequeued : SameButTransfer (s.inst s.cur) ((s.dequeue s.self.inPort).inst s.cur) := by
      rw [State.inst_dequeue]; exact ⟨rfl, rfl, rfl, rfl, rfl, rfl⟩
    exact .inl (State.deliver_sameButTransfer _ _ v dequeued)
  | handed ea v P src target ready =>
    exact .inl (State.deliver_sameButTransfer _ _ v (s.release_sameButTransfer src s.cur))

/-- IN writes no word, or one at its destination. -/
theorem InCase.mem : (t.inst s.cur).mem = s.self.mem ∨
    ∃ ea v, s.self.writeAddr 0 m0 = .ok ea ∧ (t.inst s.cur).mem = Memory.write s.self.mem ea v := by
  cases h with
  | faults c => exact .inl (s.raise_sameButFault s.cur c).mem
  | holds => exact .inl rfl
  | queued ea v P rest target port q =>
    obtain unchanged | ⟨_, dst, written⟩ := (s.dequeue s.self.inPort).inst_deliver_or s.self.inPort (.inst s.cur ea) v s.cur
    · rw [unchanged, State.inst_dequeue]; exact .inl rfl
    · cases dst
      rw [written, State.inst_dequeue]; exact .inr ⟨ea, v, target, rfl⟩
  | handed ea v P src target ready =>
    obtain ⟨-, -, released, -⟩ := s.release_keeps src s.cur
    obtain unchanged | ⟨_, dst, written⟩ := (s.release src).inst_deliver_or s.self.inPort (.inst s.cur ea) v s.cur
    · rw [unchanged]; exact .inl released
    · cases dst
      rw [written, released]; exact .inr ⟨ea, v, target, rfl⟩

theorem InCase.ports_ne {p : Nat} (hp : p ≠ s.self.inPort) : t.port p = s.port p := by
  cases h with
  | faults c => rfl
  | holds => rfl
  | queued ea v P rest target port q => rw [State.port_deliver, State.port_dequeue, if_neg hp]
  | handed ea v P src target ready => rw [State.port_deliver, State.port_release]

theorem InCase.inPort {P : Port} (hP : s.port s.self.inPort = some P) : ∃ Q, t.port s.self.inPort = some Q ∧
    SamePortParams P Q ∧ Q.closed = P.closed ∧ (Q.q = P.q ∨ ∃ v, P.q = v :: Q.q) := by
  cases h with
  | faults c => exact ⟨P, hP, ⟨rfl, rfl, rfl, rfl⟩, rfl, .inl rfl⟩
  | holds => exact ⟨P, hP, ⟨rfl, rfl, rfl, rfl⟩, rfl, .inl rfl⟩
  | queued ea v P' rest target port q =>
    obtain rfl : P = P' := Option.some.inj (hP.symm.trans port)
    rw [State.port_deliver, State.dequeue_of_port hP q, State.port_setPort_self hP]
    exact ⟨_, rfl, ⟨rfl, rfl, rfl, rfl⟩, rfl, .inr ⟨v, q⟩⟩
  | handed ea v P' src target ready =>
    rw [State.port_deliver, State.port_release]
    exact ⟨P, hP, ⟨rfl, rfl, rfl, rfl⟩, rfl, .inl rfl⟩

end

/-- Settles O32: each part by what IN can do. -/
theorem frameOfIn : Obligations.FrameOfIn := by
  intro m0 m1 m2 s t h
  have e := exec_inp_cases h
  obtain ⟨results, hmode⟩ := e.host
  obtain ⟨rb, bindings, ends⟩ := e.portFrame.rb_bindings_ends
  refine ⟨(effect_system (exec_effect h)).1, results, hmode, fun k hk => e.others hk, rb, bindings, ends, fun ea target a ne => ?_,
    fun c target => ?_, fun p hp => e.ports_ne hp, fun P hP => e.inPort hP⟩
  · obtain same | ⟨ea', v, target', written⟩ := e.mem
    · rw [same]
    · obtain rfl : ea' = ea := Except.ok.inj (target'.symm.trans target)
      rw [written, Memory.read_write_ne _ _ ne]
  · obtain same | ⟨ea', v, target', written⟩ := e.mem
    · exact same
    · cases target'.symm.trans target

/-! ### The frame of OUT -/

/-- What OUT can do. -/
inductive OutCase (s : State) : State → Prop where
  | faults (c : Cause) : OutCase s (s.raise s.cur c)
  | holds : OutCase s s
  | buffered (v : Word) : OutCase s ((s.release (.inst s.cur)).enqueue s.self.outPort v)
  | handed (v : Word) (P : Port) (dst : Consumer) (ready : s.readyConsumer s.self.outPort P = some dst) :
      OutCase s ((s.release (.inst s.cur)).deliver s.self.outPort dst v)

theorem exec_out_cases {m0 m1 m2 : Mode} {s t : State} (h : exec (.out m0 m1 m2) s = .next t) : OutCase s t := by
  cases param : s.self.readParam 0 m0 with
  | error c => cases (exec_out_fault m1 m2 param).symm.trans h; exact .faults c
  | ok v =>
    cases how : s.pushHow s.self.outPort with
    | buffered => cases (exec_out_buffered m1 m2 param how).symm.trans h; exact .buffered v
    | rendezvous dst =>
      obtain ⟨P, -, -, -, ready⟩ := State.pushHow_rendezvous how
      cases (exec_out_handed m1 m2 param how).symm.trans h
      exact .handed v P dst ready
    | notReady => cases (exec_out_held m1 m2 param how).symm.trans h; exact .holds

section
variable {s t : State} (h : OutCase s t)
include h

theorem OutCase.host : t.hmode = s.hmode ∧ t.results = s.results ∨ s.hmode = .waitPop s.self.outPort ∧ t.hmode = .active ∧
    ∃ v, t.results = s.results ++ [.value s.self.outPort v] := by
  cases h with
  | faults c => exact .inl ⟨rfl, rfl⟩
  | holds => exact .inl ⟨rfl, rfl⟩
  | buffered v => exact .inl ⟨State.enqueue_hmode _ _ v, State.enqueue_results _ _ v⟩
  | handed v P dst ready =>
    cases dst with
    | inst k ea => exact .inl ⟨rfl, rfl⟩
    | host => exact .inr ⟨((s.readyConsumer_host_iff _ P).mp ready).1, rfl, v, rfl⟩

theorem OutCase.others {k : Nat} (hk : k ≠ s.cur) : t.inst k = s.inst k ∨
    ∃ ea v, AtIn (s.inst k) ea ∧ (s.inst k).inPort = s.self.outPort ∧ t.inst k = { s.inst k with
      mem := Memory.write (s.inst k).mem ea v, pc := wrap64 ((s.inst k).pc.toInt + 2) } := by
  have released : (s.release (.inst s.cur)).inst k = s.inst k := State.inst_setInst_ne s _ hk
  cases h with
  | faults c => exact .inl (State.inst_setInst_ne s _ hk)
  | holds => exact .inl rfl
  | buffered v => exact .inl (by rw [State.inst_enqueue, released])
  | handed v P dst ready =>
    obtain unchanged | ⟨ea, rfl, written⟩ := (s.release (.inst s.cur)).inst_deliver_or s.self.outPort dst v k
    · exact .inl (unchanged.trans released)
    · obtain ⟨-, -, inPort, atIn⟩ := (s.readyConsumer_inst_iff _ P k ea).mp ready
      exact .inr ⟨ea, v, atIn, inPort, by rw [written, released, Inst.advance_one]⟩

theorem OutCase.portFrame : PortFrame s t := by
  cases h with
  | faults c => exact .inr ⟨s.raise_sameButFault s.cur c, rfl⟩
  | holds => exact .inr ⟨.refl _, rfl⟩
  | buffered v =>
    rw [PortFrame, State.inst_enqueue]
    exact .inl (s.release_sameButTransfer _ s.cur)
  | handed v P dst ready => exact .inl (State.deliver_sameButTransfer _ _ v (s.release_sameButTransfer _ s.cur))

/-- The executing instance, which is not at an IN, is not the consumer of its own OUT. -/
theorem OutCase.mem (notIn : ∀ ea, ¬ AtIn s.self ea) : (t.inst s.cur).mem = s.self.mem := by
  obtain ⟨-, -, released, -⟩ := s.release_keeps (.inst s.cur) s.cur
  cases h with
  | faults c => exact (s.raise_sameButFault s.cur c).mem
  | holds => rfl
  | buffered v => rw [State.inst_enqueue]; exact released
  | handed v P dst ready =>
    obtain unchanged | ⟨ea, rfl, -⟩ := (s.release (.inst s.cur)).inst_deliver_or s.self.outPort dst v s.cur
    · rw [unchanged]; exact released
    · exact absurd ((s.readyConsumer_inst_iff _ P s.cur ea).mp ready).2.2.2 (notIn ea)

theorem OutCase.ports_ne {p : Nat} (hp : p ≠ s.self.outPort) : t.port p = s.port p := by
  cases h with
  | faults c => rfl
  | holds => rfl
  | buffered v => rw [State.port_enqueue, if_neg hp, State.port_release]
  | handed v P dst ready => rw [State.port_deliver, State.port_release]

theorem OutCase.outPort {P : Port} (hP : s.port s.self.outPort = some P) : ∃ Q, t.port s.self.outPort = some Q ∧
    SamePortParams P Q ∧ Q.closed = P.closed ∧ (Q.q = P.q ∨ ∃ v, Q.q = P.q ++ [v]) := by
  cases h with
  | faults c => exact ⟨P, hP, ⟨rfl, rfl, rfl, rfl⟩, rfl, .inl rfl⟩
  | holds => exact ⟨P, hP, ⟨rfl, rfl, rfl, rfl⟩, rfl, .inl rfl⟩
  | buffered v =>
    have released := (s.port_release (.inst s.cur) s.self.outPort).trans hP
    rw [State.enqueue_of_port released, State.port_setPort_self released]
    exact ⟨_, rfl, ⟨rfl, rfl, rfl, rfl⟩, rfl, .inr ⟨v, rfl⟩⟩
  | handed v P' dst ready =>
    rw [State.port_deliver, State.port_release]
    exact ⟨P, hP, ⟨rfl, rfl, rfl, rfl⟩, rfl, .inl rfl⟩

end

/-- Settles O33: each part by what OUT can do. -/
theorem frameOfOut : Obligations.FrameOfOut := by
  intro m0 m1 m2 s t notIn h
  have e := exec_out_cases h
  obtain ⟨rb, bindings, ends⟩ := e.portFrame.rb_bindings_ends
  exact ⟨(effect_system (exec_effect h)).1, e.host, fun k hk => e.others hk, rb, e.mem notIn, bindings, ends,
    fun p hp => e.ports_ne hp, fun P hP => e.outPort hP⟩

/-! ### The frame of HLT -/

/-- An instance that is set HALTED keeps everything else. -/
theorem State.inst_setInst_halted {s : State} {k : Nat} {I : Inst} (h : s.inst k = I) :
    SameButFault I ((s.setInst k { I with status := .halted }).inst k) ∧
      ((s.setInst k { I with status := .halted }).inst k).frec = I.frec := by
  obtain unchanged | ⟨-, replaced⟩ := s.inst_setInst_or k { I with status := .halted } k
  · rw [unchanged, h]; exact ⟨.refl I, rfl⟩
  · rw [replaced]; exact ⟨⟨rfl, rfl, rfl, rfl, rfl, rfl⟩, rfl⟩

/-- Settles O31: HLT replaces its output port and the executing instance. -/
theorem frameOfHlt : Obligations.FrameOfHlt := by
  intro m0 m1 m2 s t h
  have system := (effect_system (exec_effect h)).1
  obtain rfl : (s.closePort s.self.outPort).setInst s.cur { s.self with status := .halted } = t := Host.Outcome.next.inj h
  obtain ⟨same, frec⟩ := State.inst_setInst_halted (s.inst_closePort s.self.outPort s.cur)
  refine ⟨system, ⟨State.closePort_hmode s _, State.closePort_results s _⟩, fun k hk => ?_, same, frec, fun p hp => ?_,
    fun P hP => ?_⟩
  · rw [State.inst_setInst_ne _ _ hk, State.inst_closePort]
  · rw [State.port_setInst, State.port_closePort, if_neg hp]
  · rw [State.port_setInst, State.port_closePort, if_pos rfl, hP]
    exact ⟨_, rfl, ⟨rfl, rfl, rfl, rfl⟩, rfl⟩

end Sys2Proof.Machine
end

section
/-! PROOFS of 41_port_io, the other agents: the host's moves and waits (60_exceptions R280, R283, R284), and the step that a weakly
fair run gives an instance at neither IN nor OUT (R149; 60_exceptions R286). -/

namespace Sys2Proof.Machine

/-! ### The host's moves -/

theorem step_hostMove {s : State} {m : HostMove} {rest : List HostMove} (pick : s.pick = some .hostMove)
    (moves : s.moves = m :: rest) : step s = .next (State.makeMove (s.atMove rest) m) := by
  simp only [step, pick, stepAgent, State.nextMove, State.begin_moves, moves]
  rfl

/-- Settles O58: each is the effect of `makeMove` on that move. -/
theorem hostMoveEffects : Obligations.HostMoveEffects := by
  intro s rest pick
  refine ⟨fun k text moves => step_hostMove pick moves, fun topo n caps seeds moves => step_hostMove pick moves,
    fun p v moves => step_hostMove pick moves, fun p moves => step_hostMove pick moves, fun moves => step_hostMove pick moves,
    fun p P moves hP => ?_, fun k a moves => step_hostMove pick moves⟩
  have port : (s.atMove rest).port p = some P := hP
  rw [step_hostMove pick moves, State.makeMove, State.closePort, port]
  rfl

/-! ### The host's waits -/

theorem State.waitReady_push_iff {s : State} {p : Nat} {v : Word} {P : Port} (hP : s.port p = some P)
    (mode : s.hmode = .waitPush p v) : s.waitReady = true ↔ P.prod = .host ∧ s.pushHow p ≠ .notReady := by
  simp [State.waitReady, mode, hP, hostPushes_iff]

theorem State.waitReady_pop_iff {s : State} {p : Nat} {P : Port} (hP : s.port p = some P)
    (mode : s.hmode = .waitPop p) : s.waitReady = true ↔ s.hostPops P = true ∧ s.popHow p ≠ .notReady := by
  simp [State.waitReady, mode, hP]

/-- While the host waits to push, the ready consumer of a port is an instance. -/
theorem State.exists_readyConsumer_iff {s : State} {p : Nat} {P : Port} (notPop : s.hmode ≠ .waitPop p) :
    (∃ dst, s.readyConsumer p P = some dst) ↔ ∃ k ea, P.cons = .inst k ∧ (s.inst k).status = .running ∧
      (s.inst k).inPort = p ∧ AtIn (s.inst k) ea := by
  constructor
  · rintro ⟨⟨k, ea⟩ | _, ready⟩
    · exact ⟨k, ea, (s.readyConsumer_inst_iff p P k ea).mp ready⟩
    · exact absurd ((s.readyConsumer_host_iff p P).mp ready).1 notPop
  · rintro ⟨k, ea, h⟩
    exact ⟨_, (s.readyConsumer_inst_iff p P k ea).mpr h⟩

/-- While the host does not wait to push, the ready producer of a port is an instance. -/
theorem State.exists_readyProducer_iff {s : State} {p : Nat} {P : Port} (notPush : ∀ v, s.hmode ≠ .waitPush p v) :
    (∃ src v, s.readyProducer p P = some (src, v)) ↔ ∃ k v, P.prod = .inst k ∧ (s.inst k).status = .running ∧
      (s.inst k).outPort = p ∧ AtOut (s.inst k) v := by
  constructor
  · rintro ⟨k | _, v, ready⟩
    · exact ⟨k, v, (s.readyProducer_inst_iff p P k v).mp ready⟩
    · exact absurd ((s.readyProducer_host_iff p P v).mp ready).2 (notPush v)
  · rintro ⟨k, v, h⟩
    exact ⟨_, v, (s.readyProducer_inst_iff p P k v).mpr h⟩

theorem step_hostWait {s : State} (pick : s.pick = some .hostWait) :
    ∃ t, step s = .next t ∧ WaitEffect (s.begin .hostWait) t := by
  have ready : s.waitReady = true := State.pick_enabled pick
  exact ⟨_, by simp only [step, pick, stepAgent], completeWait_effect (s := s.begin .hostWait) ready⟩

/-- What the completion of a PUSH does, by the capacity of its port. -/
theorem step_push {s : State} {p : Nat} {v : Word} {P : Port} (pick : s.pick = some .hostWait) (hP : s.port p = some P)
    (mode : s.hmode = .waitPush p v) : P.prod = .host ∧
      (0 < P.cap → P.q.length < P.cap ∧ step s = .next { s.begin .hostWait with
        hmode := .active, ports := s.ports.set p { P with q := P.q ++ [v] } }) ∧
      (P.cap = 0 → P.closed = false ∧ ∃ k ea, P.cons = .inst k ∧ AtIn (s.inst k) ea ∧
        step s = .next { s.begin .hostWait with hmode := .active, insts := s.insts.set k { s.inst k with
          mem := Memory.write (s.inst k).mem ea v, pc := wrap64 ((s.inst k).pc.toInt + 2) } }) := by
  obtain ⟨t, ht, effect⟩ := step_hostWait pick
  rw [ht]
  cases effect with
  | pushBuffered q w Q mode' port host room =>
    cases mode.symm.trans mode'
    cases hP.symm.trans port
    refine ⟨host, fun _ => ⟨room, ?_⟩, fun cap => by omega⟩
    rw [State.enqueue_of_port ((State.port_release _ .host p).trans port)]
    rfl
  | pushHanded q w Q k ea mode' port host unbuffered isOpen ready =>
    cases mode.symm.trans mode'
    cases hP.symm.trans port
    obtain ⟨cons, -, -, atIn⟩ := (State.readyConsumer_inst_iff _ p P k ea).mp ready
    refine ⟨host, fun cap => by omega, fun _ => ⟨isOpen, k, ea, cons, atIn, ?_⟩⟩
    rw [State.deliver_inst]
    rfl
  | popQueued q w Q rest mode' => cases mode.symm.trans mode'
  | popHanded q w Q k mode' => cases mode.symm.trans mode'
  | popEnds q Q mode' => cases mode.symm.trans mode'
  | joins mode' => cases mode.symm.trans mode'

/-- What the completion of a POP does, by the state of its port. -/
theorem step_pop {s : State} {p : Nat} {P : Port} (pick : s.pick = some .hostWait) (hP : s.port p = some P)
    (mode : s.hmode = .waitPop p) :
      (∀ v rest, P.q = v :: rest → step s = .next { s.begin .hostWait with
        hmode := .active, ports := s.ports.set p { P with q := rest }, results := s.results ++ [.value p v] }) ∧
      (P.q = [] → P.closed = true → step s = .next { s.begin .hostWait with
        hmode := .active, results := s.results ++ [.endOfStream p] }) ∧
      (P.q = [] → P.closed = false → P.cap = 0 ∧ ∃ k v, P.prod = .inst k ∧ AtOut (s.inst k) v ∧
        step s = .next { s.begin .hostWait with
          hmode := .active, results := s.results ++ [.value p v]
          insts := s.insts.set k { s.inst k with pc := wrap64 ((s.inst k).pc.toInt + 2) } }) := by
  obtain ⟨t, ht, effect⟩ := step_hostWait pick
  rw [ht]
  cases effect with
  | pushBuffered q w Q mode' => cases mode.symm.trans mode'
  | pushHanded q w Q k ea mode' => cases mode.symm.trans mode'
  | popQueued q w Q rest mode' port host queue =>
    cases mode.symm.trans mode'
    cases hP.symm.trans port
    refine ⟨fun v rest' hq => ?_, fun hq => by simp [queue] at hq, fun hq => by simp [queue] at hq⟩
    cases queue.symm.trans hq
    rw [State.dequeue_of_port port queue]
    rfl
  | popHanded q w Q k mode' port host empty isOpen unbuffered ready =>
    cases mode.symm.trans mode'
    cases hP.symm.trans port
    obtain ⟨prod, -, -, atOut⟩ := (State.readyProducer_inst_iff _ p P k w).mp ready
    refine ⟨fun v rest hq => by simp [empty] at hq, fun _ closed => by simp [isOpen] at closed,
      fun _ _ => ⟨unbuffered, k, w, prod, atOut, ?_⟩⟩
    rw [State.release_inst]
    rfl
  | popEnds q Q mode' port host empty closed =>
    cases mode.symm.trans mode'
    cases hP.symm.trans port
    exact ⟨fun v rest hq => by simp [empty] at hq, fun _ _ => rfl, fun _ isOpen => by simp [closed] at isOpen⟩
  | joins mode' => cases mode.symm.trans mode'

/-- Settles O59: the readiness of the wait is that of the push or pop, and `WaitEffect` gives the next state. -/
theorem hostWaitsComplete : Obligations.HostWaitsComplete := by
  refine ⟨fun s p P hP => ⟨fun v mode => ?_, fun mode => ?_⟩, fun s p P pick hP => ⟨fun v mode => ?_, fun mode => ?_⟩⟩
  · rw [State.agentEnabled, State.waitReady_push_iff hP mode, State.pushHow_ne_notReady_iff hP,
      State.exists_readyConsumer_iff (by simp [mode])]
  · rw [State.agentEnabled, State.waitReady_pop_iff hP mode, State.popHow_ne_notReady_iff hP, State.hostPops_iff,
      State.exists_readyProducer_iff (by simp [mode])]
  · exact step_push pick hP mode
  · exact step_pop pick hP mode

/-! ### Weak fairness -/

/-- Instance `k` of a started system is `I`, which is RUNNING at neither IN nor OUT. -/
structure Steady (k : Nat) (I : Inst) (s : State) : Prop where
  started : s.started = true
  lt : k < s.nInst
  inst : s.inst k = I
  running : I.status = .running
  notIn : ∀ ea, ¬ AtIn I ea
  notOut : ∀ v, ¬ AtOut I v

section
variable {k : Nat} {I : Inst} {s : State} (h : Steady k I s)
include h

/-- Only a port instruction is held. -/
theorem Steady.enabled : s.agentEnabled (.inst k) = true := by
  refine (s.agentEnabled_inst k).mpr ⟨h.lt, h.inst ▸ h.running, ?_⟩
  rw [Bool.eq_false_iff, Ne, State.held_iff, h.inst]
  rintro ⟨-, ⟨ea, atIn, -⟩ | ⟨v, atOut, -⟩⟩
  · exact h.notIn ea atIn
  · exact h.notOut v atOut

/-- The steps of others reach an instance only at IN or OUT. -/
theorem Steady.step {t : State} (ht : step s = .next t) (other : s.pick ≠ some (.inst k)) : Steady k I t := by
  have setup := step_sameSetup h.started ht
  have same : t.inst k = s.inst k := by
    have change := step_instChange h.started ht k
    generalize t.inst k = J at change
    cases change with
    | same => rfl
    | own J i pick => exact absurd pick other
    | faults c pick => exact absurd pick other
    | halts m0 m1 m2 pick => exact absurd pick other
    | sends v running atOut => exact absurd (h.inst ▸ atOut) (h.notOut v)
    | receives ea v running atIn => exact absurd (h.inst ▸ atIn) (h.notIn ea)
  exact ⟨setup.started.trans h.started, setup.nInst ▸ h.lt, same.trans h.inst, h.running, h.notIn, h.notOut⟩

end

/-- Along a run in which no step from `n` on is the instance's own, it stays as it is. -/
theorem IsRun.steady {r : Nat → State} {n k : Nat} {I : Inst} (run : IsRun r) (h : Steady k I (r n))
    (never : ∀ m, n ≤ m → Steady k I (r m) → (r m).pick ≠ some (.inst k)) (m : Nat) (hm : n ≤ m) : Steady k I (r m) := by
  induction m, hm using Nat.le_induction with
  | base => exact h
  | succ m hm ih => exact ih.step (run m) (never m hm ih)

/-- Settles O45: were the instance never picked as it is, it would stay so and enabled, against weak fairness. -/
theorem fairRunsReachEveryRunningInstance : Obligations.FairRunsReachEveryRunningInstance := by
  intro r n k run fair started lt running notIn notOut
  by_contra none
  have never : ∀ m, n ≤ m → Steady k ((r n).inst k) (r m) → (r m).pick ≠ some (.inst k) :=
    fun m hm steady pick => none ⟨m, hm, pick, steady.inst⟩
  have steady := run.steady ⟨started, lt, rfl, running, notIn, notOut⟩ never
  obtain ⟨m, hm, pick⟩ := fair (.inst k) n fun m hm => (steady m hm).enabled
  exact never m hm (steady m hm) pick

end Sys2Proof.Machine
end

section
/-! PROOFS of 42_jumps: the rule of the conditional jumps (R181, R184), its encoding, and what JT, JF and ARB (44_relative_base
R221) leave unchanged (60_exceptions R243). -/

namespace Sys2Proof

/-! ### The encoding -/

theorem Op.nparam_of_rr {op : Op} (rr : op.format = .rr) : op.nparam = 2 := by
  revert rr
  cases op <;> decide

theorem Op.writeTarget_of_rr {op : Op} (rr : op.format = .rr) : op.writeTarget = none := by
  revert rr
  cases op <;> decide

theorem Instr.wellFormed_of_rr {i : Instr} (rr : i.op.format = .rr) : i.wellFormed = true := by
  simp [Instr.wellFormed, Op.immediateTarget, Op.writeTarget_of_rr rr]

end Sys2Proof

namespace Sys2Proof.Machine

/-- The encoding of every RR instruction (30_encoding R82, R86, R100). -/
theorem encodedAs_of_rr {i : Instr} (rr : i.op.format = .rr) : EncodedAs i .rr 3 i.op.code True :=
  ⟨rr, by rw [Instr.length, Op.nparam_of_rr rr], toInt_encode i, iff_true_intro (Instr.wellFormed_of_rr rr)⟩

/-! ### The rule -/

section
variable {I : Inst} {m0 m1 : Mode} {a b : Word} {c : Cause} {taken : Word → Bool}

theorem Inst.runJump_fault_zero (h0 : I.readParam 0 m0 = .error c) : I.runJump taken m0 m1 = .error c := by
  simp [Inst.runJump, h0]

theorem Inst.runJump_fault_one (h0 : I.readParam 0 m0 = .ok a) (h1 : I.readParam 1 m1 = .error c) :
    I.runJump taken m0 m1 = .error c := by
  simp [Inst.runJump, h0, h1]

theorem Inst.runJump_taken (h0 : I.readParam 0 m0 = .ok a) (h1 : I.readParam 1 m1 = .ok b) (jumps : taken a = true) :
    I.runJump taken m0 m1 = .ok { I with pc := b } := by
  simp [Inst.runJump, h0, h1, jumps]

theorem Inst.runJump_not_taken (h0 : I.readParam 0 m0 = .ok a) (h1 : I.readParam 1 m1 = .ok b) (falls : ¬ taken a = true) :
    I.runJump taken m0 m1 = .ok { I with pc := wrap64 (I.pc.toInt + 3) } := by
  simp [Inst.runJump, h0, h1, falls, Inst.advance, Inst.nextPc_two]

end

/-- An instruction that completes with the shared jump shape, on a test that decides `jumps`, follows the jump rule. -/
theorem ruleJump_of_exec {i : Instr} {m0 m1 : Mode} {taken : Word → Bool} {jumps : Word → Prop}
    (hexec : ∀ s, exec i s = .next (s.complete (s.self.runJump taken m0 m1))) (decides : ∀ a, taken a = true ↔ jumps a) :
    RuleJump i m0 m1 jumps := by
  intro s
  refine ⟨fun c h0 => ?_, fun a c h0 h1 => ?_, fun a b h0 h1 => ⟨fun jump => ?_, fun fall => ?_⟩⟩
  · rw [hexec, Inst.runJump_fault_zero h0, State.complete]
  · rw [hexec, Inst.runJump_fault_one h0 h1, State.complete]
  · rw [hexec, Inst.runJump_taken h0 h1 ((decides a).mpr jump), State.complete]
  · rw [hexec, Inst.runJump_not_taken h0 h1 (mt (decides a).mp fall), State.complete]

theorem isZero_iff (a : Word) : isZero a = true ↔ a.toInt = 0 := decide_eq_true_iff

theorem not_isZero_iff (a : Word) : (!isZero a) = true ↔ a.toInt ≠ 0 := by
  rw [Bool.not_eq_true', Bool.eq_false_iff, ne_eq, isZero_iff]

theorem jt_ruleJump (m0 m1 m2 : Mode) : RuleJump (.jt m0 m1 m2) m0 m1 (fun a => a.toInt ≠ 0) :=
  ruleJump_of_exec (fun _ => rfl) not_isZero_iff

theorem jf_ruleJump (m0 m1 m2 : Mode) : RuleJump (.jf m0 m1 m2) m0 m1 (fun a => a.toInt = 0) :=
  ruleJump_of_exec (fun _ => rfl) isZero_iff

/-- Settles O18: the encoding of the RR format and the jump rule, on a non-zero condition. -/
theorem jtResult : Obligations.JtResult := fun m0 m1 m2 => ⟨encodedAs_of_rr rfl, jt_ruleJump m0 m1 m2⟩

/-- Settles O19: the encoding of the RR format and the jump rule, on a zero condition. -/
theorem jfResult : Obligations.JfResult := fun m0 m1 m2 => ⟨encodedAs_of_rr rfl, jf_ruleJump m0 m1 m2⟩

/-! ### ARB -/

section
variable {s : State} {m0 : Mode} (m1 m2 : Mode)

theorem exec_arb_fault {c : Cause} (param : s.self.readParam 0 m0 = .error c) :
    exec (.arb m0 m1 m2) s = .next (s.raise s.cur c) := by
  simp [exec, execArb, Inst.runArb, param, State.complete]

theorem exec_arb_ok {a : Word} (param : s.self.readParam 0 m0 = .ok a) : exec (.arb m0 m1 m2) s = .next (s.setInst s.cur
    { s.self with rb := wrap64 (s.self.rb.toInt + a.toInt), pc := wrap64 (s.self.pc.toInt + 2) }) := by
  simp [exec, execArb, Inst.runArb, param, State.complete, Inst.advance_one]

end

/-! ### The frame -/

/-- What JT, JF or ARB leaves of the executing instance: all but `pc`, the relative base in ARB, and the status and record of
a fault. -/
structure RegisterFrame (i : Instr) (I J : Inst) : Prop where
  mem : J.mem = I.mem
  bindings : SameBindings I J
  rb : i.op ≠ .arb → J.rb = I.rb
  ends : (J.status = I.status ∧ J.frec = I.frec) ∨ SameButFault I J

theorem RegisterFrame.of_sameButFault {i : Instr} {I J : Inst} (same : SameButFault I J) : RegisterFrame i I J :=
  ⟨same.mem, same.bindings, fun _ => same.rb, .inr same⟩

theorem RegisterFrame.of_pc (i : Instr) (I : Inst) (pc : Word) : RegisterFrame i I { I with pc := pc } :=
  ⟨rfl, ⟨rfl, rfl, rfl⟩, fun _ => rfl, .inl ⟨rfl, rfl⟩⟩

theorem RegisterFrame.of_arb {i : Instr} (arb : i.op = .arb) (I : Inst) (rb pc : Word) :
    RegisterFrame i I { I with rb := rb, pc := pc } :=
  ⟨rfl, ⟨rfl, rfl, rfl⟩, fun ne => absurd arb ne, .inl ⟨rfl, rfl⟩⟩

/-- The instruction `i` of the state `s` replaces the executing instance within the frame, and nothing else. -/
def ReplacesRegisters (i : Instr) (s : State) : Prop :=
  ∃ J, exec i s = .next (s.setInst s.cur J) ∧ RegisterFrame i s.self J

theorem ReplacesRegisters.of_fault {i : Instr} {s : State} {c : Cause} (h : exec i s = .next (s.raise s.cur c)) :
    ReplacesRegisters i s :=
  ⟨_, h, .of_sameButFault (s.self.sameButFault_fail s.cur c)⟩

/-- Whichever clause of the jump rule applies, a jump faults or moves `pc`. -/
theorem RuleJump.replacesRegisters {i : Instr} {m0 m1 : Mode} {jumps : Word → Prop} (rule : RuleJump i m0 m1 jumps)
    (s : State) : ReplacesRegisters i s := by
  obtain ⟨fault0, fault1, completes⟩ := rule s
  cases h0 : s.self.readParam 0 m0 with
  | error c => exact .of_fault (fault0 c h0)
  | ok a =>
    cases h1 : s.self.readParam 1 m1 with
    | error c => exact .of_fault (fault1 a c h0 h1)
    | ok b =>
      obtain ⟨jump, fall⟩ := completes a b h0 h1
      by_cases taken : jumps a
      · exact ⟨_, jump taken, .of_pc i s.self b⟩
      · exact ⟨_, fall taken, .of_pc i s.self _⟩

theorem arb_replacesRegisters (m0 m1 m2 : Mode) (s : State) : ReplacesRegisters (.arb m0 m1 m2) s := by
  cases param : s.self.readParam 0 m0 with
  | error c => exact .of_fault (exec_arb_fault m1 m2 param)
  | ok a => exact ⟨_, exec_arb_ok m1 m2 param, .of_arb rfl s.self _ _⟩

theorem registerWriter_replacesRegisters {i : Instr} {m0 m1 m2 : Mode}
    (writer : i = .jt m0 m1 m2 ∨ i = .jf m0 m1 m2 ∨ i = .arb m0 m1 m2) (s : State) : ReplacesRegisters i s := by
  obtain rfl | rfl | rfl := writer
  · exact (jt_ruleJump m0 m1 m2).replacesRegisters s
  · exact (jf_ruleJump m0 m1 m2).replacesRegisters s
  · exact arb_replacesRegisters m0 m1 m2 s

/-- The frame holds of the state with the new instance, also where `cur` names no instance and nothing is replaced. -/
theorem RegisterFrame.inst_setInst {i : Instr} {s : State} {J : Inst} (frame : RegisterFrame i s.self J) :
    RegisterFrame i s.self ((s.setInst s.cur J).inst s.cur) := by
  obtain unchanged | ⟨-, replaced⟩ := s.inst_setInst_or s.cur J s.cur
  · rw [unchanged]
    exact .of_sameButFault (.refl s.self)
  · rwa [replaced]

/-- Settles O30: each of the three instructions replaces the executing instance within the frame, and nothing else. -/
theorem frameOfRegisterWriters : Obligations.FrameOfRegisterWriters := by
  intro i m0 m1 m2 s t writer h
  obtain ⟨J, hexec, frameJ⟩ := registerWriter_replacesRegisters writer s
  obtain rfl : t = s.setInst s.cur J := Host.Outcome.next.inj (h.symm.trans hexec)
  obtain ⟨mem, bindings, rb, ends⟩ := frameJ.inst_setInst
  exact ⟨rfl, s.sameSystem_setInst _ _, s.sameHost_setInst _ _, fun k ne => s.inst_setInst_ne J ne, mem, bindings, rb, ends⟩

end Sys2Proof.Machine
end

section
/-! PROOFS of 43_compare: the word a comparison writes (R200), and the results of LT and EQ (R201, R204) by the encoding and the
RRW rule of 40_arithmetic. -/

namespace Sys2Proof.Machine

/-! ### The word of a comparison -/

theorem boolWord_decide (p : Prop) [Decidable p] : boolWord (decide p) = if p then 1 else 0 := by
  by_cases h : p <;> simp [boolWord, h]

theorem boolWord_lessThan (a b : Word) : boolWord (lessThan a b) = if a.toInt < b.toInt then 1 else 0 :=
  boolWord_decide _

theorem boolWord_equalTo (a b : Word) : boolWord (equalTo a b) = if a.toInt = b.toInt then 1 else 0 :=
  boolWord_decide _

/-! ### LT and EQ -/

/-- Settles O16: the encoding of the RRW format and the RRW rule, with the word of the signed comparison as the result. -/
theorem ltResult : Obligations.LtResult := by
  intro m0 m1 m2
  have rule := lt_ruleRRW m0 m1 m2
  simp only [boolWord_lessThan] at rule
  exact ⟨encodedAs_of_rrw rfl, rule⟩

/-- Settles O17: the encoding of the RRW format and the RRW rule, with the word of the equality test as the result. -/
theorem eqResult : Obligations.EqResult := by
  intro m0 m1 m2
  have rule := eq_ruleRRW m0 m1 m2
  simp only [boolWord_equalTo] at rule
  exact ⟨encodedAs_of_rrw rfl, rule⟩

end Sys2Proof.Machine
end

section
/-! PROOFS of 44_relative_base: the encoding of ARB (30_encoding R82, R86, R100) and its result (R221), whose two clauses are
proved with the frame of 42_jumps. -/

namespace Sys2Proof.Machine

/-- ARB writes no parameter, so each of its modes is legal. -/
theorem encodedAs_arb (m0 m1 m2 : Mode) : EncodedAs (.arb m0 m1 m2) .r 2 9 True :=
  ⟨rfl, rfl, toInt_encode _, by simp [Instr.wellFormed, Op.immediateTarget, Op.writeTarget, Instr.op]⟩

/-- Settles O20: the encoding of the R format, then the fault of the parameter or the new relative base. -/
theorem arbResult : Obligations.ArbResult := fun m0 m1 m2 =>
  ⟨encodedAs_arb m0 m1 m2, fun _ => ⟨fun _ fault => exec_arb_fault m1 m2 fault, fun _ read => exec_arb_ok m1 m2 read⟩⟩

end Sys2Proof.Machine
end

section
/-! PROOFS of 45_halt: the encoding of HLT (30_encoding R82, R86, R97, R100) and its result (R231). -/

namespace Sys2Proof.Machine

/-- HLT has no parameter, so none of its mode digits is examined against a write target (R97). -/
theorem encodedAs_hlt (m0 m1 m2 : Mode) : EncodedAs (.hlt m0 m1 m2) .n 1 99 True :=
  ⟨rfl, rfl, toInt_encode _, by simp [Instr.wellFormed, Op.immediateTarget, Op.writeTarget, Instr.op]⟩

theorem State.closePort_of_port {s : State} {p : Nat} {P : Port} (hP : s.port p = some P) :
    s.closePort p = s.setPort p { P with closed := true } := by
  simp [State.closePort, hP]

theorem exec_hlt (m0 m1 m2 : Mode) (s : State) :
    exec (.hlt m0 m1 m2) s = .next ((s.closePort s.self.outPort).setInst s.cur { s.self with status := .halted }) := rfl

/-- Settles O21: the encoding of the N format, then the close of the bound output port and the status HALTED. -/
theorem hltResult : Obligations.HltResult := fun m0 m1 m2 =>
  ⟨encodedAs_hlt m0 m1 m2, fun s P hP => by rw [exec_hlt, State.closePort_of_port hP]⟩

end Sys2Proof.Machine
end

section
/-! PROOFS of 60_exceptions, faults: what taking a fault writes (R241, R243, R244), and that a fault of a step is precise
(R245). -/

namespace Sys2Proof.Machine

theorem State.inst_raise_self (s : State) {k : Nat} (c : Cause) (hk : k < s.insts.length) :
    (s.raise k c).inst k = (s.inst k).fail k c := s.inst_setInst_self k _ hk

theorem State.inst_raise_ne (s : State) {k j : Nat} (c : Cause) (ne : j ≠ k) : (s.raise k c).inst j = s.inst j :=
  s.inst_setInst_ne _ ne

/-- Settles O9: a fault replaces its instance by the failed one, and the records and codes are those of the table. -/
theorem faultEntry : Obligations.FaultEntry := by
  refine ⟨fun s k c hk => ?_, fun _ _ _ => rfl, fun _ _ _ => rfl, fun _ _ _ _ => rfl, fun _ _ _ _ => rfl,
    fun _ _ _ => rfl, rfl, fun _ => rfl, rfl⟩
  rw [s.inst_raise_self c hk]
  exact ⟨rfl, rfl, (s.inst k).sameButFault_fail k c, fun j ne => s.inst_raise_ne c ne, rfl, s.sameSystem_setInst k _,
    s.sameHost_setInst k _⟩

/-! ### The faults of a step -/

/-- The executing instance after an instruction: its status is kept, or it halts, or it takes a fault whose record has its
`pc`. -/
theorem effect_status {i : Instr} {s t : State} (effect : Effect i s t) (lt : s.cur < s.insts.length) :
    (t.inst s.cur).status = s.self.status ∨ (t.inst s.cur).status = .halted ∨
      ∃ c, t = s.raise s.cur c ∧ (c.toRecord s.self.pc s.cur).pc = some s.self.pc := by
  cases effect with
  | faults c pc => exact .inr (.inr ⟨c, rfl, pc⟩)
  | halts m0 m1 m2 => exact .inr (.inl (by rw [State.inst_setInst_self _ _ _ (by simpa using lt)]))
  | completes I status => exact .inl (by rw [State.inst_setInst_self _ _ _ lt, status])
  | holds => exact .inl rfl
  | takesQueued ea v P rest =>
    have kept := ((s.dequeue s.self.inPort).deliver_keeps s.self.inPort (.inst s.cur ea) v s.cur).1
    exact .inl (kept.trans (congrArg Inst.status (s.inst_dequeue _ s.cur)))
  | takesHanded ea v P src =>
    exact .inl (State.deliver_sameButTransfer _ (.inst s.cur ea) v (s.release_sameButTransfer src s.cur)).status
  | givesBuffered v P =>
    exact .inl (by rw [State.inst_enqueue, (s.release_sameButTransfer _ s.cur).status, State.self])
  | givesHanded v P dst =>
    exact .inl (State.deliver_sameButTransfer _ dst v (s.release_sameButTransfer (.inst s.cur) s.cur)).status

/-- A step of an instance that ends FAULTED takes a fault whose record has its `pc`. -/
theorem step_inst_faulted {s t : State} {k : Nat} (pick : s.pick = some (.inst k)) (h : step s = .next t)
    (faulted : (t.inst k).status = .faulted) :
    k < s.insts.length ∧
      ∃ c, t = (s.begin (.inst k)).raise k c ∧ (c.toRecord (s.inst k).pc k).pc = some (s.inst k).pc := by
  have lt {j : Nat} (running : (s.inst j).status = .running) : j < s.insts.length :=
    State.lt_of_status (by rw [running]; decide)
  cases step_cases h with
  | fetchFault j c pick' _ running fetch =>
    cases pick.symm.trans pick'
    exact ⟨lt running, c, rfl, Inst.fetchInstr_error_pc fetch _ _⟩
  | instr j i t pick' _ running fetch run effect =>
    cases pick.symm.trans pick'
    obtain kept | halted | fault := effect_status effect (lt running)
    · cases (kept.symm.trans faulted).symm.trans running
    · cases halted.symm.trans faulted
    · exact ⟨lt running, fault⟩
  | move m rest pick' => cases pick.symm.trans pick'
  | wait t pick' => cases pick.symm.trans pick'
  | deadlock pick' => cases pick.symm.trans pick'

/-- Settles O10: such a step takes its fault in the state it begins in, and `raise` leaves everything else. -/
theorem faultsArePrecise : Obligations.FaultsArePrecise := by
  intro s t k pick h faulted
  obtain ⟨lt, c, rfl, pc⟩ := step_inst_faulted pick h faulted
  have failed : ((s.begin (.inst k)).raise k c).inst k = (s.inst k).fail k c := State.inst_raise_self _ c lt
  rw [failed]
  exact ⟨(s.inst k).sameButFault_fail k c, rfl, fun j ne => State.inst_raise_ne _ c ne, ⟨rfl, rfl⟩, _, rfl, pc,
    c.toRecord_inst _ k⟩

end Sys2Proof.Machine
end

section
/-! PROOFS of 60_exceptions, the configuration: LOAD (R280, 70_reset_and_hazards R300, R305), CONFIG (R260), the check of a
configuration (R261) and the unseeded cycle (R264). -/

namespace Sys2Proof.Machine

/-! ### LOAD -/

/-- The instance that LOAD loads exists once those up to it have been created. -/
theorem State.lt_length_padded (s : State) (k : Nat) : k < (s.padded (k + 1)).insts.length := by
  rw [State.length_padded]; omega

section
variable {s : State} {k : Nat} {text : List Char} (idle : (s.inst k).status = .idle)

theorem State.load_of_ok {ws : List Word} (parse : parseText text = .ok ws) :
    (s.load k text).inst k = ((s.padded (k + 1)).inst k).load ws := by
  simp only [State.load, parse]
  exact State.inst_setInst_self _ k _ (s.lt_length_padded k)

include idle

theorem State.padded_idle (n : Nat) : ((s.padded n).inst k).status = .idle := by
  obtain ⟨a, b, same⟩ := s.inst_padded_binds n k
  rw [same]; exact idle

theorem State.load_of_error {i : Nat} (parse : parseText text = .error i) :
    (s.load k text).inst k = ((s.padded (k + 1)).inst k).fail k (.malformedProgram i) := by
  simp only [State.load, parse, State.padded_idle idle, if_true]
  exact State.inst_setInst_self _ k _ (s.lt_length_padded k)

end

/-- LOAD binds no instance but by creating it. -/
theorem State.load_bound (s : State) (k : Nat) (text : List Char) (j : Nat) :
    ((s.load k text).inst j).inPort = ((s.padded (k + 1)).inst j).inPort ∧
      ((s.load k text).inst j).outPort = ((s.padded (k + 1)).inst j).outPort := by
  obtain same | ⟨rfl, ws, -, loaded⟩ | ⟨rfl, -, i, -, failed⟩ := s.inst_load k text j
  · rw [same]; exact ⟨rfl, rfl⟩
  · rw [loaded]; exact Inst.load_bound _ ws
  · rw [failed]; exact ⟨rfl, rfl⟩

/-- Settles O48: the instance LOAD finds or creates is idle, so it is reset with the image or faulted. -/
theorem loadResetsOrFaults : Obligations.LoadResetsOrFaults := by
  intro s t k text idle ht
  subst ht
  obtain ⟨system, host⟩ := s.load_system k text
  refine ⟨fun ws parse => ?_, fun i parse => ?_, fun lt => ?_, s.length_load k text, fun j ne lt => ?_,
    fun j ge le => ?_, s.ports_load k text, system, host⟩
  · rw [State.load_of_ok parse, Inst.load, if_pos (State.padded_idle idle (k + 1))]
    rfl
  · obtain ⟨a, b, same⟩ := s.inst_padded_binds (k + 1) k
    rw [State.load_of_error idle parse, same]
    rfl
  · rw [← s.inst_padded (k + 1) lt]
    exact s.load_bound k text k
  · rw [s.inst_load_ne text ne, s.inst_padded (k + 1) lt]
  · obtain ⟨inPort, outPort⟩ := s.load_bound k text j
    rw [s.inst_padded_new (k + 1) ge (by omega)] at inPort outPort
    refine ⟨inPort, outPort, fun ne => ?_⟩
    rw [s.inst_load_ne text ne, s.inst_padded_new (k + 1) ge (by omega)]
    rfl

/-! ### CONFIG -/

/-- A port of the topology, after CONFIG. -/
theorem State.port_config_of_lt {s : State} {topo : Topo} {n p : Nat} {caps : List Nat} {seeds : List (List Word)}
    (lt : p < topo.portCount n) :
    ∃ P, (s.config topo n caps seeds).port p = some P ∧ P.prod = topo.producer n p ∧ P.cons = topo.consumer n p :=
  ⟨_, by rw [State.port_config, if_pos lt], rfl, rfl⟩

/-- An instance of the system, after CONFIG. -/
theorem State.config_binds (s : State) (topo : Topo) {n k : Nat} (caps : List Nat) (seeds : List (List Word)) (lt : k < n) :
    ((s.config topo n caps seeds).inst k).inPort = topo.inPort k ∧
      ((s.config topo n caps seeds).inst k).outPort = topo.outPort n k := by
  rw [State.inst_config s topo n caps seeds (lt_max_of_lt_right lt)]
  exact ⟨rfl, rfl⟩

/-- The ports between two neighbours of a PIPELINE or RING. -/
theorem Topo.chain_port {topo : Topo} {n j : Nat} (chain : topo ≠ .single) (pos : 1 ≤ j) (lt : j < n) :
    j < topo.portCount n ∧ topo.producer n j = .inst (j - 1) ∧ topo.consumer n j = .inst j := by
  cases topo with
  | single => exact absurd rfl chain
  | pipeline => exact ⟨Nat.lt_succ_of_lt lt, if_neg (by omega), if_neg (by omega)⟩
  | ring => exact ⟨lt, if_neg (by omega), rfl⟩

/-- The ports of a PIPELINE to and from the host. -/
theorem Topo.pipeline_ends {n : Nat} (pos : 1 ≤ n) :
    Topo.consumer .pipeline n 0 = .inst 0 ∧ Topo.producer .pipeline n n = .inst (n - 1) ∧
      Topo.consumer .pipeline n n = .host :=
  ⟨if_neg (by omega), if_neg (by omega), if_pos rfl⟩

/-- Settles O49: each row of R260 is read off the endpoints and the bindings of its topology. -/
theorem configWiresTheTopology : Obligations.ConfigWiresTheTopology := by
  intro s t topo n caps seeds ht
  subst ht
  have binds := fun {k} (lt : k < n) => s.config_binds topo caps seeds lt
  have chain : topo ≠ .single → ∀ j, 1 ≤ j → j < n → ∃ P, (s.config topo n caps seeds).port j = some P ∧
      P.prod = .inst (j - 1) ∧ P.cons = .inst j := fun notSingle j pos lt => by
    obtain ⟨inRange, prod, cons⟩ := Topo.chain_port notSingle pos lt
    rw [← prod, ← cons]
    exact State.port_config_of_lt inRange
  refine ⟨wired_config s topo n caps seeds, rfl, rfl, fun p P hP => ?_, ?_, ?_, ?_, fun k _ => ?_, rfl, rfl, rfl, rfl, rfl,
    ⟨rfl, rfl⟩⟩
  · rw [State.port_config] at hP
    split at hP
    · cases hP
      exact ⟨rfl, rfl, rfl, rfl, makePort_q_of_fits⟩
    · cases hP
  · rintro rfl
    exact ⟨_, _, rfl, rfl, rfl, rfl, rfl, fun k lt => binds lt⟩
  · rintro rfl pos
    obtain ⟨firstCons, lastProd, lastCons⟩ := Topo.pipeline_ends pos
    refine ⟨s.length_ports_config .pipeline n caps seeds, ?_, chain (by simp), ?_, fun k lt => binds lt⟩
    · rw [← firstCons]
      exact State.port_config_of_lt (topo := .pipeline) n.succ_pos
    · rw [← lastProd, ← lastCons]
      exact State.port_config_of_lt (topo := .pipeline) n.lt_succ_self
  · rintro rfl pos
    refine ⟨s.length_ports_config .ring n caps seeds, ?_, chain (by simp), fun k lt => binds lt⟩
    exact State.port_config_of_lt (topo := .ring) pos
  · obtain ⟨a, b, same⟩ := s.inst_config_binds topo n caps seeds k
    rw [same]

/-! ### The configuration check -/

theorem Inst.loadFailed_iff (I : Inst) : I.loadFailed = true ↔ ∃ r, I.frec = some r ∧ r.kind = .malformedProgram := by
  cases frec : I.frec <;> simp [Inst.loadFailed, frec]

section
variable {s : State}

theorem State.not_any_loadFailed_iff : ¬ s.ids.any (fun k => (s.inst k).loadFailed) = true ↔
    ∀ k, k < s.nInst → ∀ r, (s.inst k).frec = some r → r.kind ≠ .malformedProgram := by
  simp [State.ids, Inst.loadFailed_iff]

theorem State.not_any_seedExceeds_iff : ¬ s.ports.any (fun P => decide (P.cap < P.seed.length)) = true ↔
    ∀ P ∈ s.ports, P.seed.length ≤ P.cap := by
  simp

/-- What the check answers: the first of the four conditions that fails. -/
inductive CheckCase (s : State) (loaded seeded : Prop) : Option ConfigReason → Prop where
  | loadFailed (notLoaded : ¬ loaded) : CheckCase s loaded seeded (some .loadFailed)
  | noInstances (loads : loaded) (empty : s.nInst < 1) : CheckCase s loaded seeded (some .noInstances)
  | badWiring (loads : loaded) (pos : ¬ s.nInst < 1) (notWired : ¬ EachInstanceWired s) :
      CheckCase s loaded seeded (some .badWiring)
  | seedExceedsCapacity (loads : loaded) (pos : ¬ s.nInst < 1) (wired : EachInstanceWired s) (notSeeded : ¬ seeded) :
      CheckCase s loaded seeded (some .seedExceedsCapacity)
  | passes (loads : loaded) (pos : ¬ s.nInst < 1) (wired : EachInstanceWired s) (fits : seeded) :
      CheckCase s loaded seeded none

theorem State.checkConfig_case {loaded seeded : Prop}
    (hloaded : loaded ↔ ∀ k, k < s.nInst → ∀ r, (s.inst k).frec = some r → r.kind ≠ .malformedProgram)
    (hseeded : seeded ↔ ∀ P ∈ s.ports, P.seed.length ≤ P.cap) : CheckCase s loaded seeded s.checkConfig := by
  have loads := State.not_any_loadFailed_iff.trans hloaded.symm
  have fits := State.not_any_seedExceeds_iff.trans hseeded.symm
  have wires : ¬ (!s.wiringOk) = true ↔ EachInstanceWired s := by simp [← s.wiringOk_iff]
  unfold State.checkConfig
  split_ifs with failed empty miswired exceeds
  · exact .loadFailed fun h => loads.mpr h failed
  · exact .noInstances (loads.mp failed) empty
  · exact .badWiring (loads.mp failed) empty fun h => wires.mpr h miswired
  · exact .seedExceedsCapacity (loads.mp failed) empty (wires.mp miswired) fun h => fits.mpr h exceeds
  · exact .passes (loads.mp failed) empty (wires.mp miswired) (fits.mp exceeds)

end

/-- Settles O50: the five answers exclude each other, so each comes exactly with its conditions. -/
theorem configCheckInOrder : Obligations.ConfigCheckInOrder := by
  intro s loaded seeded hloaded hseeded
  have check := State.checkConfig_case hloaded hseeded
  have each : Wired s → 1 ≤ s.nInst → (s.topo = .single → s.nInst = 1) → EachInstanceWired s := Wired.each
  generalize s.checkConfig = reason at check ⊢
  cases check with
  | loadFailed notLoaded => refine ⟨?_, ?_, ?_, ?_, ?_, each⟩ <;> simp [notLoaded]
  | noInstances loads empty => refine ⟨?_, ?_, ?_, ?_, ?_, each⟩ <;> simp [loads, empty]
  | badWiring loads pos notWired => refine ⟨?_, ?_, ?_, ?_, ?_, each⟩ <;> simp [loads, pos, notWired]
  | seedExceedsCapacity loads pos wired notSeeded =>
    refine ⟨?_, ?_, ?_, ?_, ?_, each⟩ <;> simp [loads, pos, wired, notSeeded]
  | passes loads pos wired fits => refine ⟨?_, ?_, ?_, ?_, ?_, each⟩ <;> simp [loads, pos, wired, fits]

/-! ### The unseeded cycle -/

/-- The edge of an instance leads from a port it produces to the consumer of that port. -/
theorem unseededEdge_config {s : State} {topo : Topo} {n k j : Nat} {caps : List Nat} {seeds : List (List Word)}
    (edge : (s.config topo n caps seeds).unseededEdge k = some j) :
    ∃ p, p < topo.portCount n ∧ topo.producer n p = .inst k ∧ topo.consumer n p = .inst j := by
  unfold State.unseededEdge at edge
  cases found : (s.config topo n caps seeds).ports.find? (fun P => P.prod == .inst k) with
  | none => simp [found] at edge
  | some P =>
    have prod : P.prod = .inst k := by simpa using List.find?_some found
    obtain ⟨p, hp, rfl⟩ := List.mem_map.mp (List.mem_of_find?_eq_some found)
    refine ⟨p, List.mem_range.mp hp, prod, ?_⟩
    rw [found] at edge
    simp only at edge
    split at edge
    · rename_i j' cons
      split at edge
      · cases edge; exact cons
      · cases edge
    · cases edge

/-- Outside a RING the edges lead to higher instances. -/
theorem Topo.rises {topo : Topo} {n p k j : Nat} (notRing : topo ≠ .ring) (lt : p < topo.portCount n)
    (prod : topo.producer n p = .inst k) (cons : topo.consumer n p = .inst j) : k < j ∧ j < n := by
  cases topo with
  | ring => exact absurd rfl notRing
  | single =>
    simp only [Topo.portCount] at lt
    simp only [Topo.producer, Topo.consumer] at prod cons
    split at prod
    · cases prod
    · rw [if_pos (by omega)] at cons; cases cons
  | pipeline =>
    simp only [Topo.portCount] at lt
    simp only [Topo.producer, Topo.consumer] at prod cons
    split at prod
    · cases prod
    · split at cons
      · cases cons
      · cases prod; cases cons; omega

/-- A walk over edges that rise has fewer edges than there are instances. -/
theorem State.unseededWalk_lt {s : State} {n : Nat} (rises : ∀ k j, s.unseededEdge k = some j → k < j ∧ j < n) (m k : Nat)
    (lt : k < n) (walk : s.unseededWalk m k = true) : k + m < n := by
  induction m generalizing k with
  | zero => exact lt
  | succ m ih =>
    unfold State.unseededWalk at walk
    cases edge : s.unseededEdge k with
    | none => simp [edge] at walk
    | some j =>
      obtain ⟨higher, inRange⟩ := rises k j edge
      have := ih j inRange (by simpa [edge] using walk)
      omega

theorem State.hasUnseededCycle_iff (s : State) :
    s.hasUnseededCycle = true ↔ ∃ k, k < s.nInst ∧ s.unseededWalk s.nInst k = true := by
  simp [State.hasUnseededCycle, State.ids]

theorem hasUnseededCycle_config_of_not_ring (s : State) {topo : Topo} (notRing : topo ≠ .ring) (n : Nat) (caps : List Nat)
    (seeds : List (List Word)) : (s.config topo n caps seeds).hasUnseededCycle = false := by
  rw [Bool.eq_false_iff, Ne, State.hasUnseededCycle_iff]
  rintro ⟨k, lt, walk⟩
  have := State.unseededWalk_lt (n := n) (fun k j edge => by
    obtain ⟨p, hp, prod, cons⟩ := unseededEdge_config edge
    exact Topo.rises notRing hp prod cons) n k lt walk
  omega

/-- Every port of a ring is on the walk of `n` edges from any instance. -/
theorem exists_walk_index {n k p : Nat} (hk : k < n) (hp : p < n) : ∃ i, i < n ∧ (k + 1 + i) % n = p := by
  refine ⟨(p + (n - (k + 1))) % n, Nat.mod_lt _ (by omega), ?_⟩
  rw [Nat.add_mod_mod, show k + 1 + (p + (n - (k + 1))) = p + n by omega, Nat.add_mod_right, Nat.mod_eq_of_lt hp]

theorem hasUnseededCycle_config_ring (s : State) {n : Nat} (caps : List Nat) (seeds : List (List Word)) (pos : 1 ≤ n) :
    (s.config .ring n caps seeds).hasUnseededCycle = true ↔ ∀ p, p < n → seeds.getD p [] = [] := by
  rw [State.hasUnseededCycle_iff]
  constructor
  · rintro ⟨k, hk, walk⟩ p hp
    obtain ⟨i, hi, rfl⟩ := exists_walk_index hk hp
    exact (unseededWalk_ring n k hk).mp walk i hi
  · exact fun unseeded => ⟨0, pos, (unseededWalk_ring n 0 pos).mpr fun i _ => unseeded _ (Nat.mod_lt _ pos)⟩

/-- Settles O52: a walk of `n` edges goes around a RING over all its ports, and is too long for edges that rise. -/
theorem unseededCycleOnlyInUnseededRing : Obligations.UnseededCycleOnlyInUnseededRing := fun s n caps seeds pos =>
  ⟨hasUnseededCycle_config_ring s caps seeds pos, hasUnseededCycle_config_of_not_ring s (by simp) n caps seeds,
    hasUnseededCycle_config_of_not_ring s (by simp) n caps seeds⟩

end Sys2Proof.Machine
end

section
/-! PROOFS of 60_exceptions, the host: when each move is enabled (R280, R283, R284), START (R262) and the completion of JOIN
(R266). -/

namespace Sys2Proof.Machine

/-! ### When each move is enabled -/

theorem State.agentEnabled_hostMove_nil {s : State} (noMove : s.moves = []) : s.agentEnabled .hostMove = false := by
  simp [State.agentEnabled, State.nextMoveEnabled, noMove]

theorem State.agentEnabled_hostMove_cons {s : State} {m : HostMove} {rest : List HostMove} (moves : s.moves = m :: rest) :
    s.agentEnabled .hostMove = s.moveEnabled m := by
  simp [State.agentEnabled, State.nextMoveEnabled, moves]

section
variable (s : State)

theorem State.configurable_iff : s.configurable = true ↔ s.started = false ∧ s.configError = none := by
  simp [State.configurable]

theorem State.moveEnabled_load_iff (k : Nat) (text : List Char) :
    s.moveEnabled (.load k text) = true ↔ s.started = false ∧ s.configError = none := s.configurable_iff

theorem State.moveEnabled_config_iff (topo : Topo) (n : Nat) (caps : List Nat) (seeds : List (List Word)) :
    s.moveEnabled (.config topo n caps seeds) = true ↔ s.started = false ∧ s.configError = none := s.configurable_iff

theorem State.moveEnabled_start_iff :
    s.moveEnabled .start = true ↔ s.started = false ∧ s.configError = none ∧ s.hmode = .active := by
  simp [State.moveEnabled, s.configurable_iff, and_assoc]

theorem State.moveEnabled_push_iff (p : Nat) (v : Word) : s.moveEnabled (.push p v) = true ↔
    s.hmode = .active ∧ ∃ P, s.port p = some P ∧ P.prod = .host ∧ P.closed = false := by
  cases hP : s.port p <;> simp [State.moveEnabled, hP, hostPushes_iff]

theorem State.moveEnabled_pop_iff (p : Nat) : s.moveEnabled (.pop p) = true ↔
    s.hmode = .active ∧ ∃ P, s.port p = some P ∧
      (P.cons = .host ∨ ∃ k, P.cons = .inst k ∧ ((s.inst k).status = .halted ∨ (s.inst k).status = .faulted)) := by
  cases hP : s.port p <;> simp [State.moveEnabled, hP, State.hostPops_iff]

theorem State.moveEnabled_close_iff (p : Nat) : s.moveEnabled (.close p) = true ↔
    s.hmode = .active ∧ ∃ P, s.port p = some P ∧ P.prod = .host := by
  cases hP : s.port p <;> simp [State.moveEnabled, hP, hostPushes_iff]

theorem State.moveEnabled_join_iff : s.moveEnabled .join = true ↔ s.hmode = .active ∧ s.started = true := by
  simp [State.moveEnabled]

theorem State.moveEnabled_memRead_iff (k : Nat) (a : Word) : s.moveEnabled (.memRead k a) = true ↔
    k < s.nInst ∧ ((s.inst k).status = .halted ∨ (s.inst k).status = .faulted) ∧ 0 ≤ a.toInt := by
  simp [State.moveEnabled, Inst.terminated_iff, and_assoc]

end

/-- Settles O57: the host's step is its first move, and each move is enabled as its row of R280 says. -/
theorem hostMovesEnabled : Obligations.HostMovesEnabled := fun s =>
  ⟨State.agentEnabled_hostMove_nil, fun _ _ moves => by rw [State.agentEnabled_hostMove_cons moves], s.moveEnabled_load_iff,
    s.moveEnabled_config_iff, s.moveEnabled_start_iff, s.moveEnabled_push_iff, s.moveEnabled_pop_iff,
    s.moveEnabled_close_iff, s.moveEnabled_join_iff, s.moveEnabled_memRead_iff⟩

/-! ### START -/

theorem State.start_of_check_fails {s : State} {r : ConfigReason} (check : s.checkConfig = some r) :
    s.start = { s with configError := some r } := by
  simp [State.start, check]

theorem State.start_of_check_passes {s : State} (check : s.checkConfig = none) : s.start = s.startAll := by
  simp [State.start, check]

/-- START leaves the host's list of moves: the step has taken START from it. -/
theorem State.moves_start (s : State) : s.start.moves = s.moves := by
  unfold State.start
  split <;> rfl

theorem State.inst_startAll_of_idle {s : State} {k : Nat} (lt : k < s.nInst) (inRange : k < s.insts.length)
    (idle : (s.inst k).status = .idle) : s.startAll.inst k = { s.inst k with status := .running } := by
  rw [State.inst_startAll, if_pos ⟨lt, inRange⟩, Inst.start, if_pos idle]

/-- Settles O51: the move is enabled, so the run is not started, and START takes the branch of the check. -/
theorem startStartsEveryInstance : Obligations.StartStartsEveryInstance := by
  intro s rest pick moves
  have enabled : s.moveEnabled .start = true := by
    rw [← State.agentEnabled_hostMove_cons moves]; exact State.pick_enabled pick
  obtain ⟨notStarted, noError, active⟩ := s.moveEnabled_start_iff.mp enabled
  obtain ⟨-, -, -, hmode, -⟩ := (s.atMove rest).start_keeps
  refine ⟨(s.atMove rest).start, step_hostMove pick moves, State.moves_start _, State.ports_start _,
    hmode.trans active, notStarted, fun check => ?_, fun r check => ?_⟩
  · rw [State.start_of_check_passes (s := s.atMove rest) check]
    exact ⟨rfl, noError, State.hasUnseededCycle_congr rfl rfl, fun k lt inRange idle =>
      State.inst_startAll_of_idle (s := s.atMove rest) lt inRange idle⟩
  · rw [State.start_of_check_fails (s := s.atMove rest) check]
    exact ⟨notStarted, rfl, rfl, rfl⟩

/-! ### JOIN -/

/-- The step of the agent that is picked. -/
theorem step_of_pick {s : State} {a : Agent} (pick : s.pick = some a) : step s = stepAgent a (s.begin a) := by
  simp [step, pick]

theorem State.allTerminated_iff (s : State) : s.allTerminated = true ↔
    ∀ k, k < s.nInst → (s.inst k).status = .halted ∨ (s.inst k).status = .faulted := by
  simp [State.allTerminated, State.ids, Inst.terminated_iff]

theorem State.waitReady_of_join {s : State} (join : s.hmode = .join) : s.waitReady = s.allTerminated := by
  simp [State.waitReady, join]

theorem State.completeWait_of_join {s : State} (join : s.hmode = .join) :
    s.completeWait = { s with hmode := .active, results := s.results ++ [.joined s.joinResult] } := by
  simp [State.completeWait, join]

theorem State.length_joinResult (s : State) : s.joinResult.length = s.nInst := by
  simp [State.joinResult, State.ids]

theorem State.getElem?_joinResult {s : State} {k : Nat} (lt : k < s.nInst) :
    s.joinResult[k]? = some ((s.inst k).status, (s.inst k).frec) := by
  simp [State.joinResult, State.ids, lt]

/-- Settles O60: a JOIN is ready when all are terminated, and its completion appends their statuses and records. -/
theorem joinReturnsEveryEnd : Obligations.JoinReturnsEveryEnd := by
  intro s join
  refine ⟨?_, fun pick => ⟨s.joinResult, ?_, s.length_joinResult, fun _ lt => State.getElem?_joinResult lt⟩⟩
  · rw [State.agentEnabled, State.waitReady_of_join join, State.allTerminated_iff]
  · rw [step_of_pick pick, stepAgent, State.completeWait_of_join (s := s.begin .hostWait) join]
    rfl

end Sys2Proof.Machine
end

section
/-! PROOFS of 60_exceptions, deadlock: which agents step in a quiescent state and what their steps leave (R270, R271), and the
ring whose instances all wait (R265). -/

namespace Sys2Proof.Machine

/-! ### What quiescent means -/

theorem State.mem_runningIds (s : State) (k : Nat) : k ∈ s.runningIds ↔ k < s.nInst ∧ (s.inst k).status = .running := by
  simp [State.runningIds, State.ids]

/-- An instance has no step exactly where it is held whenever it is RUNNING. -/
theorem State.canStep_eq_false_iff (s : State) (k : Nat) :
    s.canStep k = false ↔ ((s.inst k).status = .running → s.held k = true) := by
  simp [State.canStep]

theorem State.agentEnabled_arbiter_iff (s : State) :
    s.agentEnabled .arbiter = true ↔ s.quiescent = true ∧ s.deadlock = none := by
  simp [State.agentEnabled]

/-! ### The agents of a quiescent state -/

section
variable {s : State} (quiescent : s.quiescent = true)
include quiescent

theorem State.inst_not_enabled_of_quiescent (k : Nat) : s.agentEnabled (.inst k) ≠ true := by
  obtain ⟨-, noStep, -⟩ := s.quiescent_iff.mp quiescent
  intro enabled
  obtain ⟨lt, running, notHeld⟩ := (s.agentEnabled_inst k).mp enabled
  simp [(s.canStep_eq_false_iff k).mp (noStep k lt) running] at notHeld

/-- A JOIN waits for the instance that is RUNNING, any other wait is blocked. -/
theorem State.wait_not_ready_of_quiescent : s.waitReady ≠ true := by
  obtain ⟨-, -, -, join, other⟩ := s.quiescent_iff.mp quiescent
  intro ready
  by_cases mode : s.hmode = .join
  · obtain ⟨k, lt, running⟩ := join mode
    rw [State.waitReady_of_join mode, State.allTerminated_iff] at ready
    obtain halted | faulted := ready k lt
    · simp [running] at halted
    · simp [running] at faulted
  · simp [other mode] at ready

/-- The one move of a host that waits in a started run is MEMREAD (R280). -/
theorem State.memRead_of_quiescent {m : HostMove} (enabled : s.moveEnabled m = true) : ∃ k a, m = .memRead k a := by
  obtain ⟨started, -, waits, -⟩ := s.quiescent_iff.mp quiescent
  cases m with
  | memRead k a => exact ⟨k, a, rfl⟩
  | load k text => simp [State.moveEnabled_load_iff, started] at enabled
  | config topo n caps seeds => simp [State.moveEnabled_config_iff, started] at enabled
  | start => simp [State.moveEnabled_start_iff, started] at enabled
  | push p v => simp [State.moveEnabled_push_iff, waits] at enabled
  | pop p => simp [State.moveEnabled_pop_iff, waits] at enabled
  | close p => simp [State.moveEnabled_close_iff, waits] at enabled
  | join => simp [State.moveEnabled_join_iff, waits] at enabled

end

/-- Settles O54: in a quiescent state no instance steps and the wait does not complete, so the step is a MEMREAD, which leaves
all that quiescence depends on, or the arbiter's. -/
theorem quiescentStaysQuiescent : Obligations.QuiescentStaysQuiescent := by
  intro s t quiescent h
  cases step_cases h with
  | fetchFault k c pick => exact absurd (State.pick_enabled pick) (State.inst_not_enabled_of_quiescent quiescent k)
  | instr k i t pick => exact absurd (State.pick_enabled pick) (State.inst_not_enabled_of_quiescent quiescent k)
  | move m rest pick moves enabled =>
    obtain ⟨k, a, rfl⟩ := State.memRead_of_quiescent quiescent enabled
    exact ⟨rfl, rfl, fun _ => (State.quiescent_congr rfl rfl rfl rfl rfl).trans quiescent⟩
  | wait t pick ready => exact absurd ready (State.wait_not_ready_of_quiescent quiescent)
  | deadlock pick => exact ⟨rfl, rfl, fun other => absurd pick other⟩

/-! ### The arbiter's step -/

/-- Without a configuration error a declared deadlock is the outcome (70_reset_and_hazards R308; log 13). -/
theorem State.outcome_of_deadlock {s : State} {held : List Nat} (noError : s.configError = none)
    (declared : s.deadlock = some held) : s.outcome = some (.deadlock held) := by
  simp [State.outcome, noError, declared]

/-- Settles O53: the conditions of R270 with being held for having no step, then the arbiter's step, which declares the
RUNNING instances. -/
theorem deadlockDeclared : Obligations.DeadlockDeclared := by
  intro s
  refine ⟨?_, s.agentEnabled_arbiter_iff, fun pick => ?_⟩
  · rw [s.quiescent_iff]
    simp only [s.canStep_eq_false_iff]
    rfl
  · exact ⟨_, s.runningIds, step_of_pick pick, rfl, s.mem_runningIds, rfl, rfl, rfl,
      fun noError => State.outcome_of_deadlock noError rfl⟩

/-! ### The ring whose instances all wait at IN -/

/-- The only agent that is enabled is picked. -/
theorem State.pick_of_only {s : State} {a : Agent} (enabled : s.agentEnabled a = true)
    (only : ∀ b, s.agentEnabled b = true → b = a) : s.pick = some a := by
  cases pick : s.pick with
  | none => simp [State.pick_none pick a] at enabled
  | some b => rw [only b (State.pick_enabled pick)]

/-- In a quiescent state without a declared deadlock and without a further move, the arbiter is the only enabled agent. -/
theorem State.pick_arbiter_of_quiescent {s : State} (quiescent : s.quiescent = true) (first : s.deadlock = none)
    (noMove : s.moves = []) : s.pick = some .arbiter := by
  refine State.pick_of_only (s.agentEnabled_arbiter_iff.mpr ⟨quiescent, first⟩) fun b enabled => ?_
  cases b with
  | inst k => exact absurd enabled (State.inst_not_enabled_of_quiescent quiescent k)
  | hostMove => simp [State.agentEnabled_hostMove_nil noMove] at enabled
  | hostWait => exact absurd enabled (State.wait_not_ready_of_quiescent quiescent)
  | arbiter => rfl

/-- Where no instance is at OUT and the host does not push, no port has a ready producer. -/
theorem State.readyProducer_eq_none {s : State} {p : Nat} {P : Port} (notPush : ∀ v, s.hmode ≠ .waitPush p v)
    (noOut : ∀ k v, P.prod = .inst k → ¬ AtOut (s.inst k) v) : s.readyProducer p P = none := by
  refine Option.eq_none_iff_forall_ne_some.mpr ?_
  rintro ⟨src, v⟩ ready
  obtain ⟨k, w, prod, -, -, atOut⟩ := (State.exists_readyProducer_iff notPush).mp ⟨src, v, ready⟩
  exact noOut k w prod atOut

/-- Settles O55: the producer of each empty port is itself at IN, so every instance is held and the state is quiescent. -/
theorem unseededRingDeadlocks : Obligations.UnseededRingDeadlocks := by
  intro s wired ring pos started first join noMove atIn empty
  have notSingle : s.topo = .single → s.nInst = 1 := by simp [ring]
  have held : ∀ k, k < s.nInst → s.held k = true := fun k lt => by
    obtain ⟨running, ea, hIn⟩ := atIn k lt
    obtain ⟨P, hP, -⟩ := wired.inp notSingle lt
    obtain ⟨noValue, isOpen⟩ := empty P (List.mem_of_getElem? hP)
    have noProducer : s.readyProducer (s.inst k).inPort P = none :=
      State.readyProducer_eq_none (by simp [join]) fun j v prod => by
        obtain ⟨-, ea', hIn'⟩ := atIn j ((wired.each pos notSingle).2 _ P hP j (.inl prod))
        exact hIn'.not_atOut v
    exact (s.held_iff k).mpr ⟨running, .inl ⟨ea, hIn, State.popHow_of_not_ready hP noValue isOpen (.inr noProducer)⟩⟩
  have quiescent : s.quiescent = true := s.quiescent_iff.mpr
    ⟨started, fun k lt => (s.canStep_eq_false_iff k).mpr fun _ => held k lt, by simp [join],
      fun _ => ⟨0, pos, (atIn 0 pos).1⟩, fun other => absurd join other⟩
  refine ⟨_, step_of_pick (State.pick_arbiter_of_quiescent quiescent first noMove), congrArg some ?_, rfl, rfl⟩
  exact List.filter_eq_self.mpr fun k hk => by simp [(atIn k (List.mem_range.mp hk)).1]

end Sys2Proof.Machine
end

section
/-! PROOFS of 70_reset_and_hazards: the grammar of a program text (R305), the state after reset (R300 to R303) and the outcomes of
a run (R308). -/

namespace Sys2Proof.Machine

/-! ### A token -/

/-- `sign` (R305): nothing, a minus or a plus. -/
def IsSign (sign : List Char) : Prop := sign = [] ∨ sign = ['-'] ∨ sign = ['+']

/-- The integer that a sign and digits stand for. -/
def signedValue (sign digits : List Char) : Int :=
  if sign = ['-'] then -(decimalValue digits : Int) else decimalValue digits

theorem startsWithDigit_append {digits : List Char} (some_digit : digits ≠ []) (all : ∀ c ∈ digits, isDigit c = true)
    (rest : List Char) : startsWithDigit (digits ++ rest) = true := by
  cases digits with
  | nil => exact absurd rfl some_digit
  | cons c cs => exact all c (by simp)

/-- A digit is no sign: a text that starts with one has none. -/
theorem readSign_of_digit {t : List Char} (digit : startsWithDigit t = true) : readSign t = (false, t) := by
  cases t with
  | nil => rfl
  | cons c t =>
    have notMinus : c ≠ '-' := by rintro rfl; exact absurd digit (by simp [startsWithDigit, isDigit])
    have notPlus : c ≠ '+' := by rintro rfl; exact absurd digit (by simp [startsWithDigit, isDigit])
    simp [readSign, notMinus, notPlus]

theorem readSign_append {sign t : List Char} (isSign : IsSign sign) (digit : startsWithDigit t = true) :
    readSign (sign ++ t) = (decide (sign = ['-']), t) := by
  obtain rfl | rfl | rfl := isSign
  · exact readSign_of_digit digit
  · rfl
  · rfl

theorem readSign_split (t : List Char) :
    ∃ sign, t = sign ++ (readSign t).2 ∧ IsSign sign := by
  cases t with
  | nil => exact ⟨[], rfl, .inl rfl⟩
  | cons c t =>
    by_cases minus : c = '-'
    · subst minus; exact ⟨['-'], rfl, .inr (.inl rfl)⟩
    · by_cases plus : c = '+'
      · subst plus; exact ⟨['+'], rfl, .inr (.inr rfl)⟩
      · exact ⟨[], by simp [readSign, minus, plus], .inl rfl⟩

/-- A text that begins with an optional sign and a digit has no leading white space. -/
theorem dropSpaces_of_sign {sign t : List Char} (isSign : IsSign sign) (digit : startsWithDigit t = true) :
    dropSpaces (sign ++ t) = sign ++ t := by
  obtain rfl | rfl | rfl := isSign
  · cases t with
    | nil => rfl
    | cons c t => simp [dropSpaces, digit_not_space (c := c) digit]
  · rfl
  · rfl

/-- What the token reader asks of a text, after its parts are read. -/
theorem parseToken_iff_parts {t body rest : List Char} {negative : Bool} {n : Nat}
    (sign : readSign (dropSpaces t) = (negative, body)) (digits : readDigits 0 body = (n, rest)) (w : Word) :
    parseToken t = some w ↔ startsWithDigit body = true ∧ (∀ c ∈ rest, isSpace c = true) ∧
      w.toInt = if negative then -(n : Int) else n := by
  simp only [parseToken, sign, digits, ← wordOfInt_iff, ← dropSpaces_nil, ← and_assoc]
  by_cases good : startsWithDigit body = true ∧ dropSpaces rest = [] <;> simp [good]

/-- A token is its four parts, and its value is that of its sign and digits. -/
theorem parseToken_of_parts {before sign digits after : List Char} (w : Word) (spaces : ∀ c ∈ before, isSpace c = true)
    (spaces' : ∀ c ∈ after, isSpace c = true) (isSign : IsSign sign) (some_digit : digits ≠ [])
    (all : ∀ c ∈ digits, isDigit c = true) :
    parseToken (before ++ sign ++ digits ++ after) = some w ↔ w.toInt = signedValue sign digits := by
  have digit := startsWithDigit_append some_digit all after
  have signRead : readSign (dropSpaces (before ++ sign ++ digits ++ after)) = (decide (sign = ['-']), digits ++ after) := by
    rw [List.append_assoc, List.append_assoc, dropSpaces_append spaces, dropSpaces_of_sign isSign digit,
      readSign_append isSign digit]
  have digitsRead : readDigits 0 (digits ++ after) = (decimalValue digits, after) :=
    readDigits_append 0 all (spaces_start spaces')
  rw [parseToken_iff_parts signRead digitsRead, and_iff_right digit, and_iff_right spaces']
  simp [signedValue]

/-- A text that the reader accepts has the four parts of a token. -/
theorem parseToken_parts {t : List Char} {w : Word} (good : parseToken t = some w) :
    ∃ before sign digits after, t = before ++ sign ++ digits ++ after ∧ (∀ c ∈ before, isSpace c = true) ∧
      (∀ c ∈ after, isSpace c = true) ∧ IsSign sign ∧ digits ≠ [] ∧ ∀ c ∈ digits, isDigit c = true := by
  obtain ⟨digit, spaces', -⟩ := (parseToken_iff_parts Prod.mk.eta.symm Prod.mk.eta.symm w).mp good
  obtain ⟨before, tEq, spaces⟩ := dropSpaces_split t
  obtain ⟨sign, signEq, isSign⟩ := readSign_split (dropSpaces t)
  obtain ⟨digits, digitsEq, all, -, restStart⟩ := readDigits_split 0 (readSign (dropSpaces t)).2
  refine ⟨before, sign, digits, _, ?_, spaces, spaces', isSign, ?_, all⟩
  · rw [List.append_assoc, ← digitsEq, List.append_assoc, ← signEq, ← tEq]
  · rintro rfl
    rw [digitsEq, List.nil_append, restStart] at digit
    cases digit

/-! ### The tokens of a text -/

/-- Token `n` is the first one that is not good. -/
def FirstBadToken (tokens : List (List Char)) (n : Nat) : Prop :=
  (∃ t, tokens[n]? = some t ∧ parseToken t = none) ∧ ∀ j t, j < n → tokens[j]? = some t → parseToken t ≠ none

theorem not_firstBadToken_nil (n : Nat) : ¬ FirstBadToken [] n := by
  simp [FirstBadToken]

theorem firstBadToken_zero (t : List Char) (rest : List (List Char)) :
    FirstBadToken (t :: rest) 0 ↔ parseToken t = none := by
  simp [FirstBadToken]

theorem firstBadToken_succ (t : List Char) (rest : List (List Char)) (n : Nat) :
    FirstBadToken (t :: rest) (n + 1) ↔ parseToken t ≠ none ∧ FirstBadToken rest n := by
  constructor
  · rintro ⟨bad, before⟩
    exact ⟨before 0 t (by omega) rfl, bad, fun j u lt => before (j + 1) u (by omega)⟩
  · rintro ⟨good, bad, before⟩
    refine ⟨bad, fun j u lt at_j => ?_⟩
    cases j with
    | zero => cases at_j; exact good
    | succ j => exact before j u (by omega) at_j

theorem parseTokens_of_bad {t : List Char} (bad : parseToken t = none) (i : Nat) (rest : List (List Char)) :
    parseTokens i (t :: rest) = .error i := by
  simp [parseTokens, bad]

section
variable {t : List Char} {w : Word} (good : parseToken t = some w) (i : Nat) (rest : List (List Char))
include good

/-- A good token's value is put before those of the tokens after it. -/
theorem parseTokens_cons_ok_iff (ws : List Word) : parseTokens i (t :: rest) = .ok ws ↔
    ∃ tail, parseTokens (i + 1) rest = .ok tail ∧ w :: tail = ws := by
  cases tail : parseTokens (i + 1) rest <;> simp [parseTokens, good, tail]

theorem parseTokens_cons_error_iff (j : Nat) :
    parseTokens i (t :: rest) = .error j ↔ parseTokens (i + 1) rest = .error j := by
  cases tail : parseTokens (i + 1) rest <;> simp [parseTokens, good, tail]

end

theorem parseTokens_ok_iff (i : Nat) (tokens : List (List Char)) (ws : List Word) :
    parseTokens i tokens = .ok ws ↔ tokens.map parseToken = ws.map some := by
  induction tokens generalizing i ws with
  | nil => cases ws <;> simp [parseTokens]
  | cons t rest ih =>
    cases head : parseToken t with
    | none => cases ws <;> simp [parseTokens_of_bad head, head]
    | some w => cases ws <;> simp [parseTokens_cons_ok_iff head, head, ih, and_comm]

theorem parseTokens_error_iff (i : Nat) (tokens : List (List Char)) (j : Nat) :
    parseTokens i tokens = .error j ↔ ∃ n, j = i + n ∧ FirstBadToken tokens n := by
  induction tokens generalizing i with
  | nil => simp [parseTokens, not_firstBadToken_nil]
  | cons t rest ih =>
    cases head : parseToken t with
    | none =>
      rw [parseTokens_of_bad head]
      constructor
      · intro same
        cases same
        exact ⟨0, rfl, (firstBadToken_zero t rest).mpr head⟩
      · rintro ⟨n, rfl, first⟩
        cases n with
        | zero => rfl
        | succ n => exact absurd head ((firstBadToken_succ t rest n).mp first).1
    | some w =>
      rw [parseTokens_cons_error_iff head, ih]
      constructor
      · rintro ⟨n, rfl, first⟩
        exact ⟨n + 1, by omega, (firstBadToken_succ t rest n).mpr ⟨by simp [head], first⟩⟩
      · rintro ⟨n, rfl, first⟩
        cases n with
        | zero => simp [firstBadToken_zero, head] at first
        | succ n => exact ⟨n, by omega, ((firstBadToken_succ t rest n).mp first).2⟩

/-- Settles O47: the reader's parts are those of the grammar, and the tokens of a text are what its commas separate. -/
theorem programTextGrammar : Obligations.ProgramTextGrammar := by
  refine ⟨fun t w => ⟨fun good => ?_, ?_⟩, fun tokens some_token noComma => ?_⟩
  · obtain ⟨before, sign, digits, after, rfl, spaces, spaces', isSign, some_digit, all⟩ := parseToken_parts good
    exact ⟨before, sign, digits, after, rfl, spaces, spaces', isSign, some_digit, all,
      (parseToken_of_parts w spaces spaces' isSign some_digit all).mp good⟩
  · rintro ⟨before, sign, digits, after, rfl, spaces, spaces', isSign, some_digit, all, value⟩
    exact (parseToken_of_parts w spaces spaces' isSign some_digit all).mpr value
  · rw [parseText, splitCommas_intercalate tokens some_token noComma]
    exact ⟨parseTokens_ok_iff 0 tokens, fun i => (parseTokens_error_iff 0 tokens i).trans (by simp [FirstBadToken])⟩

/-! ### The state after reset -/

theorem State.eq_fresh_of_mem_reset {I : Inst} (hI : I ∈ State.reset.insts) : I = Inst.fresh := by
  simpa [State.reset] using hI

/-- The one instance that exists after reset is fresh, and one that does not exist reads as such. -/
theorem State.inst_reset (k : Nat) : State.reset.inst k = Inst.fresh := by
  cases k <;> rfl

theorem State.port_reset {p : Nat} {P : Port} (hP : State.reset.ports[p]? = some P) :
    (p = 0 ∧ P = { q := [], closed := false, cap := 0, seed := [], prod := .host, cons := .inst 0 }) ∨
    (p = 1 ∧ P = { q := [], closed := false, cap := 0, seed := [], prod := .inst 0, cons := .host }) := by
  match p with
  | 0 => cases hP; exact .inl ⟨rfl, rfl⟩
  | 1 => cases hP; exact .inr ⟨rfl, rfl⟩
  | p + 2 => cases hP

theorem memoryCanonical_reset : MemoryCanonical State.reset :=
  (memoryCanonical_iff _).mpr fun k => by rw [State.inst_reset]; rfl

theorem faultsRecorded_reset : FaultsRecorded State.reset :=
  (faultsRecorded_iff _).mpr fun k => by simp [State.inst_reset, Inst.fresh]

theorem wired_reset : Wired State.reset := by
  refine ⟨rfl, by decide, fun p P hP => ?_, fun k I hI => ?_⟩
  · obtain ⟨rfl, rfl⟩ | ⟨rfl, rfl⟩ := State.port_reset hP <;> exact ⟨rfl, rfl⟩
  · obtain rfl := State.eq_fresh_of_mem_reset (List.mem_of_getElem? hI)
    exact ⟨rfl, rfl⟩

theorem startConsistent_reset : StartConsistent State.reset :=
  (startConsistent_iff _).mpr ⟨fun started => absurd started (by decide), fun k => by simp [State.inst_reset, Inst.fresh]⟩

/-- No port is closed after reset. -/
theorem closedPortsQuiet_reset : ClosedPortsQuiet State.reset := fun p P hP closed => by
  obtain ⟨-, rfl⟩ | ⟨-, rfl⟩ := State.port_reset hP <;> cases closed

/-- Settles O34: every instance is fresh, and the two ports are empty, open and those of SINGLE. -/
theorem resetMeetsTheInvariants : Obligations.ResetMeetsTheInvariants :=
  ⟨memoryCanonical_reset, stepKeepsQueuesBounded.1, faultsRecorded_reset, wired_reset, startConsistent_reset,
    closedPortsQuiet_reset⟩

/-- Settles O46: the one instance is the fresh one, and the two ports are empty, unseeded and open. -/
theorem resetState : Obligations.ResetState := by
  refine ⟨rfl, rfl, rfl, rfl, rfl, fun I hI => ?_, fun P hP => ?_⟩
  · obtain rfl := State.eq_fresh_of_mem_reset hI
    exact ⟨rfl, rfl, rfl, rfl, rfl⟩
  · obtain ⟨p, hP⟩ := List.mem_iff_getElem?.mp hP
    obtain ⟨-, rfl⟩ | ⟨-, rfl⟩ := State.port_reset hP <;> exact ⟨rfl, rfl⟩

/-! ### The outcomes of a run -/

theorem State.outcome_of_configError {s : State} (error : s.configError ≠ none) : s.outcome = some .configError := by
  simp [State.outcome, Option.isSome_iff_ne_none, error]

theorem State.allHalted_iff (s : State) : s.allHalted = true ↔ ∀ k, k < s.nInst → (s.inst k).status = .halted := by
  simp [State.allHalted, State.ids]

/-- Where all are terminated, not all are HALTED exactly when one is FAULTED. -/
theorem State.not_allHalted_iff {s : State} (ends : s.allTerminated = true) :
    ¬ s.allHalted = true ↔ ∃ k, k < s.nInst ∧ (s.inst k).status = .faulted := by
  rw [s.allHalted_iff]
  rw [s.allTerminated_iff] at ends
  constructor
  · intro notAll
    push Not at notAll
    obtain ⟨k, lt, notHalted⟩ := notAll
    exact ⟨k, lt, (ends k lt).resolve_left notHalted⟩
  · rintro ⟨k, lt, faulted⟩ all
    rw [all k lt] at faulted
    cases faulted

section
variable {s : State} (noError : s.configError = none) (noDeadlock : s.deadlock = none)
include noError noDeadlock

theorem State.outcome_of_statuses : s.outcome =
    if s.started && s.allHalted then some .success else if s.started && s.allTerminated then some .fault else none := by
  simp [State.outcome, noError, noDeadlock]

/-- The statuses alone end a run in one of two ways. -/
theorem State.outcome_success_or_fault {o : RunOutcome} (ended : s.outcome = some o) : o = .success ∨ o = .fault := by
  rw [State.outcome_of_statuses noError noDeadlock] at ended
  split at ended
  · cases ended; exact .inl rfl
  · split at ended
    · cases ended; exact .inr rfl
    · cases ended

theorem State.outcome_eq_success_iff : s.outcome = some .success ↔
    s.started = true ∧ ∀ k, k < s.nInst → (s.inst k).status = .halted := by
  rw [State.outcome_of_statuses noError noDeadlock, ← s.allHalted_iff, ← Bool.and_eq_true]
  split
  · next all => simp [all]
  · next notAll => split <;> simp [notAll]

theorem State.outcome_eq_fault_iff : s.outcome = some .fault ↔ s.started = true ∧
    (∀ k, k < s.nInst → (s.inst k).status = .halted ∨ (s.inst k).status = .faulted) ∧
    ∃ k, k < s.nInst ∧ (s.inst k).status = .faulted := by
  rw [State.outcome_of_statuses noError noDeadlock, ← s.allTerminated_iff,
    and_congr_right fun ends => (State.not_allHalted_iff ends).symm]
  split
  · next all => simp [((Bool.and_eq_true _ _).mp all).2]
  · next notAll => split <;> simp_all

end

/-- Settles O56: a configuration error comes first, then a declared deadlock, then the statuses of a started run. -/
theorem runOutcomes : Obligations.RunOutcomes := by
  intro s
  cases error : s.configError with
  | some r => simp [State.outcome_of_configError (s := s) (by simp [error])]
  | none =>
    cases declared : s.deadlock with
    | some held => simp [State.outcome_of_deadlock error declared]
    | none =>
      have success := State.outcome_eq_success_iff error declared
      have fault := State.outcome_eq_fault_iff error declared
      have ends := fun o => State.outcome_success_or_fault (o := o) error declared
      refine ⟨?_, fun held => ?_, by simpa using success, by simpa using fault⟩
      · exact ⟨fun ended => by simpa using ends _ ended, by simp⟩
      · exact ⟨fun ended => by simpa using ends _ ended, by simp⟩

end Sys2Proof.Machine
end
